-- ==== Sys2Proof/Word.lean ====
section
/-!
DEFINITION. The two 32-bit word types of the block (00_scope.md R10).
-/

namespace Sys2Proof

/-- A 32-bit word: a register, a command word, a word of a memory space (00_scope.md R9, R10). -/
abbrev Word := BitVec 32

/-- NUM: a 32-bit word read as an IEEE 754 binary32 value: sign bit 31, exponent bits 30:23,
fraction bits 22:0 (00_scope.md R10). The arithmetic on it is in Machine/Float.lean. -/
abbrev NUM := BitVec 32

end Sys2Proof
end

