-- ==== Sys2Proof/Syntax.lean ====
section
/-!
DEFINITION. The fifteen commands of 30_encoding.md R103, one constructor for each row of
spec/opcode_table.json, with SEL as a zero-extended number (R101). CFG, RENDER, RDSTAT and TAPS
have no selector: their SEL must be 0 (R101).
-/

namespace Sys2Proof

/-- A command (30_encoding.md R103). -/
inductive Instr where
  /-- CFG: configure the rendering format (44_engine.md R262) -/
  | cfg
  /-- SETP id: set a parameter (R264) -/
  | setp (id : Nat)
  /-- GETP id: read a parameter (R266) -/
  | getp (id : Nat)
  /-- RENDER: render frames with timestamped events (R272) -/
  | render
  /-- RDSTAT: read STATUS (R280) -/
  | rdstat
  /-- DLWR channel: delay-line write (40_delay_line.md R145) -/
  | dlwr (channel : Nat)
  /-- DLRD channel: delay-line interpolated read (R146) -/
  | dlrd (channel : Nat)
  /-- LFOSF osc: set oscillator frequency (41_oscillator.md R180) -/
  | lfosf (osc : Nat)
  /-- LFOV osc: read oscillator value (R181) -/
  | lfov (osc : Nat)
  /-- LFOQ osc: read oscillator quadrature value (R182) -/
  | lfoq (osc : Nat)
  /-- LFOINC osc: advance oscillator phase (R183) -/
  | lfoinc (osc : Nat)
  /-- RPSET id: set a ramped parameter directly (42_ramped_parameter.md R210) -/
  | rpset (id : Nat)
  /-- RPFRM id: advance and read a ramped parameter (R211) -/
  | rpfrm (id : Nat)
  /-- RPGET id: read a ramped parameter (R212) -/
  | rpget (id : Nat)
  /-- TAPS: compute the tap sets (43_tap_compute.md R240) -/
  | taps
deriving DecidableEq, Repr, Inhabited

/-- The SEL field a command carries (R101): 0 for the four commands without a selector. -/
def Instr.sel : Instr → Nat
  | .cfg => 0
  | .setp id => id
  | .getp id => id
  | .render => 0
  | .rdstat => 0
  | .dlwr c => c
  | .dlrd c => c
  | .lfosf i => i
  | .lfov i => i
  | .lfoq i => i
  | .lfoinc i => i
  | .rpset id => id
  | .rpfrm id => id
  | .rpget id => id
  | .taps => 0

end Sys2Proof
end

