-- ==== Sys2Proof/WellFormed.lean ====
section
/-!
DEFINITION. Which commands have a word: the selector fits the 8-bit SEL field (30_encoding.md R100,
R101). Whether a selector names a channel, oscillator or parameter that exists is no matter of
form: that is checked when the command is performed (60_exceptions.md R312).
-/

namespace Sys2Proof

/-- The command's SEL fits bits 23:16 of its word (30_encoding.md R100). -/
def Instr.WellFormed (i : Instr) : Bool := decide (i.sel < 256)

end Sys2Proof
end

