-- ==== Sys2Proof/Decode.lean ====
section
/-!
DEFINITION. The decoder of 30_encoding.md R109 and the encoder of R100 and R103.
-/

namespace Sys2Proof

/-- Why a command word is illegal (30_encoding.md R107). -/
inductive Illegal where
  /-- (b): `CMD[15:0] ≠ 0` -/
  | mbzNotZero
  /-- (a): OPCODE is none of the fifteen -/
  | unknownOpcode
  /-- (c): SEL ≠ 0 on CFG, RENDER, RDSTAT or TAPS -/
  | selNotZero
deriving DecidableEq, Repr

/-- OPCODE, bits 31:24 (R100). -/
def opcodeField (w : Word) : Nat := (w.extractLsb' 24 8).toNat

/-- SEL, bits 23:16, zero-extended (R100, R101). -/
def selField (w : Word) : Nat := (w.extractLsb' 16 8).toNat

/-- MBZ, bits 15:0 (R100, R102). -/
def mbzField (w : Word) : Nat := (w.extractLsb' 0 16).toNat

/-- What an OPCODE stands for (R103): a command without a selector, or one that takes SEL. -/
inductive OpcodeRow where
  | plain (i : Instr)
  | withSel (f : Nat → Instr)

/-- The opcode map of R103. -/
def opcodeRow (op : Nat) : Option OpcodeRow :=
  if op = 0x01 then some (.plain .cfg)
  else if op = 0x02 then some (.withSel .setp)
  else if op = 0x03 then some (.withSel .getp)
  else if op = 0x04 then some (.plain .render)
  else if op = 0x05 then some (.plain .rdstat)
  else if op = 0x10 then some (.withSel .dlwr)
  else if op = 0x11 then some (.withSel .dlrd)
  else if op = 0x20 then some (.withSel .lfosf)
  else if op = 0x21 then some (.withSel .lfov)
  else if op = 0x22 then some (.withSel .lfoq)
  else if op = 0x23 then some (.withSel .lfoinc)
  else if op = 0x30 then some (.withSel .rpset)
  else if op = 0x31 then some (.withSel .rpfrm)
  else if op = 0x32 then some (.withSel .rpget)
  else if op = 0x40 then some (.plain .taps)
  else none

/-- Decoding, in the order of R109: MBZ, then OPCODE, then SEL. -/
def decode (w : Word) : Except Illegal Instr :=
  if mbzField w ≠ 0 then .error .mbzNotZero
  else match opcodeRow (opcodeField w) with
    | none => .error .unknownOpcode
    | some (.withSel f) => .ok (f (selField w))
    | some (.plain i) => if selField w ≠ 0 then .error .selNotZero else .ok i

/-- The OPCODE byte of a command (R103). -/
def Instr.opcode : Instr → Nat
  | .cfg => 0x01
  | .setp _ => 0x02
  | .getp _ => 0x03
  | .render => 0x04
  | .rdstat => 0x05
  | .dlwr _ => 0x10
  | .dlrd _ => 0x11
  | .lfosf _ => 0x20
  | .lfov _ => 0x21
  | .lfoq _ => 0x22
  | .lfoinc _ => 0x23
  | .rpset _ => 0x30
  | .rpfrm _ => 0x31
  | .rpget _ => 0x32
  | .taps => 0x40

/-- The word of a command: OPCODE, SEL, sixteen zero bits (R100). -/
def encode (i : Instr) : Word :=
  BitVec.ofNat 8 i.opcode ++ BitVec.ofNat 8 i.sel ++ 0#16

/-- The command this decoder reads from a table row's bits: every command is one 32-bit word (R109),
so a row of `nbits` bits is that word with the bits above `nbits` zero. -/
def decodeTableWord (nbits w : Nat) : Option Instr :=
  if 32 < nbits then none
  else (decode (BitVec.ofNat 32 (w % 2 ^ nbits))).toOption

end Sys2Proof
end

