-- ==== Sys2Proof/Config.lean ====
section
/-!
DEFINITION. What an implementation fixes (the parameters of 00_scope.md R6 and their legality, R7)
and the free values, each an opaque constant no proof can see into.
-/

namespace Sys2Proof

/-- VARIANT: the one effect the block implements, selected before reset (R3, R6). -/
inductive Variant where
  | FLANGE
  | CHORUS
deriving DecidableEq, Repr, Inhabited

/-- FLANGE_TAP_COUNT: 5 or 7 (R6, R7). -/
inductive FlangeTaps where
  | five
  | seven
deriving DecidableEq, Repr, Inhabited

/-- RATE_UPDATE_POLICY (R6, 90_conflicts.md C2). -/
inductive RatePolicy where
  | RETUNE
  | RECREATE
deriving DecidableEq, Repr, Inhabited

/-- A finite binary32 value, by its fields: the exponent field is below 255, so no value of this type
is an infinity or a NaN (R7 asks it of every FLANGE_RATE_MULT). -/
structure FiniteNum where
  neg : Bool
  exponent : Fin 255
  fraction : BitVec 23
deriving DecidableEq, Repr, Inhabited

/-- The parameters of the block (R6). The types admit only the legal values of R7: five or seven
flange taps, 1 to 50 chorus taps, 1 to 256 channels, finite rate multipliers. They are fixed
before reset and no step writes them. -/
structure Params where
  VARIANT : Variant
  FLANGE_TAPS : FlangeTaps
  /-- FLANGE_RATE_MULT(i) for i below 7, enough for either flange tap count -/
  FLANGE_RATE_MULT : Vector FiniteNum 7
  /-- CHORUS_TAP_COUNT less 1 -/
  chorusTapsLess1 : Fin 50
  /-- READ_BIAS: false is 0, true is 1 -/
  READ_BIAS : Bool
  RATE_UPDATE_POLICY : RatePolicy
  BYPASS_ADVANCES_LFO : Bool
  /-- arguments of SIN whose value this parameter set names; every other argument is left to the
  opaque `Config.SIN` -/
  sinTable : List (NUM × NUM)
  INIT_RATE : NUM
  INIT_DEPTH : NUM
  INIT_DELAY : NUM
  INIT_DRY : NUM
  INIT_WET : NUM
  INIT_ODD90 : NUM
  /-- MAX_CHANNELS less 1 -/
  maxChannelsLess1 : Fin 256
  /-- MAX_FRAMES_HW less 1 -/
  maxFramesHwLess1 : Nat
  /-- MAX_DL_SAMPLES less 1 -/
  maxDlSamplesLess1 : Nat
  MAX_EVENTS : Nat
deriving DecidableEq, Repr, Inhabited

/-- The floating-point operations whose result may be a NaN. -/
inductive FpOp where
  | add
  | sub
  | mul
  | div
deriving DecidableEq, Repr, Inhabited

/-- SIN, an open function NUM → NUM (R6, R15; D3, I4). No body: a claim holds for every sine. -/
opaque Config.SIN : NUM → NUM

/-- VARIANT has no decided default (R6, D7). -/
opaque Config.VARIANT : Variant

/-- FLANGE_TAP_COUNT has no decided default (R6, D8). -/
opaque Config.FLANGE_TAPS : FlangeTaps

/-- FLANGE_RATE_MULT has no decided default (R6, D9, I5). -/
opaque Config.FLANGE_RATE_MULT : Vector FiniteNum 7

/-- Sign and payload of the NaN an operation gives on these operands (R11, I2: any NaN).
DESIGN CHOICE, log 5. The payload less 1 is a `Fin`, so every NaN and nothing else is possible. -/
opaque Config.nanBits : FpOp → NUM → NUM → Bool × Fin 8388607

/-- The n-th `draw()` (R13): an unconstrained 32-bit value. -/
opaque Config.draw : Nat → Word

/-- The value of wrap(x) for an x that is not finite, where R12 states none: any value of the range
[0.0, 1.0) that R44 asks of a phase. DESIGN CHOICE, log 8. -/
opaque Config.wrapNonFinite : NUM → Fin 0x3F800001

/-- What the format registers C, FS, MAXF, MAXD, SPM, N (numbered 0 to 5) hold after reset
(R38: unspecified, I9: any value). DESIGN CHOICE, log 4. -/
opaque Config.unspecified : Nat → Word

/-- TWO_PI, decided 0x40C90FDB (R6, D3). -/
def Config.TWO_PI : NUM := 0x40C90FDB#32

/-- MIN_DELAY_MS, decided: the binary32 nearest to 0.001 (R6, D20). -/
def Config.MIN_DELAY_MS : NUM := 0x3A83126F#32

/-- ODD90_THRESHOLD, decided 0.5 (R6, D23). -/
def Config.ODD90_THRESHOLD : NUM := 0x3F000000#32

/-- UNKNOWN_PARAM_SENTINEL, decided 0.0 (R6, D25; 90_conflicts.md C6). -/
def Config.UNKNOWN_PARAM_SENTINEL : NUM := 0x00000000#32

/-- The parameter set of the machine at `State.reset`: every parameter with a decided default has it
(R6), and those without one are opaque. DESIGN CHOICE, log 1: statements range over all sets. -/
def Config.params : Params where
  VARIANT := Config.VARIANT
  FLANGE_TAPS := Config.FLANGE_TAPS
  FLANGE_RATE_MULT := Config.FLANGE_RATE_MULT
  chorusTapsLess1 := 9
  READ_BIAS := false
  RATE_UPDATE_POLICY := .RETUNE
  BYPASS_ADVANCES_LFO := false
  sinTable := []
  INIT_RATE := 0#32
  INIT_DEPTH := 0#32
  INIT_DELAY := 0#32
  INIT_DRY := 0#32
  INIT_WET := 0#32
  INIT_ODD90 := 0#32
  maxChannelsLess1 := 7
  maxFramesHwLess1 := 4095
  maxDlSamplesLess1 := 1048575
  MAX_EVENTS := 256

/-- T (R6): FLANGE_TAP_COUNT or CHORUS_TAP_COUNT. -/
def Params.T (p : Params) : Nat :=
  match p.VARIANT, p.FLANGE_TAPS with
  | .FLANGE, .five => 5
  | .FLANGE, .seven => 7
  | .CHORUS, _ => p.chorusTapsLess1.val + 1

/-- MAX_CHANNELS (R6). -/
def Params.MAX_CHANNELS (p : Params) : Nat := p.maxChannelsLess1.val + 1

/-- MAX_FRAMES_HW (R6). -/
def Params.MAX_FRAMES_HW (p : Params) : Nat := p.maxFramesHwLess1 + 1

/-- MAX_DL_SAMPLES (R6). -/
def Params.MAX_DL_SAMPLES (p : Params) : Nat := p.maxDlSamplesLess1 + 1

/-- A parameter set as someone writes it down, legal or not: the numeric parameters of R6 that R7
restricts. -/
structure ParamSet where
  FLANGE_TAP_COUNT : Nat
  CHORUS_TAP_COUNT : Nat
  MAX_CHANNELS : Nat
  MAX_FRAMES_HW : Nat
  MAX_DL_SAMPLES : Nat
  /-- FLANGE_RATE_MULT(i) for i below FLANGE_TAP_COUNT; the set has no further ones, and what stands there
  counts for nothing -/
  FLANGE_RATE_MULT : Vector NUM 7
deriving DecidableEq, Repr

/-- The multipliers of a set, those at FLANGE_TAP_COUNT and above blanked. -/
def ParamSet.usedMults (r : ParamSet) : Vector NUM 7 :=
  Vector.ofFn fun i : Fin 7 => if i.val < r.FLANGE_TAP_COUNT then r.FLANGE_RATE_MULT[i] else 0#32

/-- The fields of a finite NUM (exponent field below 255: no infinity and no NaN). -/
def FiniteNum.ofNum (x : NUM) (h : x.toNat / 2 ^ 23 % 256 < 255) : FiniteNum where
  neg := x.getLsbD 31
  exponent := ⟨_, h⟩
  fraction := BitVec.ofNat 23 x.toNat

/-- Seven finite NUMs, if all seven are finite. -/
def FiniteNum.all? (v : Vector NUM 7) : Option (Vector FiniteNum 7) :=
  if h : ∀ i : Fin 7, v[i].toNat / 2 ^ 23 % 256 < 255 then
    some (Vector.ofFn fun i => FiniteNum.ofNum v[i] (h i))
  else none

/-- The block built with the numeric parameters of `r` and otherwise as `p`; none where R7 asks the
model to refuse the set (or a size of R6 is 0). -/
def Params.build (p : Params) (r : ParamSet) : Option Params :=
  match FiniteNum.all? r.usedMults with
  | none => none
  | some mult =>
    if hc : r.CHORUS_TAP_COUNT - 1 < 50 then
      if hm : r.MAX_CHANNELS - 1 < 256 then
        if (r.FLANGE_TAP_COUNT = 5 ∨ r.FLANGE_TAP_COUNT = 7) ∧ 1 ≤ r.CHORUS_TAP_COUNT ∧
            1 ≤ r.MAX_CHANNELS ∧ 1 ≤ r.MAX_FRAMES_HW ∧ 1 ≤ r.MAX_DL_SAMPLES then
          some { p with
            FLANGE_TAPS := if r.FLANGE_TAP_COUNT = 5 then .five else .seven
            FLANGE_RATE_MULT := mult
            chorusTapsLess1 := ⟨_, hc⟩
            maxChannelsLess1 := ⟨_, hm⟩
            maxFramesHwLess1 := r.MAX_FRAMES_HW - 1
            maxDlSamplesLess1 := r.MAX_DL_SAMPLES - 1 }
        else none
      else none
    else none

end Sys2Proof
end

