-- ==== Sys2Proof/Machine/State.lean ====
section
/-!
DEFINITION. The state of the block (spec/10_state.md, 20_memory.md), as plain data, and the state after
hardware reset (70_reset_and_hazards.md R340).
-/

namespace Sys2Proof.Machine

/-- No command stops the block: every abnormal condition is a STATUS bit (60_exceptions.md R318). The
one fault is the host's: an access to a word that does not exist. -/
inductive Fault where
  /-- raised by a host write to an index outside IN, OUT or EVQ (20_memory.md R70, R78): safe, the
  word does not exist -/
  | noSuchWord
deriving DecidableEq, Repr

/-- What the model refuses, by name. -/
inductive Refusal where
  /-- an instruction that has no meaning yet: no arm of exec answers it; safe -/
  | notModelled (mnemonic : String)
  /-- raised by a host write to a register or memory space the host has no write access to (RES, STATUS,
  TAPE, TAPO, DL; 10_state.md R33, R35, 20_memory.md R70, R72): safe, the spec excludes it -/
  | hostHasNoAccess
deriving DecidableEq, Repr

/-- A word-indexed memory in canonical form: (index, word) pairs, indices strictly rising, no zero
word listed; an unlisted word reads as zero (20_memory.md R70, R75; log 3). -/
abbrev Memory := List (Nat × Word)

/-- The canonical form: indices strictly rising, and no entry equal to what an unlisted word reads as. -/
abbrev Memory.wf (m : Memory) : Prop :=
  m.Pairwise (fun a b => a.1 < b.1) ∧ ∀ e ∈ m, e.2 ≠ 0#32

/-- Every listed index is below `n`, the number of words of the space (20_memory.md R70). -/
abbrev Memory.within (n : Nat) (m : Memory) : Prop := ∀ e ∈ m, e.1 < n

/-- A ramp record (00_scope.md R14). -/
structure Ramp where
  value : NUM
  target : NUM
  step : NUM
  remaining : Word
deriving DecidableEq, Repr, Inhabited

/-- A parameter id that is known (30_encoding.md R106). -/
inductive ParamId where
  | RATE
  | DEPTH
  | DELAY
  | DRY
  | WET
  | ODD90
deriving DecidableEq, Repr, Inhabited

/-- The parameter file P (10_state.md R39). -/
structure ParamFile where
  RATE : Ramp
  DEPTH : Ramp
  DELAY : Ramp
  DRY : Ramp
  WET : Ramp
  ODD90 : Ramp
deriving DecidableEq, Repr, Inhabited

/-- An oscillator L[i] (10_state.md R40). -/
structure Osc where
  phase : NUM
  inc : Ramp
deriving DecidableEq, Repr, Inhabited

/-- The delay line of one channel: its write cursor WC[c] and its words DL[c][0..N-1]
(10_state.md R41, 20_memory.md R74). -/
structure Line where
  WC : Nat
  cells : Memory
deriving DecidableEq, Repr, Inhabited

/-- The format registers (10_state.md R38), read only while CFGD = 1. -/
structure Format where
  C : Nat
  FS : NUM
  MAXF : Nat
  MAXD : NUM
  SPM : NUM
  N : Nat
deriving DecidableEq, Repr, Inhabited

/-- The STATUS register (10_state.md R35): its six flags. Bits 31:6 are hardwired 0 and have no
storage; `Status.word` (Machine/Flags.lean) gives the 32 bits read. -/
structure Status where
  /-- bit 0 -/
  CFGD : Bool
  /-- bit 1 -/
  E_ILL : Bool
  /-- bit 2 -/
  E_NOTCFG : Bool
  /-- bit 3 -/
  E_SEL : Bool
  /-- bit 4 -/
  E_PRECOND : Bool
  /-- bit 5 -/
  E_RANGE : Bool
deriving DecidableEq, Repr, Inhabited

/-- A register of the block's interface as the host names it (10_state.md R30). -/
inductive HostReg where
  | CMD
  | OPA
  | OPB
  | OPC
  | OPD
  | RES
  | STATUS
deriving DecidableEq, Repr

/-- A memory space (20_memory.md R70). -/
inductive Space where
  | IN
  | OUT
  | EVQ
  | TAPE
  | TAPO
  | DL
deriving DecidableEq, Repr

/-- What the host may do to the block between commands (20_memory.md R72, R80): write a register (a
write of CMD issues a command, 10_state.md R31), write a word of a memory space, or raise hardware
reset (70_reset_and_hazards.md R340). A host read changes nothing (20_memory.md R77); it is
`hostReadReg` and `hostReadWord` of Machine/HostPort.lean. -/
inductive HostAccess where
  | writeReg (r : HostReg) (v : Word)
  | writeWord (space : Space) (index : Nat) (v : Word)
  | reset
deriving DecidableEq, Repr

/-- The whole machine. CMD has no field: it holds nothing once its command is performed
(10_state.md R31). -/
structure State where
  /-- the build-time parameters (00_scope.md R6): the model's own field, written by no step -/
  params : Params
  OPA : Word
  OPB : Word
  OPC : Word
  OPD : Word
  RES : Word
  STATUS : Status
  fmt : Format
  P : ParamFile
  /-- the oscillator bank L[0..T-1]; empty while it does not exist -/
  L : List Osc
  /-- DL[c] and WC[c] for each channel c < C; empty while no delay line exists -/
  lines : List Line
  IN : Memory
  OUT : Memory
  EVQ : Memory
  TAPE : Memory
  TAPO : Memory
  /-- the model's own: the host accesses to come, oldest first (20_memory.md R80; log 6) -/
  inputs : List HostAccess
  /-- the model's own: how many draws have been made (00_scope.md R13; log 2) -/
  draws : Nat
deriving DecidableEq, Repr

/-- A ramp record at rest at `v` (10_state.md R39: value = target, step 0.0, remaining 0). -/
def Ramp.still (v : NUM) : Ramp := { value := v, target := v, step := 0#32, remaining := 0#32 }

/-- The block built with parameters `p`, after hardware reset (70_reset_and_hazards.md R340). The format
registers are unspecified (log 4), no host access is to come (log 6), nothing is listed in IN, OUT
and EVQ, which reset does not write (log 3). -/
def State.resetFor (p : Params) : State where
  params := p
  OPA := 0#32
  OPB := 0#32
  OPC := 0#32
  OPD := 0#32
  RES := 0#32
  STATUS := { CFGD := false, E_ILL := false, E_NOTCFG := false, E_SEL := false, E_PRECOND := false,
              E_RANGE := false }
  fmt := { C := (Config.unspecified 0).toNat, FS := Config.unspecified 1,
           MAXF := (Config.unspecified 2).toNat, MAXD := Config.unspecified 3,
           SPM := Config.unspecified 4, N := (Config.unspecified 5).toNat }
  P := { RATE := .still p.INIT_RATE, DEPTH := .still p.INIT_DEPTH, DELAY := .still p.INIT_DELAY,
         DRY := .still p.INIT_DRY, WET := .still p.INIT_WET, ODD90 := .still p.INIT_ODD90 }
  L := []
  lines := []
  IN := []
  OUT := []
  EVQ := []
  TAPE := []
  TAPO := []
  inputs := []
  draws := 0

/-- The machine right after reset, with the parameters of `Config.params` (log 1). -/
def State.reset : State := State.resetFor Config.params

end Sys2Proof.Machine
end

