-- ==== Sys2Proof/Machine/Flags.lean ====
section
/-!
DEFINITION. STATUS: the word RDSTAT reads and the sticky bits `raise` sets (10_state.md R35, R36). The
block has no condition codes (R42).
-/

namespace Sys2Proof.Machine

/-- The five error causes (60_exceptions.md R310 to R314). -/
inductive Err where
  | E_ILL
  | E_NOTCFG
  | E_SEL
  | E_PRECOND
  | E_RANGE
deriving DecidableEq, Repr

/-- The STATUS bit, and code, of an error (R310 to R314). -/
def Err.bit : Err → Nat
  | .E_ILL => 1
  | .E_NOTCFG => 2
  | .E_SEL => 3
  | .E_PRECOND => 4
  | .E_RANGE => 5

/-- Is the sticky bit set? -/
def Status.has (st : Status) : Err → Bool
  | .E_ILL => st.E_ILL
  | .E_NOTCFG => st.E_NOTCFG
  | .E_SEL => st.E_SEL
  | .E_PRECOND => st.E_PRECOND
  | .E_RANGE => st.E_RANGE

/-- STATUS with one sticky bit set (R36). -/
def Status.set (st : Status) : Err → Status
  | .E_ILL => { st with E_ILL := true }
  | .E_NOTCFG => { st with E_NOTCFG := true }
  | .E_SEL => { st with E_SEL := true }
  | .E_PRECOND => { st with E_PRECOND := true }
  | .E_RANGE => { st with E_RANGE := true }

/-- One flag as a bit of the word. -/
def bitAt (b : Bool) (n : Nat) : Nat := if b then 2 ^ n else 0

/-- The 32 bits of STATUS (R35): CFGD in bit 0, the sticky bits in bits 5:1, bits 31:6 read 0. -/
def Status.word (st : Status) : Word :=
  BitVec.ofNat 32 (bitAt st.CFGD 0 + bitAt st.E_ILL Err.E_ILL.bit + bitAt st.E_NOTCFG Err.E_NOTCFG.bit +
    bitAt st.E_SEL Err.E_SEL.bit + bitAt st.E_PRECOND Err.E_PRECOND.bit +
    bitAt st.E_RANGE Err.E_RANGE.bit)

end Sys2Proof.Machine
end

