-- ==== Sys2Proof/Machine/Float.lean ====
section
/-!
DEFINITION. Arithmetic on NUM (00_scope.md R10, R11, R12, R15): IEEE 754 binary32 with rounding to
nearest, ties to even. A finite value is an integer number of units of 2^-149 (the smallest
subnormal), so every operation computes exactly on integers and rounds once at the end.
-/

namespace Sys2Proof.Machine

/-- Sign bit 31. -/
def NUM.neg (x : NUM) : Bool := decide (2 ^ 31 ≤ x.toNat)

/-- Exponent bits 30:23. -/
def NUM.expField (x : NUM) : Nat := x.toNat / 2 ^ 23 % 256

/-- Fraction bits 22:0. -/
def NUM.fracField (x : NUM) : Nat := x.toNat % 2 ^ 23

/-- Everything but the sign. -/
def NUM.magBits (x : NUM) : Nat := x.toNat % 2 ^ 31

def NUM.isFinite (x : NUM) : Bool := NUM.expField x != 255

def NUM.isInf (x : NUM) : Bool := NUM.expField x == 255 && NUM.fracField x == 0

def NUM.isNaN (x : NUM) : Bool := NUM.expField x == 255 && NUM.fracField x != 0

def NUM.isZero (x : NUM) : Bool := NUM.magBits x == 0

/-- The magnitude of a finite NUM in units of 2^-149: a subnormal is its fraction, a normal its
24-bit significand shifted by its exponent. -/
def NUM.mag (x : NUM) : Nat :=
  if NUM.expField x = 0 then NUM.fracField x
  else (2 ^ 23 + NUM.fracField x) * 2 ^ (NUM.expField x - 1)

/-- real(x) × 2^149 of a finite NUM (R11). -/
def NUM.units (x : NUM) : Int := if NUM.neg x then -(NUM.mag x : Int) else (NUM.mag x : Int)

/-- 2^149, the number of units in 1. -/
def NUM.one149 : Nat := 2 ^ 149

/-- A NUM from a sign and the other 31 bits. -/
def NUM.pack (neg : Bool) (bits : Nat) : NUM := BitVec.ofNat 32 ((if neg then 2 ^ 31 else 0) + bits)

/-- Round-to-nearest-even division (R11). -/
def divNearestEven (num den : Nat) : Nat :=
  let q := num / den
  let r := num % den
  if den < 2 * r ∨ (2 * r = den ∧ q % 2 = 1) then q + 1 else q

/-- The 31 magnitude bits of the binary32 value nearest to num/den units, ties to even; infinity when
that overflows. With the quotient's leading bit at position 23 + sh the spacing of binary32 there is
2^sh units, and `sh * 2^23 + significand` is the packed exponent and fraction, a carry out of the
significand included. -/
def NUM.roundBits (num den : Nat) : Nat :=
  let sh := Nat.log2 (num / den) - 23
  min (sh * 2 ^ 23 + divNearestEven num (den * 2 ^ sh)) 0x7F800000

/-- The NUM nearest to ± num/den units. -/
def NUM.round (neg : Bool) (num den : Nat) : NUM := NUM.pack neg (NUM.roundBits num den)

/-- The NaN an operation gives on these operands: some NaN (R11, I2; log 5). -/
def NUM.nan (op : FpOp) (a b : NUM) : NUM :=
  NUM.pack (Config.nanBits op a b).1 (0x7F800001 + (Config.nanBits op a b).2.val)

/-- The sum of two NUMs, once neither is a NaN; `op` names the operation for a NaN result. An exact
zero sum is −0.0 only when both terms are negative. -/
def NUM.addCore (op : FpOp) (a b c : NUM) : NUM :=
  if NUM.isInf a then
    if NUM.isInf b ∧ NUM.neg a ≠ NUM.neg b then NUM.nan op a c else a
  else if NUM.isInf b then b
  else
    let z := NUM.units a + NUM.units b
    if z = 0 then NUM.pack (NUM.neg a && NUM.neg b) 0
    else NUM.round (decide (z < 0)) z.natAbs 1

/-- The NUM with the sign bit inverted. -/
def NUM.flipSign (x : NUM) : NUM := NUM.pack (!NUM.neg x) (NUM.magBits x)

/-- `a + b` (R11). -/
def NUM.add (a b : NUM) : NUM :=
  if NUM.isNaN a || NUM.isNaN b then NUM.nan .add a b else NUM.addCore .add a b b

/-- `a − b` (R11). -/
def NUM.sub (a b : NUM) : NUM :=
  if NUM.isNaN a || NUM.isNaN b then NUM.nan .sub a b else NUM.addCore .sub a (NUM.flipSign b) b

/-- `a × b` (R11): 0 × ∞ is a NaN. -/
def NUM.mul (a b : NUM) : NUM :=
  let s := NUM.neg a != NUM.neg b
  if NUM.isNaN a || NUM.isNaN b then NUM.nan .mul a b
  else if NUM.isInf a || NUM.isInf b then
    if NUM.isZero a || NUM.isZero b then NUM.nan .mul a b else NUM.pack s 0x7F800000
  else NUM.round s (NUM.mag a * NUM.mag b) NUM.one149

/-- `a / b` (R11): 0/0 and ∞/∞ are NaNs, a nonzero number over zero is an infinity. -/
def NUM.div (a b : NUM) : NUM :=
  let s := NUM.neg a != NUM.neg b
  if NUM.isNaN a || NUM.isNaN b then NUM.nan .div a b
  else if NUM.isInf a then
    if NUM.isInf b then NUM.nan .div a b else NUM.pack s 0x7F800000
  else if NUM.isInf b then NUM.pack s 0
  else if NUM.isZero b then
    if NUM.isZero a then NUM.nan .div a b else NUM.pack s 0x7F800000
  else NUM.round s (NUM.mag a * NUM.one149) (NUM.mag b)

/-- The place of a NUM that is no NaN in the order of the numbers, both zeros at 0. -/
def NUM.key (x : NUM) : Int := if NUM.neg x then -(NUM.magBits x : Int) else (NUM.magBits x : Int)

/-- `a < b`: false when either is a NaN (R11). -/
def NUM.lt (a b : NUM) : Bool :=
  !NUM.isNaN a && !NUM.isNaN b && decide (NUM.key a < NUM.key b)

/-- `a ≤ b`: false when either is a NaN (R11). -/
def NUM.le (a b : NUM) : Bool :=
  !NUM.isNaN a && !NUM.isNaN b && decide (NUM.key a ≤ NUM.key b)

/-- `a = b`: false when either is a NaN, and −0.0 = +0.0 (R11). -/
def NUM.eq (a b : NUM) : Bool :=
  !NUM.isNaN a && !NUM.isNaN b && decide (NUM.key a = NUM.key b)

/-- `toNUM(n)`: the integer n rounded to NUM (R11). -/
def toNUM (n : Int) : NUM := NUM.round (decide (n < 0)) (n.natAbs * NUM.one149) 1

/-- `floor(x)` of a finite x (R12). -/
def NUM.floor (x : NUM) : Int := NUM.units x / (NUM.one149 : Int)

/-- The literals of the pseudocode, each exactly representable (R11). -/
def NUM.zero : NUM := 0x00000000#32
def NUM.quarter : NUM := 0x3E800000#32
def NUM.half : NUM := 0x3F000000#32
def NUM.one : NUM := 0x3F800000#32
def NUM.two : NUM := 0x40000000#32
def NUM.three : NUM := 0x40400000#32
def NUM.four : NUM := 0x40800000#32
def NUM.five : NUM := 0x40A00000#32
def NUM.thousand : NUM := 0x447A0000#32

/-- What wrap gives where R12 states nothing, for an x that is not finite: some value of [0.0, 1.0),
the last of the `Fin` standing for −0.0 (log 8). -/
def wrapNonFinite (x : NUM) : NUM :=
  if (Config.wrapNonFinite x).val = 0x3F800000 then 0x80000000#32
  else BitVec.ofNat 32 (Config.wrapNonFinite x).val

/-- `wrap(x)` (R12), for a finite x; free in [0.0, 1.0) otherwise (log 8). -/
def wrap (x : NUM) : NUM :=
  if NUM.isFinite x then
    let p := NUM.sub x (toNUM (NUM.floor x))
    if NUM.eq p NUM.one then NUM.zero else p
  else wrapNonFinite x

/-- SIN with the values the parameter set names (R6: SIN is an argument of the model); every other
argument goes to the opaque `Config.SIN`. -/
def sinOf (table : List (NUM × NUM)) (x : NUM) : NUM :=
  match table with
  | [] => Config.SIN x
  | (a, v) :: rest => if a = x then v else sinOf rest x

/-- `wave(p) = SIN(TWO_PI × p)` (R15). -/
def wave (p : Params) (phase : NUM) : NUM := sinOf p.sinTable (NUM.mul Config.TWO_PI phase)

/-- The NUM of a finite number given by its fields. -/
def finiteNum (f : FiniteNum) : NUM := NUM.pack f.neg (f.exponent.val * 2 ^ 23 + f.fraction.toNat)

end Sys2Proof.Machine
end

