-- ==== Sys2Proof/Machine/Operands.lean ====
section
/-!
DEFINITION. Operands (30_encoding.md R104, R105, R106): a u32 operand is the register's 32 bits as an
unsigned integer, a NUM operand its 32 bits as they stand. Parameter ids.
-/

namespace Sys2Proof.Machine

/-- OPA as a u32 (R105): channelCount of CFG, frameCount of RENDER. -/
def State.opaU32 (s : State) : Nat := s.OPA.toNat

/-- OPB as a u32 (R105): eventCount of RENDER. -/
def State.opbU32 (s : State) : Nat := s.OPB.toNat

/-- OPC as a u32 (R105): maxFramesPerRender of CFG. -/
def State.opcU32 (s : State) : Nat := s.OPC.toNat

/-- OPC as the odd90 operand of TAPS: 0 is false, anything else true (R104). -/
def State.opcFlag (s : State) : Bool := s.OPC != 0#32

/-- OPA as a NUM (R105): a value, sample, offset, frequency, target or delay. -/
def State.opaNum (s : State) : NUM := s.OPA

/-- OPB as a NUM (R105): sampleRate of CFG, depth of TAPS. -/
def State.opbNum (s : State) : NUM := s.OPB

/-- OPB as a ramp length: the u32 word a ramp record keeps (R104, R105). -/
def State.opbRamp (s : State) : Word := s.OPB

/-- OPD as a NUM (R105): maxDelayMilliseconds of CFG. -/
def State.opdNum (s : State) : NUM := s.OPD

/-- The known parameter ids 0 to 5; every other number is an unknown id (R106). -/
def ParamId.ofNat? (n : Nat) : Option ParamId :=
  match n with
  | 0 => some .RATE
  | 1 => some .DEPTH
  | 2 => some .DELAY
  | 3 => some .DRY
  | 4 => some .WET
  | 5 => some .ODD90
  | _ => none

/-- The number of a parameter id (R106). -/
def ParamId.toNat : ParamId → Nat
  | .RATE => 0
  | .DEPTH => 1
  | .DELAY => 2
  | .DRY => 3
  | .WET => 4
  | .ODD90 => 5

end Sys2Proof.Machine
end

