-- ==== Sys2Proof/Machine/Ops.lean ====
section
/-!
DEFINITION. The named operations over registers and memories: memory words, the parameter file, STATUS
and `raise` (the block's only exception mechanism: it has no trap entry and no return, 60_exceptions.md
R318, R319), draws and havoc (00_scope.md R13).
-/

namespace Sys2Proof.Machine

/-! ## Memories -/

/-- `MemRead(space, index)` (00_scope.md R13): an unlisted word reads as zero (log 3). -/
def Memory.read : Memory → Nat → Word
  | [], _ => 0#32
  | (j, w) :: m, i => if j = i then w else Memory.read m i

/-- List the word `v` at `i`, keeping the indices rising. -/
def Memory.insert : Memory → Nat → Word → Memory
  | [], i, v => [(i, v)]
  | (j, w) :: m, i, v =>
    if i < j then (i, v) :: (j, w) :: m
    else if j = i then (i, v) :: m
    else (j, w) :: Memory.insert m i v

/-- `MemWrite(space, index, v)` (00_scope.md R13), keeping the canonical form: writing zero unlists. -/
def Memory.write (m : Memory) (i : Nat) (v : Word) : Memory :=
  if v = 0#32 then m.filter (fun e => decide (e.1 ≠ i)) else Memory.insert m i v

/-- A memory of `n` words, each an independent draw, word i the draw number k + i (`havoc`, R13). -/
def Memory.drawn (n k : Nat) : Memory :=
  (List.range n).filterMap fun i =>
    if Config.draw (k + i) = 0#32 then none else some (i, Config.draw (k + i))

/-- The number of words of IN and of OUT (20_memory.md R70). -/
def State.sampleWords (s : State) : Nat := s.params.MAX_CHANNELS * s.params.MAX_FRAMES_HW

/-- The number of words of EVQ (20_memory.md R70). -/
def State.eventWords (s : State) : Nat := 4 * s.params.MAX_EVENTS

/-- The number of words of TAPE and of TAPO (20_memory.md R70). -/
def tapWords : Nat := 50

/-- The word of sample f of channel c in IN and in OUT (20_memory.md R71). -/
def State.sampleIndex (s : State) (c f : Nat) : Nat := c * s.params.MAX_FRAMES_HW + f

/-- `IN[c][f]`. -/
def State.inSample (s : State) (c f : Nat) : NUM := s.IN.read (s.sampleIndex c f)

/-- `OUT[c][f]`. -/
def State.outSample (s : State) (c f : Nat) : NUM := s.OUT.read (s.sampleIndex c f)

/-- `OUT[c][f] <- v`. -/
def State.writeOut (s : State) (c f : Nat) (v : NUM) : State :=
  { s with OUT := s.OUT.write (s.sampleIndex c f) v }

/-! ## Delay lines and oscillators, by number -/

/-- The delay line of channel c. -/
def State.line (s : State) (c : Nat) : Line := s.lines.getD c default

/-- `WC[c]`. -/
def State.cursor (s : State) (c : Nat) : Nat := (s.line c).WC

/-- `DL[c][j]`. -/
def State.lineWord (s : State) (c j : Nat) : NUM := (s.line c).cells.read j

/-- `L[i]`. -/
def State.osc (s : State) (i : Nat) : Osc := s.L.getD i default

/-! ## Registers -/

/-- `RES <- v`. -/
def State.setRES (s : State) (v : Word) : State := { s with RES := v }

/-- `raise E_X` (00_scope.md R13, 10_state.md R36): set the sticky bit, and nothing else. Taking an
error is this one operation: no control flow changes, nothing is saved (60_exceptions.md R318). -/
def State.raise (s : State) (e : Err) : State := { s with STATUS := s.STATUS.set e }

/-- `CFGD <- b` (10_state.md R37). -/
def State.setCFGD (s : State) (b : Bool) : State := { s with STATUS := { s.STATUS with CFGD := b } }

/-- An illegal command word raises E_ILL, whichever reason makes it illegal (30_encoding.md R107). -/
def State.rejectWord (s : State) (_why : Illegal) : State := s.raise .E_ILL

/-! ## The parameter file -/

/-- `P[p]`. -/
def ParamFile.get (P : ParamFile) : ParamId → Ramp
  | .RATE => P.RATE
  | .DEPTH => P.DEPTH
  | .DELAY => P.DELAY
  | .DRY => P.DRY
  | .WET => P.WET
  | .ODD90 => P.ODD90

/-- `P[p] <- r`. -/
def ParamFile.set (P : ParamFile) (p : ParamId) (r : Ramp) : ParamFile :=
  match p with
  | .RATE => { P with RATE := r }
  | .DEPTH => { P with DEPTH := r }
  | .DELAY => { P with DELAY := r }
  | .DRY => { P with DRY := r }
  | .WET => { P with WET := r }
  | .ODD90 => { P with ODD90 := r }

/-- `P[p] <- r` in the state. -/
def State.setParam (s : State) (p : ParamId) (r : Ramp) : State := { s with P := s.P.set p r }

/-! ## The checks a command makes first (60_exceptions.md R317) -/

/-- `if CFGD = 0: raise E_NOTCFG; return` before `body` (R311). -/
def State.ifConfigured (s : State) (body : State) : State :=
  if s.STATUS.CFGD then body else s.raise .E_NOTCFG

/-- `if sel names no component: raise E_SEL; return` before `body` (R312). -/
def State.ifSelects (s : State) (ok : Bool) (body : State) : State :=
  if ok then body else s.raise .E_SEL

/-! ## Draws and havoc (00_scope.md R13) -/

/-- The next `draw()`. -/
def State.nextDraw (s : State) : Word := Config.draw s.draws

/-- The state with `n` more draws made. -/
def State.afterDraws (s : State) (n : Nat) : State := { s with draws := s.draws + n }

/-- A ramp record of four draws, from draw number k on. -/
def drawnRamp (k : Nat) : Ramp where
  value := Config.draw k
  target := Config.draw (k + 1)
  step := Config.draw (k + 2)
  remaining := Config.draw (k + 3)

/-- `havoc(OUT)`. -/
def State.havocOUT (s : State) : State :=
  { s with OUT := Memory.drawn s.sampleWords s.draws, draws := s.draws + s.sampleWords }

/-- `havoc(P)`: every field of the six ramp records. -/
def State.havocP (s : State) : State :=
  { s with
    P := { RATE := drawnRamp s.draws, DEPTH := drawnRamp (s.draws + 4), DELAY := drawnRamp (s.draws + 8),
           DRY := drawnRamp (s.draws + 12), WET := drawnRamp (s.draws + 16),
           ODD90 := drawnRamp (s.draws + 20) }
    draws := s.draws + 24 }

/-- `havoc(L)`: every phase and every field of every increment ramp. -/
def State.havocL (s : State) : State :=
  { s with
    L := (List.range s.params.T).map fun i =>
      { phase := Config.draw (s.draws + 5 * i), inc := drawnRamp (s.draws + 5 * i + 1) }
    draws := s.draws + 5 * s.params.T }

/-- `havoc(DL ∪ WC)`: every delay sample and every write cursor, each cursor to some value in 0..N−1
(44_engine.md R271). -/
def State.havocLines (s : State) : State :=
  { s with
    lines := (List.range s.fmt.C).map fun c =>
      { WC := (Config.draw (s.draws + (s.fmt.N + 1) * c)).toNat % s.fmt.N
        cells := Memory.drawn s.fmt.N (s.draws + (s.fmt.N + 1) * c + 1) }
    draws := s.draws + (s.fmt.N + 1) * s.fmt.C }

end Sys2Proof.Machine
end

