-- ==== Sys2Proof/Machine/DelayLine.lean ====
section
/-!
DEFINITION. The delay line (40_delay_line.md): capacity, slots, dlWrite, dlRead, the cubic, and the
test-port commands DLWR and DLRD.
-/

namespace Sys2Proof.Machine

/-- `ceil(real(2 × md × fs / 1000)) + 1` in exact arithmetic (R140), for md and fs finite and positive. -/
def capacity (md fs : NUM) : Nat :=
  let num := 2 * NUM.mag md * NUM.mag fs
  let den := 1000 * (NUM.one149 * NUM.one149)
  (num + (den - 1)) / den + 1

/-- READ_BIAS as a number (00_scope.md R6). -/
def readBias (p : Params) : Nat := if p.READ_BIAS then 1 else 0

/-- `slot(c, k) = (WC[c] − READ_BIAS − k) mod N` (R141), for any integer k. -/
def slot (p : Params) (N WC : Nat) (k : Int) : Nat :=
  (((WC : Int) - (readBias p : Int) - k) % (N : Int)).toNat

/-- One write into a line of N words (R142). -/
def Line.write (l : Line) (N : Nat) (x : NUM) : Line :=
  { WC := (l.WC + 1) % N, cells := l.cells.write l.WC x }

/-- `dlWrite(c, x)` (R142): x is stored bit for bit and the cursor moves on. -/
def dlWrite (c : Nat) (x : NUM) (s : State) : State :=
  { s with lines := s.lines.modify c (fun l => l.write s.fmt.N x) }

/-- The Catmull-Rom cubic in the binary32 order R144 gives. -/
def crInOrder (t a b c d : NUM) : NUM :=
  let c1 := NUM.sub c a
  let c2 := NUM.sub (NUM.add (NUM.sub (NUM.mul NUM.two a) (NUM.mul NUM.five b)) (NUM.mul NUM.four c)) d
  let c3 := NUM.add (NUM.mul NUM.three (NUM.sub b c)) (NUM.sub d a)
  NUM.add b (NUM.mul (NUM.mul NUM.half t) (NUM.add c1 (NUM.mul t (NUM.add c2 (NUM.mul t c3)))))

/-- `cr(t, a, b, c, d)` (R144), with R147 (1): at t = 0 and finite points the product `0.0 × (...)` counts as
+0.0, so the result is b, and +0.0 for b = −0.0 (93_implementation_defined.md I19). R144's order alone gives
−0.0 for some b = −0.0 and a NaN where a sum overflows; there the model follows R147 and I19 (DESIGN CHOICE,
log 15). -/
def cr (t a b c d : NUM) : NUM :=
  if NUM.isZero t && NUM.isFinite a && NUM.isFinite b && NUM.isFinite c && NUM.isFinite d then
    NUM.add b NUM.zero
  else crInOrder t a b c d

/-- `x is finite and 0.0 <= x and real(x) <= N − 1` (R143). −0.0 is in range. -/
def offsetInRange (N : Nat) (x : NUM) : Bool :=
  NUM.isFinite x && NUM.le NUM.zero x && decide (NUM.units x ≤ ((N : Int) - 1) * (NUM.one149 : Int))

/-- The sample `off` slots away from offset k of a line, `DL[c][slot(c, k + off)]` (R143). -/
def lineTap (p : Params) (N : Nat) (l : Line) (k : Int) : NUM := l.cells.read (slot p N l.WC k)

/-- The interpolated read of an offset that is in range (R143). -/
def lineRead (p : Params) (N : Nat) (l : Line) (x : NUM) : NUM :=
  let k := NUM.floor x
  let t := NUM.sub x (toNUM k)
  cr t (lineTap p N l (k - 1)) (lineTap p N l k) (lineTap p N l (k + 1)) (lineTap p N l (k + 2))

/-- `dlRead(c, x)` (R143): the value, and the state, in which only E_RANGE (and the count of draws) can
have changed. -/
def dlRead (c : Nat) (x : NUM) (s : State) : NUM × State :=
  if offsetInRange s.fmt.N x then (lineRead s.params s.fmt.N (s.line c) x, s)
  else (s.nextDraw, (s.raise .E_RANGE).afterDraws 1)

/-- DLWR (R145). -/
def execDlwr (channel : Nat) (s : State) : Host.Outcome State Fault Refusal :=
  .next <| s.ifConfigured <| s.ifSelects (decide (channel < s.fmt.C)) <| dlWrite channel s.opaNum s

/-- DLRD (R146). -/
def execDlrd (channel : Nat) (s : State) : Host.Outcome State Fault Refusal :=
  .next <| s.ifConfigured <| s.ifSelects (decide (channel < s.fmt.C)) <|
    (dlRead channel s.opaNum s).2.setRES (dlRead channel s.opaNum s).1

end Sys2Proof.Machine
end

