-- ==== Sys2Proof/Machine/Ramp.lean ====
section
/-!
DEFINITION. The ramped parameter (42_ramped_parameter.md): rpSet, rpFrame, rpGet, and the test-port
commands RPSET, RPFRM, RPGET.
-/

namespace Sys2Proof.Machine

/-- `rpSet(R, t, n)` (R200): at once when n = 0, else a linear ramp from the current value (R202). -/
def rpSet (R : Ramp) (t : NUM) (n : Word) : Ramp :=
  if n = 0#32 then { value := t, target := t, step := NUM.zero, remaining := 0#32 }
  else { R with target := t, step := NUM.div (NUM.sub t R.value) (toNUM n.toNat), remaining := n }

/-- `rpFrame(R)` (R201): the record after one ramp step; its value is what rpFrame returns. -/
def rpFrame (R : Ramp) : Ramp :=
  if R.remaining = 0#32 then R
  else if R.remaining = 1#32 then { R with remaining := 0#32, value := R.target }
  else { R with remaining := R.remaining - 1#32, value := NUM.add R.value R.step }

/-- `rpGet(R)` (R203). -/
def rpGet (R : Ramp) : NUM := R.value

/-- RPSET (R210). -/
def execRpset (id : Nat) (s : State) : Host.Outcome State Fault Refusal :=
  .next <| match ParamId.ofNat? id with
    | none => s.raise .E_SEL
    | some p => s.setParam p (rpSet (s.P.get p) s.opaNum s.opbRamp)

/-- RPFRM (R211). -/
def execRpfrm (id : Nat) (s : State) : Host.Outcome State Fault Refusal :=
  .next <| match ParamId.ofNat? id with
    | none => s.raise .E_SEL
    | some p => (s.setParam p (rpFrame (s.P.get p))).setRES (rpFrame (s.P.get p)).value

/-- RPGET (R212). -/
def execRpget (id : Nat) (s : State) : Host.Outcome State Fault Refusal :=
  .next <| match ParamId.ofNat? id with
    | none => s.raise .E_SEL
    | some p => s.setRES (rpGet (s.P.get p))

end Sys2Proof.Machine
end

