-- ==== Sys2Proof/Machine/Oscillator.lean ====
section
/-!
DEFINITION. The oscillator bank (41_oscillator.md): buildBank, lfoValue, lfoQuad, lfoSetFrequency,
lfoIncrement, and the test-port commands LFOSF, LFOV, LFOQ, LFOINC.
-/

namespace Sys2Proof.Machine

/-- FLANGE_RATE_MULT(i) (00_scope.md R6). -/
def rateMult (p : Params) (i : Nat) : NUM := finiteNum (p.FLANGE_RATE_MULT.toList.getD i default)

/-- `rate(i, r)` (R171). -/
def rate (p : Params) (i : Nat) (r : NUM) : NUM :=
  match p.VARIANT with
  | .FLANGE => NUM.mul (rateMult p i) r
  | .CHORUS => r

/-- `phase0(i)` (R171). -/
def phase0 (p : Params) (i : Nat) : NUM :=
  match p.VARIANT with
  | .FLANGE => NUM.zero
  | .CHORUS => NUM.div (toNUM i) (toNUM p.T)

/-- Oscillator i of a new bank of base rate r at sample rate FS (R170). -/
def newOsc (p : Params) (FS r : NUM) (i : Nat) : Osc :=
  { phase := phase0 p i
    inc := { value := NUM.div (rate p i r) FS, target := NUM.div (rate p i r) FS, step := NUM.zero,
             remaining := 0#32 } }

/-- `buildBank(r)` (R170). -/
def buildBank (r : NUM) (s : State) : State :=
  { s with L := (List.range s.params.T).map (newOsc s.params s.fmt.FS r) }

/-- Do `f i` to `L[i]` for i in 0..T−1. -/
def mapBank (f : Nat → Osc → Osc) (s : State) : State :=
  { s with L := (List.range s.params.T).map fun i => f i (s.osc i) }

/-- `lfoValue(i)` of an oscillator (R172). -/
def Osc.wave (p : Params) (o : Osc) : NUM := Machine.wave p o.phase

/-- `lfoQuad(i)` of an oscillator (R173). -/
def Osc.quad (p : Params) (o : Osc) : NUM := Machine.wave p (wrap (NUM.add o.phase NUM.quarter))

/-- `lfoSetFrequency(i, hz, n)` of an oscillator (R174): the phase stays. -/
def Osc.setFrequency (FS hz : NUM) (n : Word) (o : Osc) : Osc :=
  { o with inc := rpSet o.inc (NUM.div hz FS) n }

/-- `lfoIncrement(i)` of an oscillator (R175): the increment ramp steps first. -/
def Osc.increment (o : Osc) : Osc :=
  { phase := wrap (NUM.add o.phase (rpFrame o.inc).value), inc := rpFrame o.inc }

/-- `L[i] <- f(L[i])`. -/
def State.modifyOsc (s : State) (i : Nat) (f : Osc → Osc) : State := { s with L := s.L.modify i f }

/-- `for i in 0..T−1: lfoIncrement(i)` (43_tap_compute.md R233). -/
def advanceBank (s : State) : State := mapBank (fun _ o => o.increment) s

/-- LFOSF (R180). -/
def execLfosf (osc : Nat) (s : State) : Host.Outcome State Fault Refusal :=
  .next <| s.ifConfigured <| s.ifSelects (decide (osc < s.params.T)) <|
    s.modifyOsc osc (Osc.setFrequency s.fmt.FS s.opaNum s.opbRamp)

/-- LFOV (R181). -/
def execLfov (osc : Nat) (s : State) : Host.Outcome State Fault Refusal :=
  .next <| s.ifConfigured <| s.ifSelects (decide (osc < s.params.T)) <|
    s.setRES ((s.osc osc).wave s.params)

/-- LFOQ (R182). -/
def execLfoq (osc : Nat) (s : State) : Host.Outcome State Fault Refusal :=
  .next <| s.ifConfigured <| s.ifSelects (decide (osc < s.params.T)) <|
    s.setRES ((s.osc osc).quad s.params)

/-- LFOINC (R183). -/
def execLfoinc (osc : Nat) (s : State) : Host.Outcome State Fault Refusal :=
  .next <| s.ifConfigured <| s.ifSelects (decide (osc < s.params.T)) <| s.modifyOsc osc Osc.increment

end Sys2Proof.Machine
end

