-- ==== Sys2Proof/Machine/Taps.lean ====
section
/-!
DEFINITION. The tap set computation (43_tap_compute.md): bypass test, displacement, tap sets, the tap
mean, and the test-port command TAPS.
-/

namespace Sys2Proof.Machine

/-- `tapBypass(dlyMs, dep)` (R231). -/
def tapBypass (p : Params) (dlyMs dep : NUM) : Bool :=
  match p.VARIANT with
  | .FLANGE => NUM.eq dlyMs NUM.zero || NUM.eq dep NUM.zero
  | .CHORUS => false

/-- `ds = dlyMs × SPM` (R230). -/
def delaySamples (s : State) (dlyMs : NUM) : NUM := NUM.mul dlyMs s.fmt.SPM

/-- `displacement(dlyMs, dep)` (R232). -/
def displacement (s : State) (dlyMs dep : NUM) : NUM :=
  match s.params.VARIANT with
  | .FLANGE =>
    let ds := delaySamples s dlyMs
    let D := NUM.mul ds dep
    let mn := NUM.mul Config.MIN_DELAY_MS s.fmt.SPM
    if NUM.lt (NUM.sub ds D) mn then NUM.sub ds mn else D
  | .CHORUS => NUM.mul (NUM.mul (NUM.sub s.fmt.MAXD dlyMs) dep) s.fmt.SPM

/-- `E[i]` of tapSets (R233). -/
def evenTap (s : State) (dlyMs dep : NUM) (i : Nat) : NUM :=
  NUM.add (delaySamples s dlyMs) (NUM.mul ((s.osc i).wave s.params) (displacement s dlyMs dep))

/-- `O[i]` of tapSets (R233). -/
def oddTap (s : State) (dlyMs dep : NUM) (o90 : Bool) (i : Nat) : NUM :=
  if o90 then
    NUM.add (delaySamples s dlyMs) (NUM.mul ((s.osc i).quad s.params) (displacement s dlyMs dep))
  else evenTap s dlyMs dep i

/-- `tapSets(dlyMs, dep, o90)` (R233): both sets, from one modulation instant. -/
def tapSets (s : State) (dlyMs dep : NUM) (o90 : Bool) : List NUM × List NUM :=
  ((List.range s.params.T).map (evenTap s dlyMs dep),
   (List.range s.params.T).map (oddTap s dlyMs dep o90))

/-- `frameTaps(dlyMs, dep, o90)` (R233): the sets, then the bank advanced. -/
def frameTaps (s : State) (dlyMs dep : NUM) (o90 : Bool) : (List NUM × List NUM) × State :=
  (tapSets s dlyMs dep o90, advanceBank s)

/-- `for each tap: acc <- acc + dlRead(c, tap)` (R236). -/
def sumTaps (c : Nat) (taps : List NUM) (acc : NUM) (s : State) : NUM × State :=
  match taps with
  | [] => (acc, s)
  | x :: rest => sumTaps c rest (NUM.add acc (dlRead c x s).1) (dlRead c x s).2

/-- `tapMean(c, taps)` (R236): the sum from +0.0 in increasing i, then one division by T. -/
def tapMean (c : Nat) (taps : List NUM) (s : State) : NUM × State :=
  (NUM.div (sumTaps c taps NUM.zero s).1 (toNUM s.params.T), (sumTaps c taps NUM.zero s).2)

/-- `for i: MemWrite(space, i, taps[i])` from index i on (R240). -/
def writeTaps (m : Memory) (i : Nat) (taps : List NUM) : Memory :=
  match taps with
  | [] => m
  | x :: rest => writeTaps (m.write i x) (i + 1) rest

/-- TAPS with its operands taken: the bypass answer, or both sets stored and RES 0 (R240). -/
def storeTaps (dlyMs dep : NUM) (o90 : Bool) (s : State) : State :=
  if tapBypass s.params dlyMs dep then s.setRES 1#32
  else
    let sets := tapSets s dlyMs dep o90
    { s with TAPE := writeTaps s.TAPE 0 sets.1, TAPO := writeTaps s.TAPO 0 sets.2, RES := 0#32 }

/-- TAPS (R240). -/
def execTaps (s : State) : Host.Outcome State Fault Refusal :=
  .next <| s.ifConfigured <| storeTaps s.opaNum s.opbNum s.opcFlag s

end Sys2Proof.Machine
end

