-- ==== Sys2Proof/Machine/Engine.lean ====
section
/-!
DEFINITION. The engine (44_engine.md): CFG, the parameter interface SETP and GETP, RENDER, RDSTAT.
-/

namespace Sys2Proof.Machine

/-! ## Setup (R261, R262) -/

/-- CFG operand validity (R261). -/
def cfgValid (p : Params) (ch : Nat) (fs : NUM) (mf : Nat) (md : NUM) : Bool :=
  decide (1 ≤ ch) && decide (ch ≤ p.MAX_CHANNELS) && NUM.isFinite fs && NUM.lt NUM.zero fs &&
    decide (1 ≤ mf) && decide (mf ≤ p.MAX_FRAMES_HW) && NUM.isFinite md && NUM.lt NUM.zero md &&
    decide (capacity md fs ≤ p.MAX_DL_SAMPLES)

/-- The format registers of a valid CFG (R262). -/
def newFormat (ch : Nat) (fs : NUM) (mf : Nat) (md : NUM) : Format where
  C := ch
  FS := fs
  MAXF := mf
  MAXD := md
  SPM := NUM.div fs NUM.thousand
  N := capacity md fs

/-- A valid CFG (R262): the format, every delay-line word +0.0 and cursor 0, the bank built from
P[RATE], CFGD 1. -/
def configure (ch : Nat) (fs : NUM) (mf : Nat) (md : NUM) (s : State) : State :=
  (buildBank (rpGet s.P.RATE)
    { s with fmt := newFormat ch fs mf md, lines := List.replicate ch { WC := 0, cells := [] } }).setCFGD
    true

/-- An invalid CFG (R262): E_PRECOND, CFGD 0, the delay lines and the bank cease to exist. -/
def deconfigure (s : State) : State :=
  { (s.raise .E_PRECOND).setCFGD false with L := [], lines := [] }

/-- CFG (R262). -/
def execCfg (s : State) : Host.Outcome State Fault Refusal :=
  .next <|
    if cfgValid s.params s.opaU32 s.opbNum s.opcU32 s.opdNum then
      configure s.opaU32 s.opbNum s.opcU32 s.opdNum s
    else deconfigure s

/-! ## Parameter interface (R263 to R267) -/

/-- The bank's part of a RATE update (R263): retuned with the ramp, or rebuilt. -/
def retuneBank (v : NUM) (n : Word) (s : State) : State :=
  match s.params.RATE_UPDATE_POLICY with
  | .RETUNE => mapBank (fun i o => o.setFrequency s.fmt.FS (rate s.params i v) n) s
  | .RECREATE => buildBank v s

/-- `applyParam(p, v, n)` of a known id (R263): the ramp of RATE is carried by the oscillators, the
ramp of ODD90 is ignored. -/
def applyKnown (p : ParamId) (v : NUM) (n : Word) (s : State) : State :=
  match p with
  | .RATE =>
    let s1 := s.setParam .RATE (rpSet s.P.RATE v 0#32)
    if s.STATUS.CFGD then retuneBank v n s1 else s1
  | .ODD90 => s.setParam .ODD90 (rpSet s.P.ODD90 v 0#32)
  | .DEPTH => s.setParam .DEPTH (rpSet s.P.DEPTH v n)
  | .DELAY => s.setParam .DELAY (rpSet s.P.DELAY v n)
  | .DRY => s.setParam .DRY (rpSet s.P.DRY v n)
  | .WET => s.setParam .WET (rpSet s.P.WET v n)

/-- `applyParam(p, v, n)` (R263): an unknown id is ignored. -/
def applyParam (p : Nat) (v : NUM) (n : Word) (s : State) : State :=
  match ParamId.ofNat? p with
  | none => s
  | some id => applyKnown id v n s

/-- SETP (R264). -/
def execSetp (id : Nat) (s : State) : Host.Outcome State Fault Refusal :=
  .next <| applyParam id s.opaNum s.opbRamp s

/-- GETP (R266): the current value, or the sentinel for an unknown id. -/
def execGetp (id : Nat) (s : State) : Host.Outcome State Fault Refusal :=
  .next <| match ParamId.ofNat? id with
    | none => s.setRES Config.UNKNOWN_PARAM_SENTINEL
    | some p => s.setRES (rpGet (s.P.get p))

/-! ## Events (20_memory.md R73, 44_engine.md R267) -/

/-- OFS of event k. -/
def eventOFS (s : State) (k : Nat) : Nat := (s.EVQ.read (4 * k)).toNat

/-- PID of event k. -/
def eventPID (s : State) (k : Nat) : Nat := (s.EVQ.read (4 * k + 1)).toNat

/-- VAL of event k. -/
def eventVAL (s : State) (k : Nat) : NUM := s.EVQ.read (4 * k + 2)

/-- RMP of event k. -/
def eventRMP (s : State) (k : Nat) : Word := s.EVQ.read (4 * k + 3)

/-- `applyEvent(k)` (R267). -/
def applyEvent (k : Nat) (s : State) : State := applyParam (eventPID s k) (eventVAL s k) (eventRMP s k) s

/-- Apply the events numbered in the list, in list order. -/
def applyEvents (es : List Nat) (s : State) : State := es.foldl (fun t k => applyEvent k t) s

/-! ## One frame (R273 to R276) -/

/-- The five rpFrame reads of a frame (R273): P[RATE] is not among them. -/
def ParamFile.frame (P : ParamFile) : ParamFile :=
  { P with DEPTH := rpFrame P.DEPTH, DELAY := rpFrame P.DELAY, DRY := rpFrame P.DRY,
           WET := rpFrame P.WET, ODD90 := rpFrame P.ODD90 }

/-- The odd90 flag of a frame's parameters (R274). -/
def ParamFile.odd90 (P : ParamFile) : Bool := NUM.le Config.ODD90_THRESHOLD P.ODD90.value

/-- `for c in 0..C−1: OUT[c][f] <- IN[c][f]`, for the channels of the list (R275). -/
def copyChannels (f : Nat) (cs : List Nat) (s : State) : State :=
  cs.foldl (fun t c => t.writeOut c f (t.inSample c f)) s

/-- `bypassFrame(f)` (R275). -/
def bypassFrame (f : Nat) (s : State) : State :=
  let s1 := copyChannels f (List.range s.fmt.C) s
  if s.params.BYPASS_ADVANCES_LFO then advanceBank s1 else s1

/-- `channelStep(c, f, E, O, wet, dry)` (R276): the taps are read before the channel's sample is
written; odd channels read the odd set (00_scope.md R17). -/
def channelStep (f : Nat) (E O : List NUM) (wet dry : NUM) (s : State) (c : Nat) : State :=
  let x := s.inSample c f
  let w := tapMean c (if c % 2 = 1 then O else E) s
  (dlWrite c x w.2).writeOut c f (NUM.add (NUM.mul wet w.1) (NUM.mul dry x))

/-- The channels of a frame that is not bypassed (R273). -/
def mixFrame (f : Nat) (s : State) : State :=
  let taps := frameTaps s s.P.DELAY.value s.P.DEPTH.value s.P.odd90
  (List.range s.fmt.C).foldl (channelStep f taps.1.1 taps.1.2 s.P.WET.value s.P.DRY.value) taps.2

/-- `renderFrame(f)` (R273). -/
def renderFrame (f : Nat) (s : State) : State :=
  let s1 := { s with P := s.P.frame }
  if tapBypass s1.params s1.P.DELAY.value s1.P.DEPTH.value then bypassFrame f s1 else mixFrame f s1

/-! ## RENDER (R270 to R272) -/

/-- `EVQ[4(k−1)] ≤ EVQ[4k]` for every 1 ≤ k < K (R270). -/
def eventsSorted (s : State) (K : Nat) : Bool :=
  (List.range (K - 1)).all fun k => decide (eventOFS s k ≤ eventOFS s (k + 1))

/-- RENDER's preconditions beyond CFGD = 1 (R270). -/
def renderInContract (s : State) (F K : Nat) : Bool :=
  decide (F ≤ s.fmt.MAXF) && decide (K ≤ s.params.MAX_EVENTS) && eventsSorted s K

/-- `while e < K and EVQ[4e] <= f: applyEvent(e)` (R272): what is left of the events to come, and the
state. -/
def applyDue (f : Nat) (es : List Nat) (s : State) : List Nat × State :=
  match es with
  | [] => ([], s)
  | e :: rest => if eventOFS s e ≤ f then applyDue f rest (applyEvent e s) else (e :: rest, s)

/-- `for f in f .. f+n−1`: the due events, then the frame (R272). -/
def renderFrames (n f : Nat) (es : List Nat) (s : State) : List Nat × State :=
  match n with
  | 0 => (es, s)
  | n + 1 =>
    renderFrames n (f + 1) (applyDue f es s).1 (renderFrame f (applyDue f es s).2)

/-- RENDER in contract (R272): F frames, then the events at offsets ≥ F. -/
def renderBody (F K : Nat) (s : State) : State :=
  let r := renderFrames F 0 (List.range K) s
  applyEvents r.1 r.2

/-- RENDER (R272), with R271 where it is out of contract. -/
def execRender (s : State) : Host.Outcome State Fault Refusal :=
  .next <|
    if s.STATUS.CFGD then
      if renderInContract s s.opaU32 s.opbU32 then renderBody s.opaU32 s.opbU32 s
      else (s.raise .E_PRECOND).havocOUT.havocP.havocL.havocLines
    else (s.raise .E_NOTCFG).havocOUT.havocP

/-! ## Status (R280) -/

/-- RDSTAT (R280). -/
def execRdstat (s : State) : Host.Outcome State Fault Refusal := .next (s.setRES s.STATUS.word)

end Sys2Proof.Machine
end

