-- ==== Sys2Proof/Machine/Dispatch.lean ====
section
/-!
DEFINITION. One arm for each command: its meaning (30_encoding.md R103).
-/

namespace Sys2Proof.Machine

def exec (i : Instr) (s : State) : Host.Outcome State Fault Refusal :=
  match i with
  | .cfg => Sys2Proof.Machine.execCfg s
  | .setp id => Sys2Proof.Machine.execSetp id s
  | .getp id => Sys2Proof.Machine.execGetp id s
  | .render => Sys2Proof.Machine.execRender s
  | .rdstat => Sys2Proof.Machine.execRdstat s
  | .dlwr channel => Sys2Proof.Machine.execDlwr channel s
  | .dlrd channel => Sys2Proof.Machine.execDlrd channel s
  | .lfosf osc => Sys2Proof.Machine.execLfosf osc s
  | .lfov osc => Sys2Proof.Machine.execLfov osc s
  | .lfoq osc => Sys2Proof.Machine.execLfoq osc s
  | .lfoinc osc => Sys2Proof.Machine.execLfoinc osc s
  | .rpset id => Sys2Proof.Machine.execRpset id s
  | .rpfrm id => Sys2Proof.Machine.execRpfrm id s
  | .rpget id => Sys2Proof.Machine.execRpget id s
  | .taps => Sys2Proof.Machine.execTaps s

end Sys2Proof.Machine
end

