-- ==== Sys2Proof/Machine/HostPort.lean ====
section
/-!
DEFINITION. What the host does between commands (20_memory.md R72, R80; 10_state.md R31 to R35) and
hardware reset (70_reset_and_hazards.md R340).
-/

namespace Sys2Proof.Machine

/-- Hardware reset of a running block (R340): every element at its reset value; IN, OUT and EVQ are not
written. The host's accesses to come and the count of draws are the model's own and stay. -/
def hardwareReset (s : State) : State :=
  { State.resetFor s.params with
    IN := s.IN, OUT := s.OUT, EVQ := s.EVQ, inputs := s.inputs, draws := s.draws }

/-- A host write of a register other than CMD: OPA to OPD take the word (R32); the host cannot write RES
(R33) or STATUS (R35). A write of CMD issues a command: that is Step.lean's. -/
def hostWriteOperand (r : HostReg) (v : Word) (s : State) : Host.Outcome State Fault Refusal :=
  match r with
  | .OPA => .next { s with OPA := v }
  | .OPB => .next { s with OPB := v }
  | .OPC => .next { s with OPC := v }
  | .OPD => .next { s with OPD := v }
  | .RES => .refused .hostHasNoAccess
  | .STATUS => .refused .hostHasNoAccess
  | .CMD => .refused .hostHasNoAccess

/-- A host write of a memory word: IN, OUT and EVQ only (20_memory.md R70, R72). -/
def hostWriteWord (space : Space) (i : Nat) (v : Word) (s : State) : Host.Outcome State Fault Refusal :=
  match space with
  | .IN => if i < s.sampleWords then .next { s with IN := s.IN.write i v } else .fault .noSuchWord
  | .OUT => if i < s.sampleWords then .next { s with OUT := s.OUT.write i v } else .fault .noSuchWord
  | .EVQ => if i < s.eventWords then .next { s with EVQ := s.EVQ.write i v } else .fault .noSuchWord
  | .TAPE => .refused .hostHasNoAccess
  | .TAPO => .refused .hostHasNoAccess
  | .DL => .refused .hostHasNoAccess

/-- What a host read of a register gives; it changes nothing (20_memory.md R77). CMD reads 0 (R31);
STATUS is read by RDSTAT alone (10_state.md R35, 60_exceptions.md R316). -/
def hostReadReg (r : HostReg) (s : State) : Option Word :=
  match r with
  | .CMD => some 0#32
  | .OPA => some s.OPA
  | .OPB => some s.OPB
  | .OPC => some s.OPC
  | .OPD => some s.OPD
  | .RES => some s.RES
  | .STATUS => none

/-- What a host read of a memory word gives: IN, OUT, EVQ, TAPE and TAPO, inside the space; the host has no
access to DL (20_memory.md R70, R72). -/
def hostReadWord (space : Space) (i : Nat) (s : State) : Option Word :=
  match space with
  | .IN => if i < s.sampleWords then some (s.IN.read i) else none
  | .OUT => if i < s.sampleWords then some (s.OUT.read i) else none
  | .EVQ => if i < s.eventWords then some (s.EVQ.read i) else none
  | .TAPE => if i < tapWords then some (s.TAPE.read i) else none
  | .TAPO => if i < tapWords then some (s.TAPO.read i) else none
  | .DL => none

end Sys2Proof.Machine
end

