-- ==== Sys2Proof/Machine/Step.lean ====
section
/-!
DEFINITION. One step of the machine: the oldest host access to come is performed, and a write of CMD
performs the command it encodes, to completion (00_scope.md R8, 10_state.md R31, 20_memory.md R80).
-/

namespace Sys2Proof.Machine

/-- A host write of CMD (10_state.md R31, 30_encoding.md R109): the command decoded and performed, or
E_ILL raised. -/
def issue (w : Word) (s : State) : Host.Outcome State Fault Refusal :=
  match decode w with
  | .ok i => exec i s
  | .error why => .next (s.rejectWord why)

/-- One host access. -/
def perform (a : HostAccess) (s : State) : Host.Outcome State Fault Refusal :=
  match a with
  | .writeReg .CMD w => issue w s
  | .writeReg r v => hostWriteOperand r v s
  | .writeWord space i v => hostWriteWord space i v s
  | .reset => .next (hardwareReset s)

/-- One step: the oldest host access to come; with none to come the block waits (R341) and nothing
changes. -/
def step (s : State) : Host.Outcome State Fault Refusal :=
  match s.inputs with
  | [] => .next s
  | a :: rest => perform a { s with inputs := rest }

/-- The state whose next step performs the command word `w` of `nbits` bits: the host's next access is
the write of that word to CMD. -/
def State.withFetchWord (s : State) (nbits w : Nat) : State :=
  { s with inputs := .writeReg .CMD (BitVec.ofNat 32 (w % 2 ^ nbits)) :: s.inputs }

end Sys2Proof.Machine
end

