-- ==== Sys2Proof/Machine/Assembler.lean ====
section
/-!
DEFINITION. The assembler statements of 30_encoding.md R110 and the pseudo-instructions of R111, as
abstract syntax, and the host accesses each assembles to.
-/

namespace Sys2Proof.Machine

/-- A NUM literal (R110): a decimal with a point, given by its digits read as one number and the count
of digits after the point, or `0f` and eight hexadecimal digits. -/
inductive NumLit where
  | decimal (neg : Bool) (digits places : Nat)
  | raw (bits : Word)
deriving DecidableEq, Repr

/-- The word of a NUM literal: a decimal goes to the nearest binary32, raw bits stay (R110). A decimal halfway
between two binary32 values goes to the even one, one at or beyond 2^128 − 2^103 in magnitude to an infinity,
and a negative one that rounds to zero to −0.0: the rounding of 00_scope.md R11, where R110 says only "nearest"
(DESIGN CHOICE, log 14). -/
def NumLit.word : NumLit → Word
  | .decimal neg digits places => NUM.round neg (digits * NUM.one149) (10 ^ places)
  | .raw bits => bits

/-- A statement of a program (R110, R111). `id` is a parameter id, by number or by the name R106
numbers. A host read moves no word into the block. -/
inductive Statement where
  | cfg (channelCount : Nat) (sampleRate : NumLit) (maxFrames : Nat) (maxDelayMs : NumLit)
  | setp (id : Nat) (value : NumLit) (rampFrames : Nat)
  | getp (id : Nat)
  | render (frameCount eventCount : Nat)
  | rdstat
  | dlwr (channel : Nat) (sample : NumLit)
  | dlrd (channel : Nat) (offset : NumLit)
  | lfosf (osc : Nat) (hz : NumLit) (rampFrames : Nat)
  | lfov (osc : Nat)
  | lfoq (osc : Nat)
  | lfoinc (osc : Nat)
  | rpset (id : Nat) (target : NumLit) (rampFrames : Nat)
  | rpfrm (id : Nat)
  | rpget (id : Nat)
  | taps (delayMs depth : NumLit) (odd90 : Nat)
  | setpi (id : Nat) (value : NumLit)
  | rendern (frameCount : Nat)
  | lfoincall
  | rpseti (id : Nat) (value : NumLit)
  | memIN (c f : Nat) (v : NumLit)
  | memEVQ (k ofs pid : Nat) (val : NumLit) (rmp : Nat)
  | read
deriving DecidableEq, Repr

/-- The register write of a command word. A selector literal above 255, of which R110 says nothing, is encoded
modulo 256; such a command has no word of its own (DESIGN CHOICE, log 14). -/
def issueOf (i : Instr) : HostAccess := .writeReg .CMD (encode i)

/-- Writes of operand registers, in the order OPA, OPB, OPC, OPD (R110). -/
def operandWrites (vs : List Word) : List HostAccess :=
  [HostReg.OPA, .OPB, .OPC, .OPD].zipWith HostAccess.writeReg vs

/-- What a statement assembles to on a block with parameters `p` (R110, R111): one write of each operand
register the command reads, then the write of the command word; four EVQ words for an event. R110 says nothing
of a u32 literal above 2^32 − 1, taken modulo 2^32, nor of `IN[c][f]` and `EVQ[k]` outside c < MAX_CHANNELS,
f < MAX_FRAMES_HW, k < MAX_EVENTS, the only samples and events 20_memory.md R71 and R73 name: the statement
writes the word numbered c × MAX_FRAMES_HW + f, or 4k to 4k + 3, all the same, another channel's word if f alone
is too large; a word that is not there faults (DESIGN CHOICE, log 14). -/
def Statement.assemble (p : Params) : Statement → List HostAccess
  | .cfg ch fs mf md =>
    operandWrites [BitVec.ofNat 32 ch, fs.word, BitVec.ofNat 32 mf, md.word] ++ [issueOf .cfg]
  | .setp id v n => operandWrites [v.word, BitVec.ofNat 32 n] ++ [issueOf (.setp id)]
  | .getp id => [issueOf (.getp id)]
  | .render f k => operandWrites [BitVec.ofNat 32 f, BitVec.ofNat 32 k] ++ [issueOf .render]
  | .rdstat => [issueOf .rdstat]
  | .dlwr c x => operandWrites [x.word] ++ [issueOf (.dlwr c)]
  | .dlrd c x => operandWrites [x.word] ++ [issueOf (.dlrd c)]
  | .lfosf i hz n => operandWrites [hz.word, BitVec.ofNat 32 n] ++ [issueOf (.lfosf i)]
  | .lfov i => [issueOf (.lfov i)]
  | .lfoq i => [issueOf (.lfoq i)]
  | .lfoinc i => [issueOf (.lfoinc i)]
  | .rpset id t n => operandWrites [t.word, BitVec.ofNat 32 n] ++ [issueOf (.rpset id)]
  | .rpfrm id => [issueOf (.rpfrm id)]
  | .rpget id => [issueOf (.rpget id)]
  | .taps d e o => operandWrites [d.word, e.word, BitVec.ofNat 32 o] ++ [issueOf .taps]
  | .setpi id v => operandWrites [v.word, 0#32] ++ [issueOf (.setp id)]
  | .rendern f => operandWrites [BitVec.ofNat 32 f, 0#32] ++ [issueOf .render]
  | .lfoincall => (List.range p.T).map fun i => issueOf (.lfoinc i)
  | .rpseti id v => operandWrites [v.word, 0#32] ++ [issueOf (.rpset id)]
  | .memIN c f v => [.writeWord .IN (c * p.MAX_FRAMES_HW + f) v.word]
  | .memEVQ k ofs pid val rmp =>
    [.writeWord .EVQ (4 * k) (BitVec.ofNat 32 ofs), .writeWord .EVQ (4 * k + 1) (BitVec.ofNat 32 pid),
     .writeWord .EVQ (4 * k + 2) val.word, .writeWord .EVQ (4 * k + 3) (BitVec.ofNat 32 rmp)]
  | .read => []

/-- The state in which the host is about to run a program. -/
def State.withProgram (s : State) (prog : List Statement) : State :=
  { s with inputs := prog.flatMap (Statement.assemble s.params) ++ s.inputs }

end Sys2Proof.Machine
end

