-- ==== Sys2Proof/Safety.lean ====
section
/-!
DEFINITION. What the statements speak of: the exact real value of a NUM, the invariants of a sound
state, which command needs what, and runs of several commands.
-/

namespace Sys2Proof.Machine

/-- `real(x)`: the exact value of a finite NUM (00_scope.md R11). -/
def NUM.real (x : NUM) : ℚ := (NUM.units x : ℚ) / 2 ^ 149

/-- z is the exact value rounded to nearest, ties to the even fraction: an infinity of its sign exactly when
it is at or beyond 2^128 − 2^103 in magnitude, half a step past the largest finite value (00_scope.md R11). -/
def NUM.IsNearestEven (z : NUM) (exact : ℚ) : Prop :=
  (NUM.isFinite z = false ↔ (2 : ℚ) ^ 128 - 2 ^ 103 ≤ |exact|) ∧
  (NUM.isFinite z = false → NUM.isInf z = true ∧ (NUM.neg z = true ↔ exact < 0)) ∧
  (NUM.isFinite z = true → ∀ y : NUM, NUM.isFinite y = true →
    |NUM.real z - exact| ≤ |NUM.real y - exact| ∧
    (|NUM.real z - exact| = |NUM.real y - exact| → NUM.real y ≠ NUM.real z →
      NUM.fracField z % 2 = 0))

/-- `0.0 ≤ x < 1.0`: where a phase lies (10_state.md R40). -/
def inCycle (x : NUM) : Bool := NUM.le NUM.zero x && NUM.lt x NUM.one

/-- A ramp record at rest holds its target bit for bit (10_state.md R44 (1)). -/
abbrev Ramp.settled (R : Ramp) : Prop := R.remaining = 0#32 → R.value = R.target

/-- A delay line of N words: cursor inside (10_state.md R41, R44 (3)), words in canonical form. -/
abbrev Line.sound (N : Nat) (l : Line) : Prop :=
  l.WC < N ∧ Memory.wf l.cells ∧ Memory.within N l.cells

/-- The format registers hold a valid format (10_state.md R38, 44_engine.md R261, R262). -/
abbrev Format.sound (p : Params) (m : Format) : Prop :=
  1 ≤ m.C ∧ m.C ≤ p.MAX_CHANNELS ∧ NUM.isFinite m.FS = true ∧ NUM.lt NUM.zero m.FS = true ∧
    1 ≤ m.MAXF ∧ m.MAXF ≤ p.MAX_FRAMES_HW ∧ NUM.isFinite m.MAXD = true ∧
    NUM.lt NUM.zero m.MAXD = true ∧ m.SPM = NUM.div m.FS NUM.thousand ∧
    m.N = capacity m.MAXD m.FS ∧ m.N ≤ p.MAX_DL_SAMPLES

/-- The memories of the block are in canonical form and inside their spaces (20_memory.md R70). -/
abbrev State.memoriesSound (s : State) : Prop :=
  (Memory.wf s.IN ∧ Memory.within s.sampleWords s.IN) ∧
  (Memory.wf s.OUT ∧ Memory.within s.sampleWords s.OUT) ∧
  (Memory.wf s.EVQ ∧ Memory.within s.eventWords s.EVQ) ∧
  (Memory.wf s.TAPE ∧ Memory.within tapWords s.TAPE) ∧
  (Memory.wf s.TAPO ∧ Memory.within tapWords s.TAPO)

/-- The bank and the delay lines exist exactly while CFGD = 1, with the sizes the format gives them
(10_state.md R38, R40, R41). -/
abbrev State.formatSound (s : State) : Prop :=
  (s.STATUS.CFGD = false → s.L = [] ∧ s.lines = []) ∧
  (s.STATUS.CFGD = true → Format.sound s.params s.fmt ∧ s.L.length = s.params.T ∧
    s.lines.length = s.fmt.C ∧ ∀ l ∈ s.lines, Line.sound s.fmt.N l)

/-- The invariant every step keeps. -/
abbrev State.Inv (s : State) : Prop := s.memoriesSound ∧ s.formatSound

/-- The invariants (1) and (2) of 10_state.md R44. R271 havocs P under E_NOTCFG as well as under
E_PRECOND, so (1) is asked of P only while neither bit is set (log 9). -/
abbrev State.Settled (s : State) : Prop :=
  (s.STATUS.E_PRECOND = false → s.STATUS.E_NOTCFG = false →
    s.P.RATE.settled ∧ s.P.DEPTH.settled ∧ s.P.DELAY.settled ∧ s.P.DRY.settled ∧ s.P.WET.settled ∧
    s.P.ODD90.settled) ∧
  (s.STATUS.E_PRECOND = false → ∀ o ∈ s.L, inCycle o.phase = true ∧ o.inc.settled)

/-- The state in which the host is about to issue these commands, in this order, and nothing between. -/
def State.withCommands (s : State) (cs : List Instr) : State :=
  { s with inputs := cs.map issueOf ++ s.inputs }


end Sys2Proof.Machine

namespace Sys2Proof

/-- The eight commands that need a configured format (60_exceptions.md R311). -/
def Instr.needsFormat : Instr → Bool
  | .render => true
  | .dlwr _ => true
  | .dlrd _ => true
  | .lfosf _ => true
  | .lfov _ => true
  | .lfoq _ => true
  | .lfoinc _ => true
  | .taps => true
  | .cfg => false
  | .setp _ => false
  | .getp _ => false
  | .rdstat => false
  | .rpset _ => false
  | .rpfrm _ => false
  | .rpget _ => false

/-- The selector of a test-port command names no component (60_exceptions.md R312). -/
def Instr.badSelector (s : Machine.State) : Instr → Bool
  | .dlwr c => decide (s.fmt.C ≤ c)
  | .dlrd c => decide (s.fmt.C ≤ c)
  | .lfosf i => decide (s.params.T ≤ i)
  | .lfov i => decide (s.params.T ≤ i)
  | .lfoq i => decide (s.params.T ≤ i)
  | .lfoinc i => decide (s.params.T ≤ i)
  | .rpset id => decide (5 < id)
  | .rpfrm id => decide (5 < id)
  | .rpget id => decide (5 < id)
  | .cfg => false
  | .setp _ => false
  | .getp _ => false
  | .render => false
  | .rdstat => false
  | .taps => false

/-- The commands whose result goes to RES (10_state.md R33). -/
def Instr.writesRES : Instr → Bool
  | .getp _ => true
  | .rdstat => true
  | .dlrd _ => true
  | .lfov _ => true
  | .lfoq _ => true
  | .rpfrm _ => true
  | .rpget _ => true
  | .taps => true
  | .cfg => false
  | .setp _ => false
  | .render => false
  | .dlwr _ => false
  | .lfosf _ => false
  | .lfoinc _ => false
  | .rpset _ => false

end Sys2Proof
end

