-- ==== Sys2Proof/Certificates/Slice0/Obligations.lean ====
section
/-!
DEFINITION. The statements about the model, for the provers. Each docstring names the rule of spec/ it
formalises. A statement about a draw or another free value holds whatever the value is.
-/

open Sys2Proof Sys2Proof.Machine

/-! ## Encoding -/

/-- Decoding the word of a well-formed command gives the command back, selector and all
(30_encoding.md R100, R101, R103, R109). -/
def Obligations.DecodeOfEncodeGivesTheCommand : Prop :=
  ∀ i : Instr, i.WellFormed = true → decode (encode i) = .ok i

/-- A word that decodes is the one word of its command, and the command is well formed: no bit of a legal
word is without meaning (R108, R109). -/
def Obligations.LegalWordIsTheWordOfItsCommand : Prop :=
  ∀ (w : Word) (i : Instr), decode w = .ok i → encode i = w ∧ i.WellFormed = true

/-- R107: a word is illegal exactly when its OPCODE is none of the fifteen, or CMD[15:0] ≠ 0, or it is CFG,
RENDER, RDSTAT or TAPS with SEL ≠ 0; a step that issues an illegal word sets E_ILL and changes nothing
else. -/
def Obligations.IllegalWordsRaiseEIllAndNothingElse : Prop :=
  ∀ w : Word,
    ((∀ i, decode w ≠ .ok i) ↔
      ((w >>> 24).toNat ∉ [0x01, 0x02, 0x03, 0x04, 0x05, 0x10, 0x11, 0x20, 0x21, 0x22, 0x23, 0x30, 0x31,
          0x32, 0x40] ∨
        w &&& 0xFFFF#32 ≠ 0#32 ∨
        ((w >>> 24).toNat ∈ [0x01, 0x04, 0x05, 0x40] ∧ w &&& 0xFF0000#32 ≠ 0#32))) ∧
    ∀ (s : State) (rest : List HostAccess), (∀ i, decode w ≠ .ok i) →
      step { s with inputs := .writeReg .CMD w :: rest } =
        .next { s with inputs := rest, STATUS := { s.STATUS with E_ILL := true } }

/-- Words written out bit by bit from R100 and R103, one of each family, decode to their commands. -/
def Obligations.WrittenOutWordsDecode : Prop :=
  decode 0b00000001000000000000000000000000#32 = .ok .cfg ∧
  decode 0b00000010000001010000000000000000#32 = .ok (.setp 5) ∧
  decode 0b00000011111111110000000000000000#32 = .ok (.getp 255) ∧
  decode 0b00000100000000000000000000000000#32 = .ok .render ∧
  decode 0b00000101000000000000000000000000#32 = .ok .rdstat ∧
  decode 0b00010001000000010000000000000000#32 = .ok (.dlrd 1) ∧
  decode 0b00100011000010010000000000000000#32 = .ok (.lfoinc 9) ∧
  decode 0b00110001000000110000000000000000#32 = .ok (.rpfrm 3) ∧
  decode 0b01000000000000000000000000000000#32 = .ok .taps

/-- R110 and R111: the register writes of the examples of R110, and what the four pseudo-instructions
expand to. Statements are abstract syntax, the model's choice (log 14). -/
def Obligations.AssemblerWritesOperandsThenTheCommand : Prop :=
  ∀ (p : Params) (id : Nat) (v : NumLit) (F : Nat),
    Statement.assemble p (.cfg 2 (.decimal false 480000 1) 512 (.decimal false 200 1)) =
      [.writeReg .OPA 0x00000002#32, .writeReg .OPB 0x473B8000#32, .writeReg .OPC 0x00000200#32,
       .writeReg .OPD 0x41A00000#32, .writeReg .CMD 0x01000000#32] ∧
    Statement.assemble p (.setp ParamId.DELAY.toNat (.decimal false 50 1) 0) =
      [.writeReg .OPA 0x40A00000#32, .writeReg .OPB 0x00000000#32, .writeReg .CMD 0x02020000#32] ∧
    Statement.assemble p (.dlrd 1 (.decimal false 25 1)) =
      [.writeReg .OPA 0x40200000#32, .writeReg .CMD 0x11010000#32] ∧
    Statement.assemble p (.setpi id v) = Statement.assemble p (.setp id v 0) ∧
    Statement.assemble p (.rendern F) = Statement.assemble p (.render F 0) ∧
    Statement.assemble p .lfoincall =
      ((List.range p.T).flatMap fun i => Statement.assemble p (.lfoinc i)) ∧
    Statement.assemble p (.rpseti id v) = Statement.assemble p (.rpset id v 0)

/-! ## The step and the host -/

/-- A step whose host access is the write of a legal word to CMD performs exactly that command, once the
access is taken off the list (10_state.md R31, 00_scope.md R8; the list is
the model's, log 6). -/
def Obligations.StepPerformsTheIssuedCommand : Prop :=
  ∀ (s : State) (w : Word) (i : Instr) (rest : List HostAccess), decode w = .ok i →
    step { s with inputs := .writeReg .CMD w :: rest } = exec i { s with inputs := rest }

/-- A host write of OPA, OPB, OPC or OPD changes that register alone (10_state.md R32); RES and STATUS are
refused (R33, R35; that they stop the run by this name is the model's inference, log 10); CMD reads as 0
(R31), the host reads OPA to OPD and RES as they stand, and no word of STATUS directly (R35, log 10). -/
def Obligations.HostWritesOperandRegistersOnly : Prop :=
  ∀ (s : State) (v : Word) (rest : List HostAccess),
    step { s with inputs := .writeReg .OPA v :: rest } = .next { s with inputs := rest, OPA := v } ∧
    step { s with inputs := .writeReg .OPB v :: rest } = .next { s with inputs := rest, OPB := v } ∧
    step { s with inputs := .writeReg .OPC v :: rest } = .next { s with inputs := rest, OPC := v } ∧
    step { s with inputs := .writeReg .OPD v :: rest } = .next { s with inputs := rest, OPD := v } ∧
    step { s with inputs := .writeReg .RES v :: rest } = .refused .hostHasNoAccess ∧
    step { s with inputs := .writeReg .STATUS v :: rest } = .refused .hostHasNoAccess ∧
    hostReadReg .CMD s = some 0#32 ∧
    hostReadReg .OPA s = some s.OPA ∧ hostReadReg .OPB s = some s.OPB ∧ hostReadReg .OPC s = some s.OPC ∧
    hostReadReg .OPD s = some s.OPD ∧ hostReadReg .RES s = some s.RES ∧ hostReadReg .STATUS s = none

/-- 20_memory.md R70, R72: a host write to a word of IN, OUT or EVQ lands in that word and no other state;
an index outside the space does not exist; TAPE, TAPO and DL take no host write. A host read gives the word of IN,
OUT, EVQ, TAPE or TAPO inside the space and none outside, and none of DL. The names of the stops are the
model's inference (log 10). -/
def Obligations.HostWritesInOutAndEvqOnly : Prop :=
  ∀ (s : State) (i : Nat) (v : Word) (rest : List HostAccess),
    (i < s.params.MAX_CHANNELS * s.params.MAX_FRAMES_HW →
      (∃ t, step { s with inputs := .writeWord .IN i v :: rest } = .next t ∧
        t = { s with inputs := rest, IN := t.IN } ∧
        hostReadWord .IN i t = some v ∧ ∀ j, j ≠ i → t.IN.read j = s.IN.read j) ∧
      (∃ t, step { s with inputs := .writeWord .OUT i v :: rest } = .next t ∧
        t = { s with inputs := rest, OUT := t.OUT } ∧
        hostReadWord .OUT i t = some v ∧ ∀ j, j ≠ i → t.OUT.read j = s.OUT.read j)) ∧
    (s.params.MAX_CHANNELS * s.params.MAX_FRAMES_HW ≤ i →
      step { s with inputs := .writeWord .IN i v :: rest } = .fault .noSuchWord ∧
      step { s with inputs := .writeWord .OUT i v :: rest } = .fault .noSuchWord) ∧
    (i < 4 * s.params.MAX_EVENTS →
      ∃ t, step { s with inputs := .writeWord .EVQ i v :: rest } = .next t ∧
        t = { s with inputs := rest, EVQ := t.EVQ } ∧
        hostReadWord .EVQ i t = some v ∧ ∀ j, j ≠ i → t.EVQ.read j = s.EVQ.read j) ∧
    (4 * s.params.MAX_EVENTS ≤ i →
      step { s with inputs := .writeWord .EVQ i v :: rest } = .fault .noSuchWord) ∧
    step { s with inputs := .writeWord .TAPE i v :: rest } = .refused .hostHasNoAccess ∧
    step { s with inputs := .writeWord .TAPO i v :: rest } = .refused .hostHasNoAccess ∧
    step { s with inputs := .writeWord .DL i v :: rest } = .refused .hostHasNoAccess ∧
    hostReadWord .IN i s =
      (if i < s.params.MAX_CHANNELS * s.params.MAX_FRAMES_HW then some (s.IN.read i) else none) ∧
    hostReadWord .OUT i s =
      (if i < s.params.MAX_CHANNELS * s.params.MAX_FRAMES_HW then some (s.OUT.read i) else none) ∧
    hostReadWord .EVQ i s = (if i < 4 * s.params.MAX_EVENTS then some (s.EVQ.read i) else none) ∧
    hostReadWord .TAPE i s = (if i < 50 then some (s.TAPE.read i) else none) ∧
    hostReadWord .TAPO i s = (if i < 50 then some (s.TAPO.read i) else none) ∧
    hostReadWord .DL i s = none

/-- 70_reset_and_hazards.md R340: hardware reset clears the operand registers, RES, STATUS (R36: reset
alone clears a sticky bit), puts each parameter at its INIT value at rest, ends the bank and the delay
lines, zeroes TAPE and TAPO, and writes neither IN, OUT nor EVQ. What it leaves in the format registers
is unspecified and not claimed. -/
def Obligations.HardwareResetGivesTheResetValues : Prop :=
  ∀ (s : State) (rest : List HostAccess), ∃ t,
    step { s with inputs := .reset :: rest } = .next t ∧
    hostReadReg .CMD t = some 0#32 ∧
    t.OPA = 0#32 ∧ t.OPB = 0#32 ∧ t.OPC = 0#32 ∧ t.OPD = 0#32 ∧ t.RES = 0#32 ∧
    t.STATUS.word = 0#32 ∧
    t.P.RATE = ⟨s.params.INIT_RATE, s.params.INIT_RATE, 0#32, 0#32⟩ ∧
    t.P.DEPTH = ⟨s.params.INIT_DEPTH, s.params.INIT_DEPTH, 0#32, 0#32⟩ ∧
    t.P.DELAY = ⟨s.params.INIT_DELAY, s.params.INIT_DELAY, 0#32, 0#32⟩ ∧
    t.P.DRY = ⟨s.params.INIT_DRY, s.params.INIT_DRY, 0#32, 0#32⟩ ∧
    t.P.WET = ⟨s.params.INIT_WET, s.params.INIT_WET, 0#32, 0#32⟩ ∧
    t.P.ODD90 = ⟨s.params.INIT_ODD90, s.params.INIT_ODD90, 0#32, 0#32⟩ ∧
    t.L = [] ∧ t.lines = [] ∧
    (∀ i, t.TAPE.read i = 0#32 ∧ t.TAPO.read i = 0#32) ∧
    t.IN = s.IN ∧ t.OUT = s.OUT ∧ t.EVQ = s.EVQ ∧ t.params = s.params ∧ t.inputs = rest

/-- The state after reset: the registers of R340 at their values, every parameter 0.0 (the decided
defaults of 00_scope.md R6), no bank, no delay line; and the block waits: with no host access to come a
step changes nothing (R341). That nothing is to come, and that unwritten words of IN, OUT and EVQ read 0,
are the model's choices (log 6, log 3) and not claimed here. -/
def Obligations.ResetStateWaitsForTheHost : Prop :=
  State.reset.STATUS.word = 0#32 ∧ State.reset.RES = 0#32 ∧ State.reset.OPA = 0#32 ∧
    State.reset.OPB = 0#32 ∧ State.reset.OPC = 0#32 ∧ State.reset.OPD = 0#32 ∧
    (∀ p : ParamId, State.reset.P.get p = ⟨0#32, 0#32, 0#32, 0#32⟩) ∧
    State.reset.L = [] ∧ State.reset.lines = [] ∧
    (∀ i, State.reset.TAPE.read i = 0#32 ∧ State.reset.TAPO.read i = 0#32) ∧
    ∀ s : State, s.inputs = [] → step s = .next s

/-- R7 (and the sizes of R6, an inference of the model, log 13): the model refuses a parameter set exactly where FLANGE_TAP_COUNT is not 5 or
7, CHORUS_TAP_COUNT is outside 1..50, MAX_CHANNELS is outside 1..256, some FLANGE_RATE_MULT(i) is not
finite, or MAX_FRAMES_HW or MAX_DL_SAMPLES is 0; a set it accepts it takes as it stands. -/
def Obligations.IllegalParameterSetsAreRefused : Prop :=
  ∀ (p : Params) (r : ParamSet),
    (Params.build p r = none ↔
      (r.FLANGE_TAP_COUNT ≠ 5 ∧ r.FLANGE_TAP_COUNT ≠ 7) ∨ r.CHORUS_TAP_COUNT < 1 ∨
      50 < r.CHORUS_TAP_COUNT ∨ r.MAX_CHANNELS < 1 ∨ 256 < r.MAX_CHANNELS ∨
      (∃ i : Fin 7, i.val < r.FLANGE_TAP_COUNT ∧ NUM.isFinite r.FLANGE_RATE_MULT[i] = false) ∨
      r.MAX_FRAMES_HW < 1 ∨ r.MAX_DL_SAMPLES < 1) ∧
    ∀ q, Params.build p r = some q →
      q.T = (match q.VARIANT with
        | .FLANGE => r.FLANGE_TAP_COUNT
        | .CHORUS => r.CHORUS_TAP_COUNT) ∧
      q.VARIANT = p.VARIANT ∧ q.MAX_CHANNELS = r.MAX_CHANNELS ∧ q.MAX_FRAMES_HW = r.MAX_FRAMES_HW ∧
      q.MAX_DL_SAMPLES = r.MAX_DL_SAMPLES ∧
      ∀ i : Fin 7, i.val < r.FLANGE_TAP_COUNT → rateMult q i.val = r.FLANGE_RATE_MULT[i]

/-! ## Arithmetic on NUM -/

/-- R11: each of +, −, ×, / on finite operands gives the binary32 value nearest to the exact result, ties to
the even fraction, and an infinity of its sign exactly when that result is at or beyond 2^128 − 2^103,
half a step past the largest finite value. -/
def Obligations.ArithmeticRoundsToNearestEven : Prop :=
  ∀ a b : NUM, NUM.isFinite a = true → NUM.isFinite b = true →
    NUM.IsNearestEven (NUM.add a b) (NUM.real a + NUM.real b) ∧
    NUM.IsNearestEven (NUM.sub a b) (NUM.real a - NUM.real b) ∧
    NUM.IsNearestEven (NUM.mul a b) (NUM.real a * NUM.real b) ∧
    (NUM.isZero b = false → NUM.IsNearestEven (NUM.div a b) (NUM.real a / NUM.real b))

/-- R11, the results that rounding does not settle: the sign of a product and of a quotient; an exact sum or
difference of zero is +0.0 unless both terms are negative zeros; a finite nonzero number over a zero is an
infinity; with an infinite operand, each result that is no NaN. toNUM(n) is the integer n rounded to nearest
even, exact for |n| ≤ 2^24, and toNUM(0) is +0.0. -/
def Obligations.SignsInfinitiesAndIntegers : Prop :=
  (∀ a b : NUM,
    (NUM.isNaN (NUM.mul a b) = false → NUM.neg (NUM.mul a b) = (NUM.neg a != NUM.neg b)) ∧
    (NUM.isNaN (NUM.div a b) = false → NUM.neg (NUM.div a b) = (NUM.neg a != NUM.neg b)) ∧
    (NUM.isFinite a = true → NUM.isFinite b = true →
      (NUM.real a + NUM.real b = 0 →
        NUM.add a b = if NUM.neg a = true ∧ NUM.neg b = true then 0x80000000#32 else 0x00000000#32) ∧
      (NUM.real a - NUM.real b = 0 →
        NUM.sub a b = if NUM.neg a = true ∧ NUM.neg b = false then 0x80000000#32 else 0x00000000#32) ∧
      (NUM.isZero a = false → NUM.isZero b = true → NUM.isInf (NUM.div a b) = true)) ∧
    (NUM.isInf a = true →
      (NUM.isFinite b = true →
        NUM.add a b = a ∧ NUM.add b a = a ∧ NUM.sub a b = a ∧
        NUM.isInf (NUM.sub b a) = true ∧ NUM.neg (NUM.sub b a) = !NUM.neg a ∧
        NUM.isInf (NUM.div a b) = true ∧ NUM.isZero (NUM.div b a) = true) ∧
      (NUM.isInf b = true → NUM.neg a = NUM.neg b → NUM.add a b = a) ∧
      (NUM.isInf b = true → NUM.neg a ≠ NUM.neg b → NUM.sub a b = a) ∧
      (NUM.isNaN b = false → NUM.isZero b = false →
        NUM.isInf (NUM.mul a b) = true ∧ NUM.isInf (NUM.mul b a) = true))) ∧
  (∀ n : Int, NUM.IsNearestEven (toNUM n) n ∧
    (|n| ≤ 2 ^ 24 → NUM.isFinite (toNUM n) = true ∧ NUM.real (toNUM n) = n)) ∧
  toNUM 0 = 0x00000000#32

/-- R11: an operation with a NaN operand, ∞ − ∞, 0 × ∞, 0/0 and ∞/∞ give some NaN; every comparison with a
NaN is false; −0.0 = +0.0. -/
def Obligations.NaNResultsAndComparisons : Prop :=
  ∀ a b : NUM,
    (NUM.isNaN a = true ∨ NUM.isNaN b = true →
      NUM.isNaN (NUM.add a b) = true ∧ NUM.isNaN (NUM.sub a b) = true ∧
      NUM.isNaN (NUM.mul a b) = true ∧ NUM.isNaN (NUM.div a b) = true ∧
      NUM.lt a b = false ∧ NUM.le a b = false ∧ NUM.eq a b = false) ∧
    (NUM.isInf a = true → NUM.isInf b = true →
      NUM.isNaN (NUM.div a b) = true ∧
      (NUM.neg a = NUM.neg b → NUM.isNaN (NUM.sub a b) = true) ∧
      (NUM.neg a ≠ NUM.neg b → NUM.isNaN (NUM.add a b) = true)) ∧
    (NUM.isInf a = true → NUM.isZero b = true →
      NUM.isNaN (NUM.mul a b) = true ∧ NUM.isNaN (NUM.mul b a) = true) ∧
    (NUM.isZero a = true → NUM.isZero b = true →
      NUM.isNaN (NUM.div a b) = true ∧ NUM.eq a b = true)

/-- R11: on finite operands the comparisons are those of the exact real values. -/
def Obligations.ComparisonsAreThoseOfTheRealValues : Prop :=
  ∀ a b : NUM, NUM.isFinite a = true → NUM.isFinite b = true →
    (NUM.lt a b = true ↔ NUM.real a < NUM.real b) ∧
    (NUM.le a b = true ↔ NUM.real a ≤ NUM.real b) ∧
    (NUM.eq a b = true ↔ NUM.real a = NUM.real b)

/-- R12, for every finite x: floor is the largest integer at or below the exact value; wrap is x − toNUM(floor
x), with 1.0 made 0.0, and lies in [0.0, 1.0). For x ≥ 0 it is exactly the fraction of x (R12 says so below
2^24; from there on x is an integer). -/
def Obligations.WrapLiesInOneCycle : Prop :=
  ∀ x : NUM, NUM.isFinite x = true →
    NUM.floor x = ⌊NUM.real x⌋ ∧ inCycle (wrap x) = true ∧
    wrap x = (if NUM.eq (NUM.sub x (toNUM ⌊NUM.real x⌋)) 0x3F800000#32 = true then 0x00000000#32
      else NUM.sub x (toNUM ⌊NUM.real x⌋)) ∧
    (0 ≤ NUM.real x → NUM.real (wrap x) = NUM.real x - ⌊NUM.real x⌋)

/-- 40_delay_line.md R140: N = ceil(real(2 × MAXD × FS / 1000)) + 1 in exact real arithmetic. -/
def Obligations.CapacityIsTheExactCeiling : Prop :=
  ∀ md fs : NUM, NUM.isFinite md = true → NUM.isFinite fs = true → NUM.lt NUM.zero md = true →
    NUM.lt NUM.zero fs = true →
    (capacity md fs : ℤ) = ⌈2 * NUM.real md * NUM.real fs / 1000⌉ + 1

/-- R141: for a cursor inside the line, the slot of an integer offset k is the one number of 0..N−1 that
differs from WC − READ_BIAS − k by a multiple of N. -/
def Obligations.SlotIsTheOffsetModuloN : Prop :=
  ∀ (p : Params) (N WC : Nat) (k : Int), WC < N →
    slot p N WC k < N ∧
    ∃ m : Int, (slot p N WC k : Int) = (WC : Int) - (if p.READ_BIAS then 1 else 0) - k + m * (N : Int)

/-- R144, R147 (1), (2): at t = 0 the cubic of finite points returns b exactly, and +0.0 for b = −0.0;
everywhere else it is R144's expression in R144's order, which at t = 0 gives b too unless b is −0.0 or an
inner sum overflows (where R144 and R147 (1) disagree the model follows R147, log 15); a point that is not
finite makes the result not finite, at every t. -/
def Obligations.CubicAtZeroReturnsTheSample : Prop :=
  ∀ t a b c d : NUM,
    let points := NUM.isFinite a = true ∧ NUM.isFinite b = true ∧ NUM.isFinite c = true ∧
      NUM.isFinite d = true
    let c1 := NUM.sub c a
    let c2 := NUM.sub (NUM.add (NUM.sub (NUM.mul 0x40000000#32 a) (NUM.mul 0x40A00000#32 b))
      (NUM.mul 0x40800000#32 c)) d
    let c3 := NUM.add (NUM.mul 0x40400000#32 (NUM.sub b c)) (NUM.sub d a)
    let inner := NUM.add c1 (NUM.mul t (NUM.add c2 (NUM.mul t c3)))
    let inOrder := NUM.add b (NUM.mul (NUM.mul 0x3F000000#32 t) inner)
    (NUM.isZero t = true → points → cr t a b c d = if b = 0x80000000#32 then 0x00000000#32 else b) ∧
    (NUM.isZero t = false ∨ ¬ points → cr t a b c d = inOrder) ∧
    (NUM.isZero t = true → points → b ≠ 0x80000000#32 → NUM.isFinite inner = true → inOrder = b) ∧
    (¬ points → NUM.isFinite (cr t a b c d) = false)

/-! ## The commands, each with its whole rule -/

/-- 44_engine.md R261, R262: CFG with valid operands sets the format, the capacity N being the exact
ceiling of 40_delay_line.md R140, zeroes every delay-line word and
cursor, builds the bank of 41_oscillator.md R170, R171 from P[RATE] and sets CFGD, and changes nothing
else; with invalid operands it raises E_PRECOND, clears CFGD, ends the delay lines and the bank, and
changes nothing else. -/
def Obligations.CfgConfiguresOrRaisesEPrecond : Prop :=
  ∀ s : State,
    let fs := s.OPB
    let md := s.OPD
    let n : Int := ⌈2 * NUM.real md * NUM.real fs / 1000⌉ + 1
    let valid := 1 ≤ s.OPA.toNat ∧ s.OPA.toNat ≤ s.params.MAX_CHANNELS ∧
      NUM.isFinite fs = true ∧ NUM.lt NUM.zero fs = true ∧
      1 ≤ s.OPC.toNat ∧ s.OPC.toNat ≤ s.params.MAX_FRAMES_HW ∧
      NUM.isFinite md = true ∧ NUM.lt NUM.zero md = true ∧
      n ≤ s.params.MAX_DL_SAMPLES
    (valid → ∃ t, exec .cfg s = .next t ∧
      t = { s with STATUS := { s.STATUS with CFGD := true }, fmt := t.fmt, L := t.L, lines := t.lines } ∧
      t.fmt.C = s.OPA.toNat ∧ t.fmt.FS = fs ∧ t.fmt.MAXF = s.OPC.toNat ∧ t.fmt.MAXD = md ∧
      t.fmt.SPM = NUM.div fs 0x447A0000#32 ∧ (t.fmt.N : Int) = n ∧
      t.lines.length = s.OPA.toNat ∧
      (∀ c, c < s.OPA.toNat → t.cursor c = 0 ∧ ∀ j, t.lineWord c j = 0x00000000#32) ∧
      t.L.length = s.params.T ∧
      ∀ i, i < s.params.T →
        (t.osc i).inc = ⟨NUM.div (rate s.params i s.P.RATE.value) fs,
          NUM.div (rate s.params i s.P.RATE.value) fs, 0#32, 0#32⟩ ∧
        (s.params.VARIANT = .FLANGE →
          (t.osc i).phase = 0#32 ∧
          rate s.params i s.P.RATE.value = NUM.mul (rateMult s.params i) s.P.RATE.value) ∧
        (s.params.VARIANT = .CHORUS →
          (t.osc i).phase = NUM.div (toNUM i) (toNUM s.params.T) ∧
          rate s.params i s.P.RATE.value = s.P.RATE.value)) ∧
    (¬ valid → exec .cfg s = .next
      { s with STATUS := { s.STATUS with CFGD := false, E_PRECOND := true }, L := [], lines := [] })

/-- R263, R264: SETP of an unknown id does nothing; of DEPTH, DELAY, DRY or WET it is rpSet; of ODD90 an
instant set whatever the ramp; of RATE an instant set of P[RATE] and, with a format configured, either
every oscillator's frequency retuned with the ramp and the phases kept (RETUNE), or the bank rebuilt
(RECREATE). Nothing else changes, and STATUS never does. -/
def Obligations.SetpUpdatesTheNamedParameter : Prop :=
  ∀ s : State,
    let v := s.OPA
    let n := s.OPB
    let ramped := fun (R : Ramp) =>
      if n = 0#32 then (⟨v, v, 0#32, 0#32⟩ : Ramp)
      else ⟨R.value, v, NUM.div (NUM.sub v R.value) (toNUM n.toNat), n⟩
    (∀ id, 6 ≤ id → exec (.setp id) s = .next s) ∧
    exec (.setp 1) s = .next { s with P := { s.P with DEPTH := ramped s.P.DEPTH } } ∧
    exec (.setp 2) s = .next { s with P := { s.P with DELAY := ramped s.P.DELAY } } ∧
    exec (.setp 3) s = .next { s with P := { s.P with DRY := ramped s.P.DRY } } ∧
    exec (.setp 4) s = .next { s with P := { s.P with WET := ramped s.P.WET } } ∧
    exec (.setp 5) s = .next { s with P := { s.P with ODD90 := ⟨v, v, 0#32, 0#32⟩ } } ∧
    (s.STATUS.CFGD = false →
      exec (.setp 0) s = .next { s with P := { s.P with RATE := ⟨v, v, 0#32, 0#32⟩ } }) ∧
    (s.STATUS.CFGD = true → ∃ t, exec (.setp 0) s = .next t ∧
      t = { s with P := { s.P with RATE := ⟨v, v, 0#32, 0#32⟩ }, L := t.L } ∧
      t.L.length = s.params.T ∧
      (s.params.RATE_UPDATE_POLICY = .RETUNE → ∀ i, i < s.params.T →
        (t.osc i).phase = (s.osc i).phase ∧
        (t.osc i).inc = (let hz := NUM.div (rate s.params i v) s.fmt.FS
          if n = 0#32 then ⟨hz, hz, 0#32, 0#32⟩
          else ⟨(s.osc i).inc.value, hz, NUM.div (NUM.sub hz (s.osc i).inc.value) (toNUM n.toNat), n⟩)) ∧
      (s.params.RATE_UPDATE_POLICY = .RECREATE → ∀ i, i < s.params.T →
        (t.osc i).phase = phase0 s.params i ∧
        (t.osc i).inc = ⟨NUM.div (rate s.params i v) s.fmt.FS, NUM.div (rate s.params i v) s.fmt.FS,
          0#32, 0#32⟩))

/-- R266: GETP puts the current value in RES, or 0.0 for an unknown id, and changes nothing else. -/
def Obligations.GetpReadsTheCurrentValueOrTheSentinel : Prop :=
  ∀ s : State,
    (∀ p : ParamId, exec (.getp p.toNat) s = .next { s with RES := (s.P.get p).value }) ∧
    ∀ id, 6 ≤ id → exec (.getp id) s = .next { s with RES := 0x00000000#32 }

/-- R280, 10_state.md R35: RDSTAT puts STATUS in RES, bit by bit, bits 31:6 zero, and changes nothing
else. -/
def Obligations.RdstatReadsEveryStatusBit : Prop :=
  ∀ s : State, ∃ t, exec .rdstat s = .next t ∧ t = { s with RES := t.RES } ∧
    t.RES.getLsbD 0 = s.STATUS.CFGD ∧ t.RES.getLsbD 1 = s.STATUS.E_ILL ∧
    t.RES.getLsbD 2 = s.STATUS.E_NOTCFG ∧ t.RES.getLsbD 3 = s.STATUS.E_SEL ∧
    t.RES.getLsbD 4 = s.STATUS.E_PRECOND ∧ t.RES.getLsbD 5 = s.STATUS.E_RANGE ∧
    ∀ n, 6 ≤ n → t.RES.getLsbD n = false

/-- 40_delay_line.md R142, R145: DLWR raises E_NOTCFG without a format, E_SEL for a channel that does not
exist, and nothing else then; otherwise it stores OPA bit for bit at WC[c], moves WC[c] on modulo N, and
changes no other slot, channel or state. -/
def Obligations.DlwrStoresAtTheCursorAndAdvances : Prop :=
  ∀ (s : State) (c : Nat), s.Inv →
    (s.STATUS.CFGD = false →
      exec (.dlwr c) s = .next { s with STATUS := { s.STATUS with E_NOTCFG := true } }) ∧
    (s.STATUS.CFGD = true → s.fmt.C ≤ c →
      exec (.dlwr c) s = .next { s with STATUS := { s.STATUS with E_SEL := true } }) ∧
    (s.STATUS.CFGD = true → c < s.fmt.C → ∃ t, exec (.dlwr c) s = .next t ∧
      t = { s with lines := t.lines } ∧ t.lines.length = s.lines.length ∧
      t.lineWord c (s.cursor c) = s.OPA ∧
      t.cursor c = (s.cursor c + 1) % s.fmt.N ∧
      (∀ j, j ≠ s.cursor c → t.lineWord c j = s.lineWord c j) ∧
      ∀ d, d ≠ c → t.line d = s.line d)

/-- R143, R144, R146, R147 (1): DLRD raises E_NOTCFG or E_SEL and nothing else, or reads: an offset that is
finite, at least 0.0 and at most N − 1 puts the cubic through the samples at offsets k − 1, k, k + 1, k + 2 in
RES and changes nothing else (at an integer offset among finite samples that is the sample at k itself, +0.0
for −0.0, log 15); any other offset raises E_RANGE and RES receives a draw. That draws are numbered
in the order they are made is the model's choice (log 2). -/
def Obligations.DlrdInterpolatesInsideTheLine : Prop :=
  ∀ (s : State) (c : Nat),
    let x := s.OPA
    let inside := NUM.isFinite x = true ∧ NUM.le NUM.zero x = true ∧ NUM.real x ≤ (s.fmt.N : ℚ) - 1
    let at' := fun k : Int => s.lineWord c (slot s.params s.fmt.N (s.cursor c) k)
    let cubic := fun t a b d e : NUM =>
      if NUM.isZero t = true ∧ NUM.isFinite a = true ∧ NUM.isFinite b = true ∧ NUM.isFinite d = true ∧
        NUM.isFinite e = true then (if b = 0x80000000#32 then 0x00000000#32 else b)
      else
      let c1 := NUM.sub d a
      let c2 := NUM.sub (NUM.add (NUM.sub (NUM.mul 0x40000000#32 a) (NUM.mul 0x40A00000#32 b))
        (NUM.mul 0x40800000#32 d)) e
      let c3 := NUM.add (NUM.mul 0x40400000#32 (NUM.sub b d)) (NUM.sub e a)
      NUM.add b (NUM.mul (NUM.mul 0x3F000000#32 t) (NUM.add c1 (NUM.mul t (NUM.add c2 (NUM.mul t c3)))))
    (s.STATUS.CFGD = false →
      exec (.dlrd c) s = .next { s with STATUS := { s.STATUS with E_NOTCFG := true } }) ∧
    (s.STATUS.CFGD = true → s.fmt.C ≤ c →
      exec (.dlrd c) s = .next { s with STATUS := { s.STATUS with E_SEL := true } }) ∧
    (s.STATUS.CFGD = true → c < s.fmt.C → inside →
      exec (.dlrd c) s = .next { s with
        RES :=
          let k := ⌊NUM.real x⌋
          cubic (NUM.sub x (toNUM k)) (at' (k - 1)) (at' k) (at' (k + 1)) (at' (k + 2)) }) ∧
    (s.STATUS.CFGD = true → c < s.fmt.C → ¬ inside →
      exec (.dlrd c) s = .next { s with
        RES := Config.draw s.draws
        STATUS := { s.STATUS with E_RANGE := true }
        draws := s.draws + 1 })

/-- 41_oscillator.md R174, R180: LFOSF raises E_NOTCFG or E_SEL and nothing else, or sets the increment's
ramp towards hz / FS and leaves the phase, the other oscillators and everything else. -/
def Obligations.LfosfRampsTheIncrement : Prop :=
  ∀ (s : State) (i : Nat), s.Inv →
    (s.STATUS.CFGD = false →
      exec (.lfosf i) s = .next { s with STATUS := { s.STATUS with E_NOTCFG := true } }) ∧
    (s.STATUS.CFGD = true → s.params.T ≤ i →
      exec (.lfosf i) s = .next { s with STATUS := { s.STATUS with E_SEL := true } }) ∧
    (s.STATUS.CFGD = true → i < s.params.T → ∃ t, exec (.lfosf i) s = .next t ∧
      t = { s with L := t.L } ∧ t.L.length = s.L.length ∧
      (t.osc i).phase = (s.osc i).phase ∧
      (t.osc i).inc = (let hz := NUM.div s.OPA s.fmt.FS
        if s.OPB = 0#32 then ⟨hz, hz, 0#32, 0#32⟩
        else ⟨(s.osc i).inc.value, hz,
          NUM.div (NUM.sub hz (s.osc i).inc.value) (toNUM s.OPB.toNat), s.OPB⟩) ∧
      ∀ j, j ≠ i → t.osc j = s.osc j)

/-- R172, R181: LFOV raises E_NOTCFG or E_SEL and nothing else (RES unchanged), or puts SIN(TWO_PI × phase)
in RES and changes nothing else; the phase is not advanced. -/
def Obligations.LfovReadsTheWave : Prop :=
  ∀ (s : State) (i : Nat),
    (s.STATUS.CFGD = false →
      exec (.lfov i) s = .next { s with STATUS := { s.STATUS with E_NOTCFG := true } }) ∧
    (s.STATUS.CFGD = true → s.params.T ≤ i →
      exec (.lfov i) s = .next { s with STATUS := { s.STATUS with E_SEL := true } }) ∧
    (s.STATUS.CFGD = true → i < s.params.T →
      exec (.lfov i) s = .next
        { s with RES := sinOf s.params.sinTable (NUM.mul 0x40C90FDB#32 (s.osc i).phase) })

/-- R173, R182: LFOQ raises E_NOTCFG or E_SEL and nothing else, or puts SIN(TWO_PI × wrap(phase + 0.25)) in
RES and changes nothing else; bit for bit that is what LFOV reads at phase wrap(phase + 0.25). -/
def Obligations.LfoqReadsAQuarterCycleAhead : Prop :=
  ∀ (s : State) (i : Nat),
    (s.STATUS.CFGD = false →
      exec (.lfoq i) s = .next { s with STATUS := { s.STATUS with E_NOTCFG := true } }) ∧
    (s.STATUS.CFGD = true → s.params.T ≤ i →
      exec (.lfoq i) s = .next { s with STATUS := { s.STATUS with E_SEL := true } }) ∧
    (s.STATUS.CFGD = true → i < s.params.T →
      exec (.lfoq i) s = .next { s with
        RES := sinOf s.params.sinTable
          (NUM.mul 0x40C90FDB#32 (wrap (NUM.add (s.osc i).phase 0x3E800000#32))) } ∧
      ∀ (s' t t' : State), s'.params = s.params → s'.STATUS = s.STATUS →
        (s'.osc i).phase = wrap (NUM.add (s.osc i).phase 0x3E800000#32) →
        exec (.lfoq i) s = .next t → exec (.lfov i) s' = .next t' → t.RES = t'.RES)

/-- R175, R183: LFOINC raises E_NOTCFG or E_SEL and nothing else, or advances the increment ramp of
oscillator i by one step and its phase by the ramp's new value, wrapped; the other oscillators and
everything else stay. -/
def Obligations.LfoincAdvancesOnePhase : Prop :=
  ∀ (s : State) (i : Nat), s.Inv →
    (s.STATUS.CFGD = false →
      exec (.lfoinc i) s = .next { s with STATUS := { s.STATUS with E_NOTCFG := true } }) ∧
    (s.STATUS.CFGD = true → s.params.T ≤ i →
      exec (.lfoinc i) s = .next { s with STATUS := { s.STATUS with E_SEL := true } }) ∧
    (s.STATUS.CFGD = true → i < s.params.T → ∃ t, exec (.lfoinc i) s = .next t ∧
      t = { s with L := t.L } ∧ t.L.length = s.L.length ∧
      (t.osc i).inc = rpFrame (s.osc i).inc ∧
      (t.osc i).phase = wrap (NUM.add (s.osc i).phase (rpFrame (s.osc i).inc).value) ∧
      ∀ j, j ≠ i → t.osc j = s.osc j)

/-- 42_ramped_parameter.md R200, R210: RPSET sets a known parameter at once for n = 0, else starts a ramp
from its current value with step (t − value) / toNUM(n); an id above 5 raises E_SEL. Nothing else
changes. -/
def Obligations.RpsetSetsOrStartsARamp : Prop :=
  ∀ s : State,
    (∀ p : ParamId, exec (.rpset p.toNat) s = .next { s with
      P := s.P.set p
        (if s.OPB = 0#32 then ⟨s.OPA, s.OPA, 0x00000000#32, 0#32⟩
         else ⟨(s.P.get p).value, s.OPA, NUM.div (NUM.sub s.OPA (s.P.get p).value) (toNUM s.OPB.toNat),
           s.OPB⟩) }) ∧
    ∀ id, 5 < id → exec (.rpset id) s = .next { s with STATUS := { s.STATUS with E_SEL := true } }

/-- R201, R211: RPFRM advances the parameter's ramp by one step, the last step assigning the target, and
puts the new value in RES; an id above 5 raises E_SEL and leaves RES. Nothing else changes. -/
def Obligations.RpfrmAdvancesOneStep : Prop :=
  ∀ s : State,
    (∀ p : ParamId, ∃ R, exec (.rpfrm p.toNat) s = .next { s with P := s.P.set p R, RES := R.value } ∧
      ((s.P.get p).remaining = 0#32 → R = s.P.get p) ∧
      ((s.P.get p).remaining.toNat = 1 →
        R = ⟨(s.P.get p).target, (s.P.get p).target, (s.P.get p).step, 0#32⟩) ∧
      (2 ≤ (s.P.get p).remaining.toNat →
        R = ⟨NUM.add (s.P.get p).value (s.P.get p).step, (s.P.get p).target, (s.P.get p).step,
          (s.P.get p).remaining - 1#32⟩)) ∧
    ∀ id, 5 < id → exec (.rpfrm id) s = .next { s with STATUS := { s.STATUS with E_SEL := true } }

/-- R203, R212: RPGET puts the current value in RES and advances nothing; an id above 5 raises E_SEL and
leaves RES. -/
def Obligations.RpgetReadsWithoutAdvancing : Prop :=
  ∀ s : State,
    (∀ p : ParamId, exec (.rpget p.toNat) s = .next { s with RES := (s.P.get p).value }) ∧
    ∀ id, 5 < id → exec (.rpget id) s = .next { s with STATUS := { s.STATUS with E_SEL := true } }

/-- 43_tap_compute.md R230 to R233, R240: TAPS without a format raises E_NOTCFG and nothing else; on a
FLANGE block with delay or depth equal to zero it puts 1 in RES and changes nothing else; otherwise it
puts E[i] in TAPE[i] and O[i] in TAPO[i] for i < T, 0 in RES, and changes nothing else. -/
def Obligations.TapsStoresBothTapSets : Prop :=
  ∀ s : State,
    let bypass := s.params.VARIANT = .FLANGE ∧
      (NUM.eq s.OPA NUM.zero = true ∨ NUM.eq s.OPB NUM.zero = true)
    let ds := NUM.mul s.OPA s.fmt.SPM
    let mn := NUM.mul 0x3A83126F#32 s.fmt.SPM
    let D := match s.params.VARIANT with
      | .FLANGE => if NUM.lt (NUM.sub ds (NUM.mul ds s.OPB)) mn then NUM.sub ds mn else NUM.mul ds s.OPB
      | .CHORUS => NUM.mul (NUM.mul (NUM.sub s.fmt.MAXD s.OPA) s.OPB) s.fmt.SPM
    (s.STATUS.CFGD = false →
      exec .taps s = .next { s with STATUS := { s.STATUS with E_NOTCFG := true } }) ∧
    (s.STATUS.CFGD = true → bypass → exec .taps s = .next { s with RES := 1#32 }) ∧
    (s.STATUS.CFGD = true → ¬ bypass → ∃ t, exec .taps s = .next t ∧
      t = { s with RES := 0#32, TAPE := t.TAPE, TAPO := t.TAPO } ∧
      (∀ i, i < s.params.T →
        t.TAPE.read i = NUM.add ds (NUM.mul (wave s.params (s.osc i).phase) D) ∧
        t.TAPO.read i =
          if s.OPC = 0#32 then t.TAPE.read i
          else NUM.add ds (NUM.mul (wave s.params (wrap (NUM.add (s.osc i).phase 0x3E800000#32))) D)) ∧
      ∀ i, s.params.T ≤ i → t.TAPE.read i = s.TAPE.read i ∧ t.TAPO.read i = s.TAPO.read i)

/-! ## RENDER -/

/-- 44_engine.md R271: out of contract, RENDER raises E_NOTCFG (no format) or E_PRECOND and every word of
OUT and every field of P becomes a draw of its own, and under E_PRECOND every phase, increment ramp and
delay word too, each cursor some number below N. Nothing else changes. -/
def Obligations.RenderOutOfContractHavocs : Prop :=
  ∀ s : State, s.Inv →
    let W := s.params.MAX_CHANNELS * s.params.MAX_FRAMES_HW
    let inContract := s.OPA.toNat ≤ s.fmt.MAXF ∧ s.OPB.toNat ≤ s.params.MAX_EVENTS ∧
      ∀ k, 1 ≤ k → k < s.OPB.toNat →
        (s.EVQ.read (4 * (k - 1))).toNat ≤ (s.EVQ.read (4 * k)).toNat
    let anyRamp := fun (k : Nat) (R : Ramp) =>
      R = ⟨Config.draw k, Config.draw (k + 1), Config.draw (k + 2), Config.draw (k + 3)⟩
    let havocked := fun (t : State) =>
      (∀ j, j < W → t.OUT.read j = Config.draw (s.draws + j)) ∧
      anyRamp (s.draws + W) t.P.RATE ∧ anyRamp (s.draws + W + 4) t.P.DEPTH ∧
      anyRamp (s.draws + W + 8) t.P.DELAY ∧ anyRamp (s.draws + W + 12) t.P.DRY ∧
      anyRamp (s.draws + W + 16) t.P.WET ∧ anyRamp (s.draws + W + 20) t.P.ODD90
    (s.STATUS.CFGD = false → ∃ t, exec .render s = .next t ∧
      t = { s with
        STATUS := { s.STATUS with E_NOTCFG := true }
        OUT := t.OUT, P := t.P, draws := s.draws + W + 24 } ∧
      havocked t) ∧
    (s.STATUS.CFGD = true → ¬ inContract → ∃ t, exec .render s = .next t ∧
      t = { s with
        STATUS := { s.STATUS with E_PRECOND := true }
        OUT := t.OUT, P := t.P, L := t.L, lines := t.lines, draws := t.draws } ∧
      havocked t ∧ t.L.length = s.params.T ∧ t.lines.length = s.fmt.C ∧
      (∀ i, i < s.params.T → ∃ k, s.draws + W + 24 + 5 * i = k ∧
        (t.osc i).phase = Config.draw k ∧ anyRamp (k + 1) (t.osc i).inc) ∧
      ∀ c, c < s.fmt.C → ∃ k, s.draws + W + 24 + 5 * s.params.T + (s.fmt.N + 1) * c = k ∧
        t.cursor c < s.fmt.N ∧ ∀ j, j < s.fmt.N → t.lineWord c j = Config.draw (k + 1 + j))

/-- R270, R272, 20_memory.md R71: in contract RENDER completes; it writes OUT only at samples f < F of
channels c < C, and leaves IN, EVQ, TAPE, TAPO, RES, the operand registers, the format and every STATUS
bit but E_RANGE; P[RATE] stays where no event names it. -/
def Obligations.RenderInContractCompletes : Prop :=
  ∀ s : State, s.Inv → s.STATUS.CFGD = true → s.OPA.toNat ≤ s.fmt.MAXF →
    s.OPB.toNat ≤ s.params.MAX_EVENTS →
    (∀ k, 1 ≤ k → k < s.OPB.toNat → (s.EVQ.read (4 * (k - 1))).toNat ≤ (s.EVQ.read (4 * k)).toNat) →
    ∃ t, exec .render s = .next t ∧
      t = { s with
        STATUS := { s.STATUS with E_RANGE := t.STATUS.E_RANGE }
        P := t.P, L := t.L, lines := t.lines, OUT := t.OUT, draws := t.draws } ∧
      (s.STATUS.E_RANGE = true → t.STATUS.E_RANGE = true) ∧
      (∀ j, (∀ c f, c < s.fmt.C → f < s.OPA.toNat → j ≠ c * s.params.MAX_FRAMES_HW + f) →
        t.OUT.read j = s.OUT.read j) ∧
      ((∀ k, k < s.OPB.toNat → s.EVQ.read (4 * k + 1) ≠ 0#32) → t.P.RATE = s.P.RATE)

/-- R272: a RENDER of no frames applies its K events in list order and renders nothing: it leaves what K SETP
leave, the k-th of them with event k's id, value and ramp (that a NaN is the same in both is log 5). -/
def Obligations.RenderOfNoFramesAppliesItsEvents : Prop :=
  ∀ s : State, s.STATUS.CFGD = true → s.OPA = 0#32 → renderInContract s 0 s.OPB.toNat = true →
    ∃ u : Nat → State, u 0 = s ∧
      (∀ k, k < s.OPB.toNat → ∃ t,
        exec (.setp (s.EVQ.read (4 * k + 1)).toNat)
          { u k with OPA := s.EVQ.read (4 * k + 2), OPB := s.EVQ.read (4 * k + 3) } = .next t ∧
        u (k + 1) = { t with OPA := s.OPA, OPB := s.OPB }) ∧
      exec .render s = .next (u s.OPB.toNat)

/-- R272, R277 (3): the first event, due at once (its offset is 0, or there are no frames), is applied before
the first frame: the RENDER does what SETP of that event and then the RENDER of the same frames with the K
events that remain do. With RenderSplitsAtAnyFrame, every event takes effect before its frame. That a draw or
a NaN is the same in both runs is the model's choice (log 2, log 5). -/
def Obligations.DueEventIsSetBeforeTheFrames : Prop :=
  ∀ (s : State) (K : Nat) (EVQ2 : Memory), s.STATUS.CFGD = true → s.OPB.toNat = K + 1 →
    renderInContract s s.OPA.toNat (K + 1) = true → (s.OPA = 0#32 ∨ s.EVQ.read 0 = 0#32) →
    (∀ j, j < 4 * K → EVQ2.read j = s.EVQ.read (4 + j)) →
    ∃ t u,
      exec (.setp (s.EVQ.read 1).toNat) { s with OPA := s.EVQ.read 2, OPB := s.EVQ.read 3 } = .next t ∧
      exec .render { t with OPA := s.OPA, OPB := BitVec.ofNat 32 K, EVQ := EVQ2 } = .next u ∧
      exec .render s = .next { u with OPB := s.OPB, EVQ := s.EVQ }

/-- R272: the last event, at an offset past the last frame, is applied after it: the RENDER does what the
RENDER of the same frames with the K events before it and then SETP of that event do. That a draw or a NaN is
the same in both runs is the model's choice (log 2, log 5). -/
def Obligations.LateEventIsSetAfterTheFrames : Prop :=
  ∀ (s : State) (K : Nat), s.STATUS.CFGD = true → s.OPB.toNat = K + 1 →
    renderInContract s s.OPA.toNat (K + 1) = true → s.OPA.toNat ≤ (s.EVQ.read (4 * K)).toNat →
    ∃ t u,
      exec .render { s with OPB := BitVec.ofNat 32 K } = .next t ∧
      exec (.setp (s.EVQ.read (4 * K + 1)).toNat)
        { t with OPA := s.EVQ.read (4 * K + 2), OPB := s.EVQ.read (4 * K + 3) } = .next u ∧
      exec .render s = .next { u with OPA := s.OPA, OPB := s.OPB }

/-- R275, R277 (1): a FLANGE block whose delay value is at rest at ±0.0 (or whose depth is) copies IN to
OUT bit for bit on every channel and frame of an event-free RENDER, touches no delay line, and moves no
oscillator unless BYPASS_ADVANCES_LFO. -/
def Obligations.BypassRenderCopiesTheInput : Prop :=
  ∀ s : State, s.Inv → s.STATUS.CFGD = true → s.params.VARIANT = .FLANGE →
    s.OPA.toNat ≤ s.fmt.MAXF → s.OPB = 0#32 →
    ((s.P.DELAY.remaining = 0#32 ∧ NUM.eq s.P.DELAY.value NUM.zero = true) ∨
      (s.P.DEPTH.remaining = 0#32 ∧ NUM.eq s.P.DEPTH.value NUM.zero = true)) →
    ∃ t, exec .render s = .next t ∧ t.lines = s.lines ∧ t.STATUS = s.STATUS ∧
      (s.params.BYPASS_ADVANCES_LFO = false → t.L = s.L) ∧
      ∀ c f, c < s.fmt.C → f < s.OPA.toNat → t.outSample c f = s.inSample c f

/-- R273, R275: one event-free frame that is bypassed, its delay or depth at ±0.0 after the ramps' one step of
this frame. Each channel's output is its input bit for bit; the five ramps have stepped; the bank advances
once exactly where BYPASS_ADVANCES_LFO; no delay line, cursor or STATUS bit changes, nor anything else. -/
def Obligations.OneBypassedFrameCopiesAndStepsTheRamps : Prop :=
  ∀ s : State, s.Inv → s.STATUS.CFGD = true → s.OPA = 1#32 → s.OPB = 0#32 → s.params.VARIANT = .FLANGE →
    (NUM.eq (rpFrame s.P.DELAY).value NUM.zero = true ∨ NUM.eq (rpFrame s.P.DEPTH).value NUM.zero = true) →
    ∃ t, exec .render s = .next t ∧ t = { s with P := t.P, L := t.L, OUT := t.OUT } ∧
      (∀ c, c < s.fmt.C → t.outSample c 0 = s.inSample c 0) ∧
      (∀ j, (∀ c, c < s.fmt.C → j ≠ c * s.params.MAX_FRAMES_HW) → t.OUT.read j = s.OUT.read j) ∧
      (s.params.BYPASS_ADVANCES_LFO = false → t.L = s.L) ∧
      (s.params.BYPASS_ADVANCES_LFO = true → t.L.length = s.params.T ∧
        ∀ i, i < s.params.T → (t.osc i).inc = rpFrame (s.osc i).inc ∧
          (t.osc i).phase = wrap (NUM.add (s.osc i).phase (rpFrame (s.osc i).inc).value)) ∧
      t.P = { s.P with
        DEPTH := rpFrame s.P.DEPTH, DELAY := rpFrame s.P.DELAY, DRY := rpFrame s.P.DRY
        WET := rpFrame s.P.WET, ODD90 := rpFrame s.P.ODD90 }

/-- R273, R274, R276, R277 (2), 60_exceptions.md R314: one event-free frame that is not bypassed. Each
channel's output is (wet × w) + (dry × x): w the sum from +0.0 over its T taps of the cubic reads, over T,
the reads taken before the channel's sample x is written; even channels use the even set, odd ones the odd
set where odd90 is at least 0.5; all with the parameters' values after their one step of this frame. A
channel with a tap outside the line has an unconstrained output and leaves E_RANGE set; all else of the
frame happens just the same. -/
def Obligations.OneFrameIsTheWetDryMix : Prop :=
  ∀ s : State, s.Inv → s.STATUS.CFGD = true → s.OPA = 1#32 → s.OPB = 0#32 →
    let dly := (rpFrame s.P.DELAY).value
    let dep := (rpFrame s.P.DEPTH).value
    let dry := (rpFrame s.P.DRY).value
    let wet := (rpFrame s.P.WET).value
    let o90 := NUM.le 0x3F000000#32 (rpFrame s.P.ODD90).value
    let taps := fun c : Nat => (List.range s.params.T).map fun i =>
      if c % 2 = 0 then evenTap s dly dep i else oddTap s dly dep o90 i
    let mean := fun c : Nat =>
      NUM.div (((taps c).map (lineRead s.params s.fmt.N (s.line c))).foldl NUM.add 0x00000000#32)
        (toNUM s.params.T)
    tapBypass s.params dly dep = false →
    ∃ t, exec .render s = .next t ∧
      t = { s with
        STATUS := { s.STATUS with E_RANGE := t.STATUS.E_RANGE }
        P := t.P, L := t.L, lines := t.lines, OUT := t.OUT, draws := t.draws } ∧
      (t.STATUS.E_RANGE = true ↔ s.STATUS.E_RANGE = true ∨
        ∃ c, c < s.fmt.C ∧ ∃ x ∈ taps c, offsetInRange s.fmt.N x = false) ∧
      (∀ c, c < s.fmt.C → (∀ x ∈ taps c, offsetInRange s.fmt.N x = true) →
        t.outSample c 0 = NUM.add (NUM.mul wet (mean c)) (NUM.mul dry (s.inSample c 0))) ∧
      (∀ c, c < s.fmt.C → t.line c = (s.line c).write s.fmt.N (s.inSample c 0)) ∧
      (∀ i, i < s.params.T → t.osc i = (s.osc i).increment) ∧
      t.P = { s.P with
        DEPTH := rpFrame s.P.DEPTH, DELAY := rpFrame s.P.DELAY, DRY := rpFrame s.P.DRY
        WET := rpFrame s.P.WET, ODD90 := rpFrame s.P.ODD90 }

/-- R277 (4): on a CHORUS block (no frame is ever bypassed) each delay line after a RENDER of F frames,
whatever its events, is the line before it with that channel's F input samples written in frame order. -/
def Obligations.RenderWritesTheInputIntoTheLines : Prop :=
  ∀ s : State, s.Inv → s.STATUS.CFGD = true → s.params.VARIANT = .CHORUS →
    renderInContract s s.OPA.toNat s.OPB.toNat = true →
    ∃ t, exec .render s = .next t ∧ ∀ c, c < s.fmt.C →
      t.line c = ((List.range s.OPA.toNat).map (s.inSample c)).foldl (fun l x => l.write s.fmt.N x)
        (s.line c)

/-- R277 (5): a RENDER of F1 + F2 frames does what a RENDER of F1 frames with the events before F1 and then a
RENDER of F2 frames with the remaining events and the input moved up by F1 frames do together: the same
parameters, bank, delay lines and status, the outputs of the second one F1 frames earlier. That a draw or a
NaN is the same in both runs is the model's numbering of draws and its choice of NaN bits (log 2, log 5). -/
def Obligations.RenderSplitsAtAnyFrame : Prop :=
  ∀ (s : State) (F1 F2 K1 K2 : Nat), s.Inv → s.STATUS.CFGD = true →
    s.OPA.toNat = F1 + F2 → s.OPB.toNat = K1 + K2 →
    renderInContract s (F1 + F2) (K1 + K2) = true →
    (∀ k, k < K1 → eventOFS s k < F1) →
    (∀ k, K1 ≤ k → k < K1 + K2 → F1 ≤ eventOFS s k ∧ eventOFS s k < F1 + F2) →
    ∃ u t, exec .render s = .next u ∧
      exec .render { s with OPA := BitVec.ofNat 32 F1, OPB := BitVec.ofNat 32 K1 } = .next t ∧
      (∀ c f, c < s.fmt.C → f < F1 → t.outSample c f = u.outSample c f) ∧
      ∀ (IN2 EVQ2 : Memory),
        (∀ c f, c < s.fmt.C → f < F2 →
          IN2.read (c * s.params.MAX_FRAMES_HW + f) = s.inSample c (F1 + f)) →
        (∀ k, k < K2 →
          (EVQ2.read (4 * k)).toNat = eventOFS s (K1 + k) - F1 ∧
          EVQ2.read (4 * k + 1) = s.EVQ.read (4 * (K1 + k) + 1) ∧
          EVQ2.read (4 * k + 2) = s.EVQ.read (4 * (K1 + k) + 2) ∧
          EVQ2.read (4 * k + 3) = s.EVQ.read (4 * (K1 + k) + 3)) →
        ∃ v, exec .render { t with
              OPA := BitVec.ofNat 32 F2, OPB := BitVec.ofNat 32 K2, IN := IN2, EVQ := EVQ2 } = .next v ∧
          v.P = u.P ∧ v.L = u.L ∧ v.lines = u.lines ∧ v.STATUS = u.STATUS ∧ v.draws = u.draws ∧
          ∀ c f, c < s.fmt.C → f < F2 → v.outSample c f = u.outSample c (F1 + f)

/-- R277 (3): the events from number K' on, all at offsets f0 or later, change no output of a frame before
f0: those outputs are the ones of the same RENDER with K' events. Where an output is a draw or a NaN, that
both runs have the same one is the model's choice (log 2, log 5). -/
def Obligations.EventsDoNotReachEarlierFrames : Prop :=
  ∀ (s : State) (K' f0 : Nat), s.Inv → s.STATUS.CFGD = true →
    renderInContract s s.OPA.toNat s.OPB.toNat = true → K' ≤ s.OPB.toNat →
    (∀ k, K' ≤ k → k < s.OPB.toNat → f0 ≤ eventOFS s k) →
    ∃ u t, exec .render s = .next u ∧
      exec .render { s with OPB := BitVec.ofNat 32 K' } = .next t ∧
      ∀ c f, c < s.fmt.C → f < f0 → f < s.OPA.toNat → u.outSample c f = t.outSample c f

/-- 20_memory.md R70: OUT is only written. What OUT holds before a command changes nothing the command does
but the words of OUT it leaves: each word of OUT is left by both runs or has the same value in both. Where a
value is a draw or a NaN, that both runs have the same one is the model's choice (log 2, log 5). -/
def Obligations.NoCommandReadsOut : Prop :=
  ∀ (i : Instr) (s : State) (m : Memory) (t : State), exec i s = .next t →
    ∃ t', exec i { s with OUT := m } = .next t' ∧ t' = { t with OUT := t'.OUT } ∧
      ∀ j, j < s.params.MAX_CHANNELS * s.params.MAX_FRAMES_HW →
        (t.OUT.read j = s.OUT.read j ∧ t'.OUT.read j = m.read j) ∨ t'.OUT.read j = t.OUT.read j

/-! ## Rules about all commands -/

/-- 10_state.md R36: a sticky bit, once 1, stays 1 at every step but hardware reset; to raise an error sets
its bit, and changes no other bit of STATUS and no other state. -/
def Obligations.StickyBitsStaySetUntilReset : Prop :=
  (∀ (s t : State), step s = .next t → (∀ rest, s.inputs ≠ .reset :: rest) →
    ∀ e : Err, s.STATUS.has e = true → t.STATUS.has e = true) ∧
  ∀ (s : State) (e : Err),
    s.raise e = { s with STATUS := (s.raise e).STATUS } ∧ (s.raise e).STATUS.has e = true ∧
    (s.raise e).STATUS.CFGD = s.STATUS.CFGD ∧ ∀ e', e' ≠ e → (s.raise e).STATUS.has e' = s.STATUS.has e'

/-- 10_state.md R37: CFG alone changes CFGD, and leaves it 1 exactly when its operands are valid. -/
def Obligations.CfgdSaysTheLastCfgWasValid : Prop :=
  ∀ (i : Instr) (s t : State), exec i s = .next t →
    (i ≠ .cfg → t.STATUS.CFGD = s.STATUS.CFGD) ∧
    (i = .cfg → (t.STATUS.CFGD = true ↔
      cfgValid s.params s.OPA.toNat s.OPB s.OPC.toNat s.OPD = true))

/-- 60_exceptions.md R311 to R315, R317: which command sets which bit and when. No command sets E_ILL;
E_NOTCFG is set by the eight that need a format, exactly when CFGD = 0; E_SEL by a test-port command whose
selector names no component, once E_NOTCFG is passed; E_PRECOND by an invalid CFG or an out-of-contract
RENDER; E_RANGE by DLRD of a channel that exists at an offset outside the line, and otherwise by an
in-contract RENDER alone (when by one frame: OneFrameIsTheWetDryMix). -/
def Obligations.EachErrorBitIsSetExactlyWhen : Prop :=
  ∀ (i : Instr) (s t : State), exec i s = .next t →
    t.STATUS.E_ILL = s.STATUS.E_ILL ∧
    t.STATUS.E_NOTCFG = (s.STATUS.E_NOTCFG || (i.needsFormat && !s.STATUS.CFGD)) ∧
    t.STATUS.E_SEL = (s.STATUS.E_SEL ||
      (i.badSelector s && (!i.needsFormat || s.STATUS.CFGD))) ∧
    t.STATUS.E_PRECOND = (s.STATUS.E_PRECOND ||
      (decide (i = .cfg) && !cfgValid s.params s.OPA.toNat s.OPB s.OPC.toNat s.OPD) ||
      (decide (i = .render) && s.STATUS.CFGD && !renderInContract s s.OPA.toNat s.OPB.toNat)) ∧
    (∀ c, i = .dlrd c → t.STATUS.E_RANGE = (s.STATUS.E_RANGE ||
      (s.STATUS.CFGD && decide (c < s.fmt.C) && !offsetInRange s.fmt.N s.OPA))) ∧
    (t.STATUS.E_RANGE ≠ s.STATUS.E_RANGE → (∃ c, i = .dlrd c) ∨
      (i = .render ∧ s.STATUS.CFGD = true ∧ renderInContract s s.OPA.toNat s.OPB.toNat = true))

/-- 60_exceptions.md R317: one command sets at most one of E_NOTCFG, E_SEL and E_PRECOND anew. -/
def Obligations.OneCommandRecordsAtMostOneError : Prop :=
  ∀ (i : Instr) (s t : State), exec i s = .next t →
    ∀ e e' : Err, e ≠ .E_RANGE → e' ≠ .E_RANGE →
      s.STATUS.has e = false → t.STATUS.has e = true →
      s.STATUS.has e' = false → t.STATUS.has e' = true → e = e'

/-- Every command completes, and none writes the operand registers (10_state.md R32), IN or EVQ (20_memory.md
R70), nor the build parameters, so none switches the variant (00_scope.md R3). -/
def Obligations.CommandsCompleteAndKeepTheHostsState : Prop :=
  ∀ (i : Instr) (s : State), ∃ t, exec i s = .next t ∧
    t.OPA = s.OPA ∧ t.OPB = s.OPB ∧ t.OPC = s.OPC ∧ t.OPD = s.OPD ∧ t.IN = s.IN ∧ t.EVQ = s.EVQ ∧
    t.params = s.params ∧ t.inputs = s.inputs

/-- 10_state.md R33, R38, R45, 20_memory.md R70: RES is written only by the eight commands with a result,
the format by CFG, TAPE and TAPO by TAPS, OUT by RENDER, the delay lines by CFG, DLWR and RENDER, the
bank by CFG, SETP, LFOSF, LFOINC and RENDER, the parameter file by SETP, RPSET, RPFRM and RENDER. -/
def Obligations.EachStateElementHasItsWriters : Prop :=
  ∀ (i : Instr) (s t : State), exec i s = .next t →
    (i.writesRES = false → t.RES = s.RES) ∧
    (i ≠ .cfg → t.fmt = s.fmt) ∧
    (i ≠ .taps → t.TAPE = s.TAPE ∧ t.TAPO = s.TAPO) ∧
    (i ≠ .render → t.OUT = s.OUT) ∧
    (i ≠ .cfg → i ≠ .render → (∀ c, i ≠ .dlwr c) → t.lines = s.lines) ∧
    (i ≠ .cfg → i ≠ .render → (∀ p, i ≠ .setp p) → (∀ k, i ≠ .lfosf k) → (∀ k, i ≠ .lfoinc k) →
      t.L = s.L) ∧
    (i ≠ .render → (∀ p, i ≠ .setp p) → (∀ p, i ≠ .rpset p) → (∀ p, i ≠ .rpfrm p) → t.P = s.P)

/-! ## Runs of several commands -/

/-- R204 (1): after RPSET of target t over n ≥ 1 frames, n RPFRM leave the parameter's value at t bit for
bit with nothing remaining, the n-th answers t, and so does every later one. -/
def Obligations.RampReachesItsTargetExactly : Prop :=
  ∀ (s : State) (p : ParamId) (later : Nat), 1 ≤ s.OPB.toNat →
    ∃ t, Host.Core.run Sys2Proof.core (1 + s.OPB.toNat + later)
        (s.withCommands (.rpset p.toNat :: List.replicate (s.OPB.toNat + later) (.rpfrm p.toNat))) =
          .next t ∧
      (t.P.get p).value = s.OPA ∧ (t.P.get p).target = s.OPA ∧ (t.P.get p).remaining = 0#32 ∧
      t.RES = s.OPA ∧ t.inputs = s.inputs

/-- R204 (2): the k-th RPFRM of a ramp of n > k frames answers the start value with k binary32 additions of
the step. -/
def Obligations.PartialRampAddsTheStepEachFrame : Prop :=
  ∀ (s : State) (p : ParamId) (k : Nat), 1 ≤ k → k < s.OPB.toNat →
    ∃ t, Host.Core.run Sys2Proof.core (1 + k)
        (s.withCommands (.rpset p.toNat :: List.replicate k (.rpfrm p.toNat))) = .next t ∧
      t.RES = (fun v => NUM.add v (NUM.div (NUM.sub s.OPA (s.P.get p).value) (toNUM s.OPB.toNat)))^[k]
        (s.P.get p).value

/-- 41_oscillator.md R176: with the constant increment 1/m, m = 2^j ≤ 2^24, and phase 0.0, m LFOINC return the
phase to exactly +0.0. -/
def Obligations.FullCycleReturnsToPhaseZero : Prop :=
  ∀ (s : State) (i j : Nat), s.Inv → s.STATUS.CFGD = true → i < s.params.T → j ≤ 24 →
    (s.osc i).phase = 0#32 → (s.osc i).inc.remaining = 0#32 →
    (s.osc i).inc.value = BitVec.ofNat 32 ((127 - j) * 2 ^ 23) →
    ∃ t, Host.Core.run Sys2Proof.core (2 ^ j) (s.withCommands (List.replicate (2 ^ j) (.lfoinc i))) =
        .next t ∧
      (t.osc i).phase = 0#32 ∧ (t.osc i).inc = (s.osc i).inc

/-- R141, R147 (1), 95_test_vectors.md W1: a finite sample just written is read back at offset 1, and with
READ_BIAS = 1 at offset 0, bit for bit, −0.0 as +0.0, whatever finite samples the line holds (where the inner
sums of R144 overflow, by log 15). -/
def Obligations.WrittenSampleIsReadAtOffsetOne : Prop :=
  ∀ (s : State) (c : Nat) (x : NUM), s.Inv → s.STATUS.CFGD = true → c < s.fmt.C →
    (∀ j, j < s.fmt.N → NUM.isFinite (s.lineWord c j) = true) → NUM.isFinite x = true → s.OPA = x →
    ∃ t u, exec (.dlwr c) s = .next t ∧
      exec (.dlrd c) { t with OPA := if s.params.READ_BIAS then 0x00000000#32 else 0x3F800000#32 } = .next u ∧
      u.RES = if x = 0x80000000#32 then 0x00000000#32 else x

/-- 44_engine.md R262, 70_reset_and_hazards.md R343: right after a valid CFG every read inside the line is
silence, +0.0. -/
def Obligations.ReadsAfterCfgAreSilent : Prop :=
  ∀ (s t : State) (c : Nat) (x : NUM), cfgValid s.params s.OPA.toNat s.OPB s.OPC.toNat s.OPD = true →
    exec .cfg s = .next t → c < t.fmt.C → offsetInRange t.fmt.N x = true →
    ∃ u, exec (.dlrd c) { t with OPA := x } = .next u ∧ u.RES = 0x00000000#32

/-! ## Invariants -/

/-- Every step keeps the machine's invariant: memories canonical and inside their spaces (20_memory.md R70),
bank and delay lines present exactly while CFGD = 1 with the sizes of the format, cursors below N
(10_state.md R38, R40, R41, R44 (3)). -/
def Obligations.StepKeepsTheInvariant : Prop :=
  ∀ s t : State, s.Inv → step s = .next t → t.Inv

/-- The invariant holds after reset, for every parameter set. -/
def Obligations.ResetMeetsTheInvariant : Prop :=
  ∀ p : Params, (State.resetFor p).Inv

/-- 10_state.md R44 (1) and (2): every step keeps every ramp record at rest on its target and every phase in
[0.0, 1.0), until a havoc (E_PRECOND, or E_NOTCFG for the parameters, R271) voids it. That a non-finite
phase sum wraps into [0.0, 1.0) is the model's choice (log 8). -/
def Obligations.StepKeepsRampsSettledAndPhasesInCycle : Prop :=
  ∀ s t : State, s.Inv → s.Settled → step s = .next t → t.Settled

/-- Ramps are settled after reset, for every parameter set. -/
def Obligations.ResetRampsAreSettled : Prop :=
  ∀ p : Params, (State.resetFor p).Settled
end

