-- ==== Sys2Proof/Laws/Float.lean ====
section
/-!
SUPPORT. The laws of NUM arithmetic: the fields of a packed NUM, the classes of NUMs by their magnitude
bits, the magnitude as a strictly increasing function of those bits, and the one rounding function:
it returns a value that is nearest, ties to even, and returns an exact value unchanged.
-/

namespace Sys2Proof.Machine

/-! ## Fields -/

theorem NUM.toNat_lt (x : NUM) : x.toNat < 2 ^ 32 := x.isLt

theorem NUM.magBits_lt (x : NUM) : NUM.magBits x < 2 ^ 31 := Nat.mod_lt _ (by norm_num)

theorem NUM.expField_eq (x : NUM) : NUM.expField x = NUM.magBits x / 2 ^ 23 := by
  have := NUM.toNat_lt x
  simp only [NUM.expField, NUM.magBits]; omega

theorem NUM.fracField_eq (x : NUM) : NUM.fracField x = NUM.magBits x % 2 ^ 23 := by
  simp only [NUM.fracField, NUM.magBits]; omega

theorem NUM.isFinite_iff (x : NUM) : NUM.isFinite x = true ↔ NUM.magBits x < 0x7F800000 := by
  have := NUM.magBits_lt x
  simp only [NUM.isFinite, NUM.expField_eq, bne_iff_ne, ne_eq]; omega

theorem NUM.isInf_iff (x : NUM) : NUM.isInf x = true ↔ NUM.magBits x = 0x7F800000 := by
  have := NUM.magBits_lt x
  simp only [NUM.isInf, NUM.expField_eq, NUM.fracField_eq, Bool.and_eq_true, beq_iff_eq]; omega

theorem NUM.isNaN_iff (x : NUM) : NUM.isNaN x = true ↔ 0x7F800000 < NUM.magBits x := by
  have := NUM.magBits_lt x
  simp only [NUM.isNaN, NUM.expField_eq, NUM.fracField_eq, Bool.and_eq_true, beq_iff_eq, bne_iff_ne]
  omega

theorem NUM.isZero_iff (x : NUM) : NUM.isZero x = true ↔ NUM.magBits x = 0 := by simp [NUM.isZero]

theorem NUM.isNaN_of_finite {x : NUM} (h : NUM.isFinite x = true) : NUM.isNaN x = false := by
  rw [NUM.isFinite_iff] at h
  rw [Bool.eq_false_iff, ne_eq, NUM.isNaN_iff]; omega

theorem NUM.isInf_of_finite {x : NUM} (h : NUM.isFinite x = true) : NUM.isInf x = false := by
  rw [NUM.isFinite_iff] at h
  rw [Bool.eq_false_iff, ne_eq, NUM.isInf_iff]; omega

theorem NUM.isFinite_of_not {x : NUM} (h : NUM.isNaN x = false) (h' : NUM.isInf x = false) :
    NUM.isFinite x = true := by
  rw [Bool.eq_false_iff, ne_eq, NUM.isNaN_iff] at h
  rw [Bool.eq_false_iff, ne_eq, NUM.isInf_iff] at h'
  rw [NUM.isFinite_iff]; omega

/-! ## Packing -/

theorem NUM.pack_toNat (neg : Bool) {b : Nat} (h : b < 2 ^ 31) :
    (NUM.pack neg b).toNat = (if neg then 2 ^ 31 else 0) + b := by
  simp only [NUM.pack, BitVec.toNat_ofNat]
  apply Nat.mod_eq_of_lt
  split <;> omega

@[simp] theorem NUM.pack_magBits (neg : Bool) {b : Nat} (h : b < 2 ^ 31) :
    NUM.magBits (NUM.pack neg b) = b := by
  rw [NUM.magBits, NUM.pack_toNat neg h]
  split <;> omega

@[simp] theorem NUM.pack_neg (neg : Bool) {b : Nat} (h : b < 2 ^ 31) :
    NUM.neg (NUM.pack neg b) = neg := by
  rw [NUM.neg, NUM.pack_toNat neg h]
  cases neg <;> simp; omega

theorem NUM.toNat_eq (x : NUM) : x.toNat = (if NUM.neg x then 2 ^ 31 else 0) + NUM.magBits x := by
  have := NUM.toNat_lt x
  simp only [NUM.neg, NUM.magBits, decide_eq_true_eq]
  split <;> omega

/-- A NUM is its sign and its magnitude bits. -/
@[simp] theorem NUM.pack_self (x : NUM) : NUM.pack (NUM.neg x) (NUM.magBits x) = x := by
  apply BitVec.eq_of_toNat_eq
  rw [NUM.pack_toNat _ (NUM.magBits_lt x), ← NUM.toNat_eq]

theorem NUM.ext {x y : NUM} (h : NUM.neg x = NUM.neg y) (h' : NUM.magBits x = NUM.magBits y) : x = y := by
  rw [← NUM.pack_self x, ← NUM.pack_self y, h, h']

/-- Every NaN an operation gives is a NaN (00_scope.md R11). -/
@[simp] theorem NUM.isNaN_nan (op : FpOp) (a b : NUM) : NUM.isNaN (NUM.nan op a b) = true := by
  have h := (Config.nanBits op a b).2.isLt
  rw [NUM.isNaN_iff, NUM.nan, NUM.pack_magBits _ (by omega)]
  omega

/-! ## The magnitude as a function of the magnitude bits -/

/-- The magnitude, in units of 2^-149, of the NUM with magnitude bits b (and beyond the format, as if
exponents went on). -/
def magOf (b : Nat) : Nat := if b / 2 ^ 23 = 0 then b % 2 ^ 23 else (2 ^ 23 + b % 2 ^ 23) * 2 ^ (b / 2 ^ 23 - 1)

theorem NUM.mag_eq (x : NUM) : NUM.mag x = magOf (NUM.magBits x) := by
  rw [NUM.mag, NUM.expField_eq, NUM.fracField_eq, magOf]

/-- Significand m at scale sh: packed as `sh * 2^23 + m`, a carry to 2^24 included. -/
theorem magOf_packed {sh m : Nat} (hm : m ≤ 2 ^ 24) (hlo : sh = 0 ∨ 2 ^ 23 ≤ m) :
    magOf (sh * 2 ^ 23 + m) = m * 2 ^ sh := by
  unfold magOf
  by_cases h1 : m < 2 ^ 23
  · obtain rfl : sh = 0 := by omega
    rw [if_pos (by omega)]
    simp; omega
  · by_cases h2 : m = 2 ^ 24
    · subst h2
      have e1 : (sh * 2 ^ 23 + 2 ^ 24) / 2 ^ 23 = sh + 2 := by omega
      have e2 : (sh * 2 ^ 23 + 2 ^ 24) % 2 ^ 23 = 0 := by omega
      rw [e1, e2, if_neg (by omega)]
      rw [show sh + 2 - 1 = sh + 1 by omega, pow_succ]
      ring
    · have e1 : (sh * 2 ^ 23 + m) / 2 ^ 23 = sh + 1 := by omega
      have e2 : (sh * 2 ^ 23 + m) % 2 ^ 23 = m - 2 ^ 23 := by omega
      rw [e1, e2, if_neg (by omega), show 2 ^ 23 + (m - 2 ^ 23) = m by omega]
      rfl

/-- Every number of magnitude bits is a scale and a significand. -/
theorem exists_packed (b : Nat) : ∃ sh m, b = sh * 2 ^ 23 + m ∧ m < 2 ^ 24 ∧ (sh = 0 ∨ 2 ^ 23 ≤ m) := by
  by_cases h : b < 2 ^ 24
  · exact ⟨0, b, by omega, h, .inl rfl⟩
  · exact ⟨b / 2 ^ 23 - 1, b % 2 ^ 23 + 2 ^ 23, by omega, by omega, .inr (by omega)⟩

theorem magOf_lt_succ (b : Nat) : magOf b < magOf (b + 1) := by
  obtain ⟨sh, m, rfl, hm, hlo⟩ := exists_packed b
  rw [magOf_packed hm.le hlo, add_assoc, magOf_packed (by omega) (by omega)]
  exact Nat.mul_lt_mul_of_pos_right (by omega) (by positivity)

theorem magOf_strictMono : StrictMono magOf := strictMono_nat_of_lt_succ magOf_lt_succ

theorem magOf_zero : magOf 0 = 0 := by simp [magOf]

/-! ## Rounding -/

/-- The division rounds to a nearest multiple. -/
theorem divNearestEven_le (num : Nat) {den : Nat} (hd : 0 < den) (k : Nat) :
    |(divNearestEven num den : ℤ) * den - num| ≤ |(k : ℤ) * den - num| := by
  have h := Nat.div_add_mod num den
  have hr := Nat.mod_lt num hd
  set q := num / den
  set r := num % den
  have hnum : (num : ℤ) = den * q + r := by exact_mod_cast h.symm
  have hk : (k : ℤ) ≤ q ∨ (q : ℤ) + 1 ≤ k := by omega
  have hd' : (0 : ℤ) < den := by exact_mod_cast hd
  have hr' : (r : ℤ) < den := by exact_mod_cast hr
  have hr0 : (0 : ℤ) ≤ r := by positivity
  have klo : (k : ℤ) ≤ q → (r : ℤ) ≤ |(k : ℤ) * den - num| := fun h => by
    rw [abs_of_nonpos] <;> nlinarith
  have khi : (q : ℤ) + 1 ≤ k → (den : ℤ) - r ≤ |(k : ℤ) * den - num| := fun h => by
    rw [abs_of_nonneg] <;> nlinarith
  unfold divNearestEven
  simp only
  split
  · rename_i hc
    have hc' : (den : ℤ) ≤ 2 * r := by rcases hc with hc | hc <;> [exact_mod_cast hc.le; exact_mod_cast hc.1.ge]
    have e : |((q + 1 : ℕ) : ℤ) * den - num| = den - r := by
      rw [abs_of_nonneg] <;> push_cast <;> nlinarith
    rw [e]
    rcases hk with hk | hk
    · have := klo hk; linarith
    · exact khi hk
  · rename_i hc
    have hc' : (2 : ℤ) * r ≤ den := by
      by_contra hh
      exact hc (.inl (by push Not at hh; exact_mod_cast hh))
    have e : |(q : ℤ) * den - num| = r := by
      rw [abs_of_nonpos] <;> nlinarith
    rw [e]
    rcases hk with hk | hk
    · exact klo hk
    · have := khi hk; linarith

/-- At a tie the division rounds to the even multiple. -/
theorem divNearestEven_tie (num : Nat) {den : Nat} (hd : 0 < den) {k : Nat}
    (ht : |(divNearestEven num den : ℤ) * den - num| = |(k : ℤ) * den - num|)
    (hk : k ≠ divNearestEven num den) : divNearestEven num den % 2 = 0 := by
  have h := Nat.div_add_mod num den
  have hr := Nat.mod_lt num hd
  unfold divNearestEven at ht hk ⊢
  simp only at ht hk ⊢
  set q := num / den
  set r := num % den
  have hnum : (num : ℤ) = den * q + r := by exact_mod_cast h.symm
  have hd' : (0 : ℤ) < den := by exact_mod_cast hd
  have hr' : (r : ℤ) < den := by exact_mod_cast hr
  have hr0 : (0 : ℤ) ≤ r := by positivity
  split at ht
  · rename_i hc
    rw [if_pos hc] at hk ⊢
    have e : |((q + 1 : ℕ) : ℤ) * den - num| = den - r := by
      rw [abs_of_nonneg] <;> push_cast <;> nlinarith
    rw [e] at ht
    rcases Nat.lt_or_ge k (q + 1) with hlt | hge
    · have hq : (k : ℤ) ≤ q := by omega
      rw [abs_of_nonpos (by nlinarith)] at ht
      rcases hc with hc | hc
      · have hc' : (den : ℤ) < 2 * r := by exact_mod_cast hc
        nlinarith
      · omega
    · have hq : (q : ℤ) + 2 ≤ k := by omega
      rw [abs_of_nonneg (by nlinarith)] at ht
      nlinarith
  · rename_i hc
    rw [if_neg hc] at hk ⊢
    have e : |(q : ℤ) * den - num| = r := by
      rw [abs_of_nonpos] <;> nlinarith
    rw [e] at ht
    have hc' : (2 : ℤ) * r ≤ den := by
      by_contra hh
      exact hc (.inl (by push Not at hh; exact_mod_cast hh))
    rcases Nat.lt_or_ge k q with hlt | hge
    · have hq : (k : ℤ) + 1 ≤ q := by omega
      rw [abs_of_nonpos (by nlinarith)] at ht
      nlinarith
    · have hq : (q : ℤ) + 1 ≤ k := by omega
      rw [abs_of_nonneg (by nlinarith)] at ht
      have h2 : 2 * r = den := by
        have : (2 : ℤ) * r = den := by nlinarith
        exact_mod_cast this
      by_contra hodd
      exact hc (.inr ⟨h2, by omega⟩)

theorem divNearestEven_mul (k : Nat) {den : Nat} (hd : 0 < den) : divNearestEven (k * den) den = k := by
  unfold divNearestEven
  simp only [Nat.mul_mod_left, Nat.mul_div_cancel _ hd]
  rw [if_neg]
  omega

theorem divNearestEven_bounds (num : Nat) {den lo hi : Nat} (hd : 0 < den) (hlo : lo * den ≤ num)
    (hhi : num < hi * den) : lo ≤ divNearestEven num den ∧ divNearestEven num den ≤ hi := by
  have h1 : lo ≤ num / den := (Nat.le_div_iff_mul_le hd).2 hlo
  have h2 : num / den < hi := (Nat.div_lt_iff_lt_mul hd).2 hhi
  unfold divNearestEven
  simp only
  split <;> omega

/-- The scale rounding works at. -/
def roundScale (num den : Nat) : Nat := Nat.log2 (num / den) - 23

/-- The rounded significand. -/
def roundSig (num den : Nat) : Nat := divNearestEven num (den * 2 ^ roundScale num den)

theorem NUM.roundBits_eq (num den : Nat) :
    NUM.roundBits num den = min (roundScale num den * 2 ^ 23 + roundSig num den) 0x7F800000 := rfl

theorem roundScale_spec (num : Nat) {den : Nat} (hd : 0 < den) :
    num < 2 ^ 24 * (den * 2 ^ roundScale num den) ∧
    (roundScale num den = 0 ∨ 2 ^ 23 * (den * 2 ^ roundScale num den) ≤ num) := by
  have hq : num / den < 2 ^ (Nat.log2 (num / den) + 1) := Nat.lt_log2_self
  have hup : num < 2 ^ (Nat.log2 (num / den) + 1) * den := (Nat.div_lt_iff_lt_mul hd).1 hq
  have hle : Nat.log2 (num / den) + 1 ≤ 24 + roundScale num den := by unfold roundScale; omega
  have hpow := Nat.pow_le_pow_right (n := 2) (by norm_num) hle
  refine ⟨?_, ?_⟩
  · calc num < 2 ^ (Nat.log2 (num / den) + 1) * den := hup
      _ ≤ 2 ^ (24 + roundScale num den) * den := Nat.mul_le_mul_right _ hpow
      _ = 2 ^ 24 * (den * 2 ^ roundScale num den) := by rw [pow_add]; ring
  · by_cases h0 : roundScale num den = 0
    · exact .inl h0
    · right
      have hlog : Nat.log2 (num / den) = 23 + roundScale num den := by unfold roundScale at h0 ⊢; omega
      have hne : num / den ≠ 0 := by
        intro hz
        rw [hz] at hlog
        simp at hlog
        omega
      have hlo : 2 ^ (23 + roundScale num den) ≤ num / den := hlog ▸ Nat.log2_self_le hne
      calc 2 ^ 23 * (den * 2 ^ roundScale num den) = 2 ^ (23 + roundScale num den) * den := by
            rw [pow_add]; ring
        _ ≤ num := (Nat.le_div_iff_mul_le hd).1 hlo

theorem roundSig_spec (num : Nat) {den : Nat} (hd : 0 < den) :
    roundSig num den ≤ 2 ^ 24 ∧ (roundScale num den = 0 ∨ 2 ^ 23 ≤ roundSig num den) := by
  obtain ⟨h1, h2⟩ := roundScale_spec num hd
  have hd' : 0 < den * 2 ^ roundScale num den := by positivity
  refine ⟨(divNearestEven_bounds num (lo := 0) hd' (by simp) h1).2, ?_⟩
  rcases h2 with h2 | h2
  · exact .inl h2
  · exact .inr (divNearestEven_bounds num hd' h2 h1).1

/-- The magnitude of what rounding returns, before the cut at infinity. -/
theorem magOf_round (num : Nat) {den : Nat} (hd : 0 < den) :
    magOf (roundScale num den * 2 ^ 23 + roundSig num den) = roundSig num den * 2 ^ roundScale num den :=
  magOf_packed (roundSig_spec num hd).1 (roundSig_spec num hd).2

/-- Rounding returns a magnitude nearest to num/den, among all magnitudes (before the cut at infinity). -/
theorem round_nearest (num : Nat) {den : Nat} (hd : 0 < den) (b : Nat) :
    |(magOf (roundScale num den * 2 ^ 23 + roundSig num den) : ℤ) * den - num| ≤
      |(magOf b : ℤ) * den - num| := by
  rw [magOf_round num hd]
  set sh := roundScale num den with hsh
  obtain ⟨hhi, hlo⟩ := roundScale_spec num hd
  rw [← hsh] at hhi hlo
  have hd' : 0 < den * 2 ^ sh := by positivity
  have hn := fun k => divNearestEven_le num hd' k
  have key : ∀ k : Nat, |(roundSig num den : ℤ) * 2 ^ sh * den - num| ≤ |(k : ℤ) * 2 ^ sh * den - num| := by
    intro k
    have := hn k
    push_cast at this
    rw [roundSig, ← hsh]
    convert this using 2 <;> ring
  obtain ⟨sh', m, rfl, hm, hml⟩ := exists_packed b
  rw [magOf_packed hm.le hml]
  push_cast
  rcases Nat.lt_or_ge sh' sh with hlt | hge
  · have h2 : 2 ^ 23 * (den * 2 ^ sh) ≤ num := by
      rcases hlo with h | h
      · omega
      · exact h
    refine (key (2 ^ 23)).trans ?_
    have hle : m * 2 ^ sh' ≤ 2 ^ 23 * 2 ^ sh := by
      calc m * 2 ^ sh' ≤ 2 ^ 24 * 2 ^ sh' := Nat.mul_le_mul_right _ hm.le
        _ = 2 ^ 23 * 2 ^ (sh' + 1) := by rw [pow_succ]; ring
        _ ≤ 2 ^ 23 * 2 ^ sh := Nat.mul_le_mul_left _ (Nat.pow_le_pow_right (by norm_num) hlt)
    have hle' : ((m * 2 ^ sh' : ℕ) : ℤ) ≤ ((2 ^ 23 * 2 ^ sh : ℕ) : ℤ) := by exact_mod_cast hle
    have h2' : ((2 ^ 23 * (den * 2 ^ sh) : ℕ) : ℤ) ≤ (num : ℤ) := by exact_mod_cast h2
    have hd0 : (0 : ℤ) ≤ den := by positivity
    push_cast at hle' h2' ⊢
    rw [abs_of_nonpos (by nlinarith), abs_of_nonpos (by nlinarith)]
    nlinarith
  · obtain ⟨j, rfl⟩ := Nat.exists_eq_add_of_le hge
    have := key (m * 2 ^ j)
    refine this.trans (le_of_eq ?_)
    push_cast
    rw [pow_add]
    ring_nf

/-- A magnitude of the format is returned unchanged. -/
theorem NUM.roundBits_exact {b den : Nat} (hb : b ≤ 0x7F800000) (hd : 0 < den) :
    NUM.roundBits (magOf b * den) den = b := by
  rw [NUM.roundBits_eq]
  have h := round_nearest (magOf b * den) hd b
  set B := roundScale (magOf b * den) den * 2 ^ 23 + roundSig (magOf b * den) den
  rw [show ((magOf b * den : ℕ) : ℤ) = magOf b * den by push_cast; rfl, sub_self, abs_zero] at h
  have h0 := abs_eq_zero.1 (le_antisymm h (abs_nonneg _))
  have hd' : (den : ℤ) ≠ 0 := by positivity
  have hm : (magOf B : ℤ) = magOf b := mul_right_cancel₀ hd' (by linarith)
  have hB : B = b := magOf_strictMono.injective (by exact_mod_cast hm)
  omega

theorem NUM.roundBits_le (num den : Nat) : NUM.roundBits num den ≤ 0x7F800000 := min_le_right _ _

theorem NUM.roundBits_lt (num den : Nat) : NUM.roundBits num den < 2 ^ 31 :=
  Nat.lt_of_le_of_lt (NUM.roundBits_le num den) (by norm_num)

@[simp] theorem NUM.round_neg (neg : Bool) (num den : Nat) : NUM.neg (NUM.round neg num den) = neg :=
  NUM.pack_neg neg (NUM.roundBits_lt num den)

@[simp] theorem NUM.round_magBits (neg : Bool) (num den : Nat) :
    NUM.magBits (NUM.round neg num den) = NUM.roundBits num den :=
  NUM.pack_magBits neg (NUM.roundBits_lt num den)

/-- Rounding is monotone: a value at or below a magnitude of the format rounds at or below it. -/
theorem NUM.roundBits_le_of_le {num den b : Nat} (hd : 0 < den) (h : num ≤ magOf b * den) :
    NUM.roundBits num den ≤ b := by
  rw [NUM.roundBits_eq]
  by_contra hlt
  push Not at hlt
  set B := roundScale num den * 2 ^ 23 + roundSig num den
  have hB : b < B := by omega
  have hn := round_nearest num hd b
  have hm := magOf_strictMono hB
  have hn' : (num : ℤ) ≤ magOf b * den := by exact_mod_cast h
  have hm' : (magOf b : ℤ) < magOf B := by exact_mod_cast hm
  have hd' : (0 : ℤ) < den := by exact_mod_cast hd
  rw [abs_of_nonneg (by nlinarith), abs_of_nonneg (by nlinarith)] at hn
  nlinarith

/-- Rounding is monotone from below. -/
theorem NUM.le_roundBits_of_le {num den b : Nat} (hd : 0 < den) (hb : b ≤ 0x7F800000)
    (h : magOf b * den ≤ num) : b ≤ NUM.roundBits num den := by
  rw [NUM.roundBits_eq]
  refine le_min ?_ hb
  by_contra hlt
  push Not at hlt
  set B := roundScale num den * 2 ^ 23 + roundSig num den
  have hn := round_nearest num hd b
  have hm := magOf_strictMono hlt
  have hn' : (magOf b : ℤ) * den ≤ num := by exact_mod_cast h
  have hm' : (magOf B : ℤ) < magOf b := by exact_mod_cast hm
  have hd' : (0 : ℤ) < den := by exact_mod_cast hd
  rw [abs_of_nonpos (by nlinarith), abs_of_nonpos (by nlinarith)] at hn
  nlinarith

end Sys2Proof.Machine
end

