-- ==== Sys2Proof/Laws/Arith.lean ====
section
/-!
SUPPORT. What rounding returns as a real value, the exact cases of the operations, toNUM of small integers,
comparisons as comparisons of magnitude bits, and the range of wrap.
-/

namespace Sys2Proof.Machine

/-! ## Real values -/

theorem NUM.units_eq (x : NUM) :
    NUM.units x = if NUM.neg x then -(magOf (NUM.magBits x) : ℤ) else (magOf (NUM.magBits x) : ℤ) := by
  rw [NUM.units, NUM.mag_eq]

@[simp] theorem NUM.units_flipSign (x : NUM) : NUM.units (NUM.flipSign x) = -NUM.units x := by
  rw [NUM.units_eq, NUM.units_eq, NUM.flipSign, NUM.pack_neg _ (NUM.magBits_lt x),
    NUM.pack_magBits _ (NUM.magBits_lt x)]
  cases NUM.neg x <;> simp

@[simp] theorem NUM.neg_flipSign (x : NUM) : NUM.neg (NUM.flipSign x) = !NUM.neg x :=
  NUM.pack_neg _ (NUM.magBits_lt x)

@[simp] theorem NUM.magBits_flipSign (x : NUM) : NUM.magBits (NUM.flipSign x) = NUM.magBits x :=
  NUM.pack_magBits _ (NUM.magBits_lt x)

theorem NUM.isInf_flipSign (x : NUM) : NUM.isInf (NUM.flipSign x) = NUM.isInf x := by
  rw [Bool.eq_iff_iff, NUM.isInf_iff, NUM.isInf_iff, NUM.magBits_flipSign]

theorem magOf_eq_zero {b : Nat} : magOf b = 0 ↔ b = 0 := by
  constructor
  · intro h
    exact magOf_strictMono.injective (h.trans magOf_zero.symm)
  · rintro rfl; exact magOf_zero

theorem NUM.units_eq_zero (x : NUM) : NUM.units x = 0 ↔ NUM.isZero x = true := by
  rw [NUM.isZero_iff, NUM.units_eq]
  split <;> simp [magOf_eq_zero]

theorem magOf_one : magOf 0x3F800000 = NUM.one149 := by
  rw [show 0x3F800000 = 126 * 2 ^ 23 + 2 ^ 23 by norm_num, magOf_packed (by norm_num) (by norm_num),
    NUM.one149]
  norm_num

theorem magOf_max : magOf 0x7F7FFFFF = 33554430 * 2 ^ 252 := by
  rw [show 0x7F7FFFFF = 253 * 2 ^ 23 + (2 ^ 24 - 1) by norm_num, magOf_packed (by norm_num) (by norm_num),
    pow_succ 2 252]
  ring

theorem magOf_inf : magOf 0x7F800000 = 33554432 * 2 ^ 252 := by
  rw [show 0x7F800000 = 253 * 2 ^ 23 + 2 ^ 24 by norm_num, magOf_packed (by norm_num) (by norm_num),
    pow_succ 2 252]
  ring

/-! ## Ties and overflow -/

/-- At a tie, the magnitude bits returned are even. -/
theorem round_tie (num : Nat) {den : Nat} (hd : 0 < den) {b : Nat}
    (hne : b ≠ roundScale num den * 2 ^ 23 + roundSig num den)
    (ht : |(magOf (roundScale num den * 2 ^ 23 + roundSig num den) : ℤ) * den - num| =
      |(magOf b : ℤ) * den - num|) :
    (roundScale num den * 2 ^ 23 + roundSig num den) % 2 = 0 := by
  obtain ⟨hhi, hlo⟩ := roundScale_spec num hd
  have hspec := magOf_round num hd
  rw [hspec] at ht
  have hd' : 0 < den * 2 ^ roundScale num den := by positivity
  have hle := divNearestEven_le num hd' (2 ^ 23)
  have htie := fun k => divNearestEven_tie (k := k) num hd'
  change |(roundSig num den : ℤ) * _ - _| ≤ _ at hle
  change ∀ k : Nat, |(roundSig num den : ℤ) * _ - _| = _ → k ≠ roundSig num den → roundSig num den % 2 = 0 at htie
  revert htie hle hspec hlo hhi ht hne
  generalize roundScale num den = sh
  generalize roundSig num den = sig
  intro hne ht hhi hlo hspec hle htie
  obtain ⟨sh', m, rfl, hm, hml⟩ := exists_packed b
  rw [magOf_packed hm.le hml] at ht
  rcases Nat.lt_or_ge sh' sh with hlt | hge
  · exfalso
    have h2 : 2 ^ 23 * (den * 2 ^ sh) ≤ num := by
      rcases hlo with h | h
      · omega
      · exact h
    have hlt' : m * 2 ^ sh' < 2 ^ 23 * 2 ^ sh := by
      calc m * 2 ^ sh' < 2 ^ 24 * 2 ^ sh' := Nat.mul_lt_mul_of_pos_right hm (by positivity)
        _ = 2 ^ 23 * 2 ^ (sh' + 1) := by rw [pow_succ]; ring
        _ ≤ 2 ^ 23 * 2 ^ sh := Nat.mul_le_mul_left _ (Nat.pow_le_pow_right (by norm_num) hlt)
    have hlt'' : ((m * 2 ^ sh' : ℕ) : ℤ) < ((2 ^ 23 * 2 ^ sh : ℕ) : ℤ) := by exact_mod_cast hlt'
    have h2' : ((2 ^ 23 * (den * 2 ^ sh) : ℕ) : ℤ) ≤ (num : ℤ) := by exact_mod_cast h2
    have hd0 : (0 : ℤ) < den := by exact_mod_cast hd
    push_cast at hlt'' h2' hle ht
    rw [abs_of_nonpos (a := (8388608 : ℤ) * _ - _) (by nlinarith)] at hle
    rw [abs_of_nonpos (a := (m : ℤ) * _ * _ - _) (by nlinarith)] at ht
    have e : (sig : ℤ) * (den * 2 ^ sh) - num = sig * 2 ^ sh * den - num := by ring
    rw [e, ht] at hle
    nlinarith
  · obtain ⟨j, rfl⟩ := Nat.exists_eq_add_of_le hge
    have hk : m * 2 ^ j ≠ sig := by
      intro hk
      apply hne
      apply magOf_strictMono.injective
      rw [magOf_packed hm.le hml, hspec, ← hk, pow_add]
      ring
    have := htie (m * 2 ^ j) (by
      have e : (sig : ℤ) * ((den * 2 ^ sh : ℕ) : ℤ) - num = ((sig * 2 ^ sh : ℕ) : ℤ) * den - num := by
        push_cast; ring
      have e' : ((m * 2 ^ j : ℕ) : ℤ) * ((den * 2 ^ sh : ℕ) : ℤ) - num = ((m * 2 ^ (sh + j) : ℕ) : ℤ) * den - num := by
        push_cast; rw [pow_add]; ring
      rw [e, e']; exact ht) hk
    omega

/-- Rounding overflows exactly from half a step past the largest finite value on: 33554431 × 2^252 units
are 2^128 − 2^103. -/
theorem NUM.roundBits_overflow (num : Nat) {den : Nat} (hd : 0 < den) :
    NUM.roundBits num den = 0x7F800000 ↔ 33554431 * 2 ^ 252 * den ≤ num := by
  have hn := round_nearest num hd
  have ht := fun b => round_tie (b := b) num hd
  have hmax : (magOf 0x7F7FFFFF : ℤ) = 33554430 * (2 ^ 252 : ℕ) := by rw [magOf_max, Nat.cast_mul]; rfl
  have hinf : (magOf 0x7F800000 : ℤ) = 33554432 * (2 ^ 252 : ℕ) := by rw [magOf_inf, Nat.cast_mul]; rfl
  have hVpos : 0 < 2 ^ 252 := by positivity
  rw [NUM.roundBits_eq]
  revert hn ht hmax hinf hVpos
  generalize roundScale num den * 2 ^ 23 + roundSig num den = B
  generalize 2 ^ 252 = V
  intro hn ht hmax hinf hVpos
  have hd0 : (0 : ℤ) < den := by exact_mod_cast hd
  have hV0 : (0 : ℤ) < V := by exact_mod_cast hVpos
  have hVd : (0 : ℤ) < V * den := by positivity
  constructor
  · intro h
    by_contra hlt
    push Not at hlt
    have hB : 0x7F800000 ≤ B := by omega
    have hm : (magOf 0x7F800000 : ℤ) ≤ magOf B := by exact_mod_cast magOf_strictMono.monotone hB
    have hlt' : (num : ℤ) < 33554431 * V * den := by exact_mod_cast hlt
    have := hn 0x7F7FFFFF
    rw [hmax] at this
    rw [hinf] at hm
    have hmd : (33554432 : ℤ) * V * den ≤ magOf B * den := mul_le_mul_of_nonneg_right hm hd0.le
    rw [abs_of_nonneg (a := (magOf B : ℤ) * den - num) (by nlinarith)] at this
    rcases abs_cases ((33554430 : ℤ) * V * den - num) with ⟨h1, _⟩ | ⟨h1, _⟩ <;> rw [h1] at this <;> nlinarith
  · intro h
    by_contra hne
    have hB : B ≤ 0x7F7FFFFF := by omega
    have hm : (magOf B : ℤ) ≤ magOf 0x7F7FFFFF := by exact_mod_cast magOf_strictMono.monotone hB
    have h' : (33554431 : ℤ) * V * den ≤ num := by exact_mod_cast h
    have h1 := hn 0x7F800000
    rw [hmax] at hm
    rw [hinf] at h1
    have hmd : (magOf B : ℤ) * den ≤ 33554430 * V * den := mul_le_mul_of_nonneg_right hm hd0.le
    rw [abs_of_nonpos (a := (magOf B : ℤ) * den - num) (by nlinarith)] at h1
    rcases abs_cases ((33554432 : ℤ) * V * den - num) with ⟨e, _⟩ | ⟨e, _⟩
    · rw [e] at h1
      have e1 : (magOf B : ℤ) * den = 33554430 * V * den := by nlinarith
      have e2 : (num : ℤ) = 33554431 * V * den := by nlinarith
      have hB' : B = 0x7F7FFFFF := by
        apply magOf_strictMono.injective
        have := mul_right_cancel₀ hd0.ne' e1
        rw [← hmax] at this
        exact_mod_cast this
      have := ht 0x7F800000 (by omega) (by
        rw [hinf, e1, e2, abs_of_nonpos (by nlinarith), abs_of_nonneg (by nlinarith)]
        ring)
      omega
    · rw [e] at h1
      nlinarith

/-! ## Integers -/

/-- Every integer up to 2^24 in magnitude is a NUM. -/
theorem exists_magOf_int {k : Nat} (hk : k ≤ 2 ^ 24) : ∃ b, b < 0x7F800000 ∧ magOf b = k * NUM.one149 := by
  rcases Nat.eq_zero_or_pos k with rfl | hpos
  · exact ⟨0, by norm_num, by simp [magOf_zero]⟩
  · rcases Nat.lt_or_ge k (2 ^ 24) with hlt | hge
    · have hlog : Nat.log2 k < 24 := (Nat.log2_lt hpos.ne').2 hlt
      have hlo : 2 ^ Nat.log2 k ≤ k := Nat.log2_self_le hpos.ne'
      have hhi : k < 2 ^ (Nat.log2 k + 1) := Nat.lt_log2_self
      have e23 : 2 ^ Nat.log2 k * 2 ^ (23 - Nat.log2 k) = 2 ^ 23 := by rw [← pow_add]; congr 1; omega
      have e24 : 2 ^ (Nat.log2 k + 1) * 2 ^ (23 - Nat.log2 k) = 2 ^ 24 := by rw [← pow_add]; congr 1; omega
      have hm1 : 2 ^ 23 ≤ k * 2 ^ (23 - Nat.log2 k) := e23 ▸ Nat.mul_le_mul_right _ hlo
      have hm2 : k * 2 ^ (23 - Nat.log2 k) < 2 ^ 24 := e24 ▸ Nat.mul_lt_mul_of_pos_right hhi (by positivity)
      refine ⟨(126 + Nat.log2 k) * 2 ^ 23 + k * 2 ^ (23 - Nat.log2 k), by omega, ?_⟩
      rw [magOf_packed hm2.le (.inr hm1), mul_assoc, ← pow_add, NUM.one149]
      congr 2
      omega
    · obtain rfl : k = 2 ^ 24 := le_antisymm hk hge
      exact ⟨150 * 2 ^ 23 + 2 ^ 23, by norm_num, by
        rw [magOf_packed (by norm_num) (by norm_num), NUM.one149]; norm_num⟩

/-- toNUM of an integer whose magnitude the format holds has exactly that value. -/
theorem toNUM_magBits {n : ℤ} {b : Nat} (hb : b ≤ 0x7F800000) (h : magOf b = n.natAbs * NUM.one149) :
    NUM.magBits (toNUM n) = b := by
  rw [toNUM, NUM.round_magBits, ← h]
  simpa using NUM.roundBits_exact (den := 1) hb one_pos

@[simp] theorem toNUM_neg (n : ℤ) : NUM.neg (toNUM n) = decide (n < 0) := NUM.round_neg _ _ _

theorem toNUM_units {n : ℤ} {b : Nat} (hb : b ≤ 0x7F800000) (h : magOf b = n.natAbs * NUM.one149) :
    NUM.units (toNUM n) = n * NUM.one149 := by
  rw [NUM.units_eq, toNUM_magBits hb h, h, toNUM_neg]
  by_cases hn : n < 0
  · simp only [hn, decide_true, if_true]
    push_cast
    rw [abs_of_neg hn]; ring
  · simp only [hn, decide_false]
    push_cast
    rw [abs_of_nonneg (by omega)]

/-! ## Addition and subtraction of finite values -/

theorem NUM.add_finite {a b : NUM} (ha : NUM.isFinite a = true) (hb : NUM.isFinite b = true) :
    NUM.add a b = if NUM.units a + NUM.units b = 0 then NUM.pack (NUM.neg a && NUM.neg b) 0
      else NUM.round (decide (NUM.units a + NUM.units b < 0)) (NUM.units a + NUM.units b).natAbs 1 := by
  simp [NUM.add, NUM.addCore, NUM.isNaN_of_finite ha, NUM.isNaN_of_finite hb, NUM.isInf_of_finite ha,
    NUM.isInf_of_finite hb]

theorem NUM.sub_finite {a b : NUM} (ha : NUM.isFinite a = true) (hb : NUM.isFinite b = true) :
    NUM.sub a b = if NUM.units a - NUM.units b = 0 then NUM.pack (NUM.neg a && !NUM.neg b) 0
      else NUM.round (decide (NUM.units a - NUM.units b < 0)) (NUM.units a - NUM.units b).natAbs 1 := by
  simp [NUM.sub, NUM.addCore, NUM.isNaN_of_finite ha, NUM.isNaN_of_finite hb, NUM.isInf_of_finite ha,
    NUM.isInf_flipSign, NUM.isInf_of_finite hb, ← sub_eq_add_neg]

theorem NUM.mul_finite {a b : NUM} (ha : NUM.isFinite a = true) (hb : NUM.isFinite b = true) :
    NUM.mul a b = NUM.round (NUM.neg a != NUM.neg b) (NUM.mag a * NUM.mag b) NUM.one149 := by
  simp [NUM.mul, NUM.isNaN_of_finite ha, NUM.isNaN_of_finite hb, NUM.isInf_of_finite ha,
    NUM.isInf_of_finite hb]

theorem NUM.div_finite {a b : NUM} (ha : NUM.isFinite a = true) (hb : NUM.isFinite b = true)
    (hz : NUM.isZero b = false) :
    NUM.div a b = NUM.round (NUM.neg a != NUM.neg b) (NUM.mag a * NUM.one149) (NUM.mag b) := by
  simp [NUM.div, NUM.isNaN_of_finite ha, NUM.isNaN_of_finite hb, NUM.isInf_of_finite ha,
    NUM.isInf_of_finite hb, hz]

/-- A sum whose exact magnitude the format holds is exact. -/
theorem NUM.add_exact {a b : NUM} (ha : NUM.isFinite a = true) (hb : NUM.isFinite b = true) {k : Nat}
    (hk : k ≤ 0x7F800000) (h : magOf k = (NUM.units a + NUM.units b).natAbs)
    (hne : NUM.units a + NUM.units b ≠ 0) :
    NUM.magBits (NUM.add a b) = k ∧ NUM.neg (NUM.add a b) = decide (NUM.units a + NUM.units b < 0) := by
  rw [NUM.add_finite ha hb, if_neg hne, NUM.round_magBits, NUM.round_neg, ← h]
  exact ⟨by simpa using NUM.roundBits_exact (den := 1) hk one_pos, rfl⟩

/-- Adding a zero to a finite value that is not −0.0 returns it. -/
theorem NUM.add_zero {b z : NUM} (hb : NUM.isFinite b = true) (hz : NUM.isZero z = true)
    (hn : b ≠ 0x80000000#32) : NUM.add b z = b := by
  have hz0 := (NUM.units_eq_zero z).2 hz
  have hzf : NUM.isFinite z = true := by
    rw [NUM.isFinite_iff, (NUM.isZero_iff z).1 hz]; norm_num
  by_cases hb0 : NUM.units b = 0
  · have hbm := (NUM.isZero_iff b).1 ((NUM.units_eq_zero b).1 hb0)
    have hbn : NUM.neg b = false := by
      by_contra hc
      apply hn
      apply NUM.ext
      · rw [Bool.not_eq_false] at hc; rw [hc]; decide
      · rw [hbm]; decide
    rw [NUM.add_finite hb hzf, hb0, hz0, if_pos (by norm_num), hbn]
    apply NUM.ext
    · rw [NUM.pack_neg _ (by norm_num), hbn]; rfl
    · rw [NUM.pack_magBits _ (by norm_num), hbm]
  · have hlt := (NUM.isFinite_iff b).1 hb
    have h := NUM.add_exact hb hzf (k := NUM.magBits b) hlt.le
      (by rw [hz0, Int.add_zero, NUM.units_eq]; split <;> simp) (by rw [hz0, Int.add_zero]; exact hb0)
    apply NUM.ext
    · rw [h.2, hz0, Int.add_zero]
      rw [NUM.units_eq] at hb0 ⊢
      cases hbs : NUM.neg b <;> simp [hbs] at hb0 ⊢
      omega
    · exact h.1

/-- Adding +0.0 to a finite value changes −0.0 alone. -/
theorem NUM.add_pos_zero {b : NUM} (hb : NUM.isFinite b = true) :
    NUM.add b NUM.zero = if b = 0x80000000#32 then 0x00000000#32 else b := by
  split
  · rename_i h; subst h; decide
  · rename_i h; exact NUM.add_zero hb (by decide) h

/-! ## Operations on a value that is not finite -/

theorem NUM.not_finite_iff (x : NUM) : NUM.isFinite x = false ↔ NUM.isNaN x = true ∨ NUM.isInf x = true := by
  rw [← Bool.not_eq_true, NUM.isFinite_iff, NUM.isNaN_iff, NUM.isInf_iff]; omega

@[simp] theorem NUM.isFinite_nan (op : FpOp) (a b : NUM) : NUM.isFinite (NUM.nan op a b) = false :=
  (NUM.not_finite_iff _).2 (.inl (NUM.isNaN_nan op a b))

theorem NUM.addCore_not_finite {op : FpOp} {a b c : NUM}
    (h : NUM.isInf a = true ∨ NUM.isInf b = true) : NUM.isFinite (NUM.addCore op a b c) = false := by
  unfold NUM.addCore
  repeat' split
  all_goals first
    | exact NUM.isFinite_nan ..
    | exact (NUM.not_finite_iff _).2 (.inr ‹_›)
    | simp_all

/-- A sum with a term that is not finite is not finite (00_scope.md R11). -/
theorem NUM.add_not_finite {a b : NUM} (h : NUM.isFinite a = false ∨ NUM.isFinite b = false) :
    NUM.isFinite (NUM.add a b) = false := by
  rw [NUM.not_finite_iff, NUM.not_finite_iff] at h
  unfold NUM.add
  split
  · exact NUM.isFinite_nan ..
  · rename_i hn
    rw [Bool.or_eq_true, not_or] at hn
    exact NUM.addCore_not_finite (by tauto)

/-- A difference with a term that is not finite is not finite (R11). -/
theorem NUM.sub_not_finite {a b : NUM} (h : NUM.isFinite a = false ∨ NUM.isFinite b = false) :
    NUM.isFinite (NUM.sub a b) = false := by
  rw [NUM.not_finite_iff, NUM.not_finite_iff] at h
  unfold NUM.sub
  split
  · exact NUM.isFinite_nan ..
  · rename_i hn
    rw [Bool.or_eq_true, not_or] at hn
    exact NUM.addCore_not_finite (by rw [NUM.isInf_flipSign]; tauto)

/-- A product with a factor that is not finite is not finite: 0 × ∞ is a NaN (R11). -/
theorem NUM.mul_not_finite {a b : NUM} (h : NUM.isFinite a = false ∨ NUM.isFinite b = false) :
    NUM.isFinite (NUM.mul a b) = false := by
  have hinf : ∀ s, NUM.isFinite (NUM.pack s 0x7F800000) = false := by decide
  rw [NUM.not_finite_iff, NUM.not_finite_iff] at h
  unfold NUM.mul
  simp only
  split
  · exact NUM.isFinite_nan ..
  · rename_i hn
    rw [Bool.or_eq_true, not_or] at hn
    rw [if_pos (by rw [Bool.or_eq_true]; tauto)]
    split
    · exact NUM.isFinite_nan ..
    · exact hinf _

/-! ## Comparisons -/

theorem NUM.lt_iff_finite {a b : NUM} (ha : NUM.isNaN a = false) (hb : NUM.isNaN b = false) :
    NUM.lt a b = true ↔ NUM.key a < NUM.key b := by simp [NUM.lt, ha, hb]

theorem NUM.le_iff_finite {a b : NUM} (ha : NUM.isNaN a = false) (hb : NUM.isNaN b = false) :
    NUM.le a b = true ↔ NUM.key a ≤ NUM.key b := by simp [NUM.le, ha, hb]

theorem NUM.eq_iff_finite {a b : NUM} (ha : NUM.isNaN a = false) (hb : NUM.isNaN b = false) :
    NUM.eq a b = true ↔ NUM.key a = NUM.key b := by simp [NUM.eq, ha, hb]

/-- `inCycle` on the fields: a positive value below 1.0, or a zero of either sign. -/
theorem inCycle_iff (x : NUM) :
    inCycle x = true ↔ NUM.magBits x < 0x3F800000 ∧ (NUM.neg x = false ∨ NUM.magBits x = 0) := by
  have h0 : NUM.isNaN NUM.zero = false := by decide
  have h1 : NUM.isNaN NUM.one = false := by decide
  have k0 : NUM.key NUM.zero = 0 := by decide
  have k1 : NUM.key NUM.one = 0x3F800000 := by decide
  by_cases hx : NUM.isNaN x = true
  · have := (NUM.isNaN_iff x).1 hx
    simp [inCycle, NUM.le, NUM.lt, hx]
    omega
  · rw [Bool.not_eq_true] at hx
    rw [inCycle, Bool.and_eq_true, NUM.le_iff_finite h0 hx, NUM.lt_iff_finite hx h1, k0, k1, NUM.key]
    cases NUM.neg x <;> simp
    omega

/-! ## floor and wrap -/

theorem NUM.floor_spec (x : NUM) :
    NUM.floor x * NUM.one149 ≤ NUM.units x ∧ NUM.units x < (NUM.floor x + 1) * NUM.one149 := by
  have hpos : (0 : ℤ) < (NUM.one149 : ℤ) := by simp [NUM.one149]
  have h1 := Int.mul_ediv_add_emod (NUM.units x) (NUM.one149 : ℤ)
  have h2 := Int.emod_nonneg (NUM.units x) hpos.ne'
  have h3 := Int.emod_lt_of_pos (NUM.units x) hpos
  unfold NUM.floor
  constructor <;> nlinarith

theorem one149_pos : 0 < NUM.one149 := by simp [NUM.one149]

/-- The magnitude of an integer part is one the format holds. -/
theorem exists_magOf_floor {x : NUM} (hx : NUM.isFinite x = true) :
    ∃ b, b < 0x7F800000 ∧ magOf b = (NUM.floor x).natAbs * NUM.one149 := by
  have hspec := NUM.floor_spec x
  have hpos : (0 : ℤ) < (NUM.one149 : ℤ) := by exact_mod_cast one149_pos
  by_cases hbig : magOf (NUM.magBits x) < 2 ^ 23 * NUM.one149
  · apply exists_magOf_int
    have hu : |NUM.units x| < 2 ^ 23 * NUM.one149 := by
      rw [NUM.units_eq]
      split
      · rw [abs_neg, Nat.abs_cast]; exact_mod_cast hbig
      · rw [Nat.abs_cast]; exact_mod_cast hbig
    rw [abs_lt] at hu
    have h1 : NUM.floor x < 2 ^ 23 := by nlinarith
    have h2 : -(2 ^ 23) - 1 < NUM.floor x := by nlinarith
    omega
  · refine ⟨NUM.magBits x, (NUM.isFinite_iff x).1 hx, ?_⟩
    have hdvd : NUM.one149 ∣ magOf (NUM.magBits x) := by
      obtain ⟨sh, m, hb, hm, hlo⟩ := exists_packed (NUM.magBits x)
      rw [hb, magOf_packed hm.le hlo] at hbig ⊢
      have hsh : 149 ≤ sh := by
        by_contra hlt
        apply hbig
        have hle : sh ≤ 148 := by omega
        calc m * 2 ^ sh < 2 ^ 24 * 2 ^ sh := Nat.mul_lt_mul_of_pos_right hm (by positivity)
          _ ≤ 2 ^ 24 * 2 ^ 148 := Nat.mul_le_mul_left _ (Nat.pow_le_pow_right (by norm_num) hle)
          _ = 2 ^ 23 * NUM.one149 := by rw [NUM.one149]; norm_num
      exact Dvd.dvd.mul_left (by rw [NUM.one149]; exact pow_dvd_pow 2 hsh) m
    obtain ⟨k, hk⟩ := hdvd
    have hu : NUM.units x = (if NUM.neg x then -(k : ℤ) else k) * NUM.one149 := by
      rw [NUM.units_eq, hk]
      split
      · push_cast; ring
      · rw [Nat.cast_mul]; ring
    have hfl : NUM.floor x = if NUM.neg x then -(k : ℤ) else k := by
      unfold NUM.floor
      rw [hu]
      exact Int.mul_ediv_cancel _ hpos.ne'
    rw [hfl, hk, mul_comm]
    split <;> simp

/-- The integer part of a finite NUM converts back without error. -/
theorem toNUM_floor {x : NUM} (hx : NUM.isFinite x = true) :
    NUM.isFinite (toNUM (NUM.floor x)) = true ∧ NUM.units (toNUM (NUM.floor x)) = NUM.floor x * NUM.one149 := by
  obtain ⟨b, hb, h⟩ := exists_magOf_floor hx
  refine ⟨?_, toNUM_units hb.le h⟩
  rw [NUM.isFinite_iff, toNUM_magBits hb.le h]
  exact hb

/-- x − toNUM(floor(x)) is at most 1.0, and is no smaller than a zero. -/
theorem sub_floor_range {x : NUM} (hx : NUM.isFinite x = true) :
    let p := NUM.sub x (toNUM (NUM.floor x))
    NUM.magBits p ≤ 0x3F800000 ∧ (NUM.neg p = false ∨ NUM.magBits p = 0) := by
  obtain ⟨hf, hu⟩ := toNUM_floor hx
  have hspec := NUM.floor_spec x
  simp only
  rw [NUM.sub_finite hx hf, hu]
  split
  · rw [NUM.pack_magBits _ (by norm_num)]
    exact ⟨by norm_num, .inr rfl⟩
  · rename_i hne
    have hnn : ¬ (NUM.units x - NUM.floor x * NUM.one149 < 0) := by linarith
    rw [NUM.round_magBits, NUM.round_neg]
    refine ⟨?_, .inl (by simpa using hnn)⟩
    apply NUM.roundBits_le_of_le one_pos
    rw [magOf_one]
    have : NUM.units x - NUM.floor x * NUM.one149 < NUM.one149 := by linarith
    omega

/-- wrap lands in [0.0, 1.0), whatever its argument (00_scope.md R12; log 8 for a non-finite one). -/
theorem wrap_inCycle (x : NUM) : inCycle (wrap x) = true := by
  unfold wrap
  split
  · rename_i hx
    obtain ⟨h1, h2⟩ := sub_floor_range hx
    simp only
    split
    · decide
    · rename_i hne
      rw [inCycle_iff]
      refine ⟨lt_of_le_of_ne h1 fun he => hne ?_, h2⟩
      have hnan : NUM.isNaN (NUM.sub x (toNUM (NUM.floor x))) = false := by
        rw [Bool.eq_false_iff, ne_eq, NUM.isNaN_iff, he]; norm_num
      rw [NUM.eq_iff_finite hnan (by decide), NUM.key, he]
      rcases h2 with h2 | h2
      · rw [h2]; decide
      · omega
  · unfold wrapNonFinite
    split
    · decide
    · rename_i hne
      have hlt : (Config.wrapNonFinite x).val < 0x3F800000 := by
        have := (Config.wrapNonFinite x).isLt; omega
      have e : BitVec.ofNat 32 (Config.wrapNonFinite x).val = NUM.pack false (Config.wrapNonFinite x).val := by
        simp [NUM.pack]
      rw [e, inCycle_iff, NUM.pack_magBits _ (by omega), NUM.pack_neg _ (by omega)]
      exact ⟨hlt, .inl rfl⟩

/-- Every significand below 2^24, at any scale, is the magnitude of some bits. -/
theorem exists_magOf_scaled {m : Nat} (sh : Nat) (hm : m < 2 ^ 24) : ∃ b, magOf b = m * 2 ^ sh := by
  induction sh generalizing m with
  | zero => exact ⟨0 * 2 ^ 23 + m, magOf_packed hm.le (.inl rfl)⟩
  | succ sh ih =>
    rcases Nat.lt_or_ge m (2 ^ 23) with h | h
    · obtain ⟨b, hb⟩ := ih (m := 2 * m) (by omega)
      exact ⟨b, by rw [hb, pow_succ]; ring⟩
    · exact ⟨(sh + 1) * 2 ^ 23 + m, magOf_packed hm.le (.inr h)⟩

/-- The fraction of a magnitude is a magnitude: x − floor(x) is exact for x ≥ 0 (00_scope.md R12). -/
theorem exists_magOf_fract (b : Nat) : ∃ k, k < 0x3F800000 ∧ magOf k = magOf b % NUM.one149 := by
  have hlt : ∀ k, magOf k < NUM.one149 → k < 0x3F800000 := fun k h => by
    rw [← magOf_one] at h; exact magOf_strictMono.lt_iff_lt.1 h
  have hmod := Nat.mod_lt (magOf b) one149_pos
  obtain ⟨sh, m, rfl, hm, hlo⟩ := exists_packed b
  rw [magOf_packed hm.le hlo] at hmod ⊢
  rcases Nat.lt_or_ge sh 149 with h | h
  · have e : m * 2 ^ sh % NUM.one149 = m % 2 ^ (149 - sh) * 2 ^ sh := by
      rw [NUM.one149, show 149 = (149 - sh) + sh by omega, pow_add, Nat.mul_mod_mul_right]
      congr 2
      simp
    rw [e] at hmod ⊢
    obtain ⟨k, hk⟩ := exists_magOf_scaled sh (Nat.lt_of_le_of_lt (Nat.mod_le m (2 ^ (149 - sh))) hm)
    exact ⟨k, hlt k (by rw [hk]; exact hmod), hk⟩
  · have e : m * 2 ^ sh % NUM.one149 = 0 :=
      Nat.mod_eq_zero_of_dvd (Dvd.dvd.mul_left (pow_dvd_pow 2 h) m)
    exact ⟨0, by norm_num, by rw [e, magOf_zero]⟩

/-- wrap of a finite value, by its exact floor (R12). -/
theorem wrap_finite {x : NUM} (hx : NUM.isFinite x = true) :
    wrap x = if NUM.eq (NUM.sub x (toNUM (NUM.floor x))) NUM.one then NUM.zero
      else NUM.sub x (toNUM (NUM.floor x)) := by
  rw [wrap, if_pos hx]

/-- A phase inside the cycle is its own wrap. -/
theorem wrap_inside {x : NUM} (hn : NUM.neg x = false) (hb : NUM.magBits x < 0x3F800000) : wrap x = x := by
  have hfin : NUM.isFinite x = true := by rw [NUM.isFinite_iff]; omega
  have hu : NUM.units x = magOf (NUM.magBits x) := by rw [NUM.units_eq, hn]; rfl
  have hlt : magOf (NUM.magBits x) < NUM.one149 := by rw [← magOf_one]; exact magOf_strictMono hb
  have hfl : NUM.floor x = 0 := by
    unfold NUM.floor; rw [hu]; exact Int.ediv_eq_zero_of_lt (by positivity) (by exact_mod_cast hlt)
  have hz : toNUM 0 = NUM.zero := by decide +kernel
  have hsub : NUM.sub x NUM.zero = x := by
    have hzf : NUM.isFinite NUM.zero = true := by decide
    have hzu : NUM.units NUM.zero = 0 := by decide
    rw [NUM.sub_finite hfin hzf, hzu, sub_zero, hu]
    split
    · rename_i h0
      have h0' : magOf (NUM.magBits x) = 0 := by exact_mod_cast h0
      rw [magOf_eq_zero] at h0'
      apply NUM.ext
      · rw [NUM.pack_neg _ (by norm_num), hn]; rfl
      · rw [NUM.pack_magBits _ (by norm_num), h0']
    · apply NUM.ext
      · rw [NUM.round_neg, hn]; simp
      · rw [NUM.round_magBits, Int.natAbs_natCast]
        simpa using NUM.roundBits_exact (den := 1) (b := NUM.magBits x) (by omega) one_pos
  unfold wrap
  rw [if_pos hfin, hfl, hz, hsub]
  simp only
  rw [if_neg]
  rw [NUM.eq_iff_finite (NUM.isNaN_of_finite hfin) (by decide), NUM.key, hn]
  have : NUM.key NUM.one = 0x3F800000 := by decide
  rw [this]; simp; omega

end Sys2Proof.Machine
end

