-- ==== Sys2Proof/Laws/Memory.lean ====
section
/-!
SUPPORT. The laws of memories: reading after writing, the canonical form and its bounds kept by every
operation, equal readings mean equal memories, and what a drawn memory reads as.
-/

namespace Sys2Proof.Machine

/-! ## Reading after writing -/

@[simp] theorem Memory.read_nil (i : Nat) : Memory.read [] i = 0#32 := rfl

theorem Memory.read_insert (m : Memory) (i : Nat) (v : Word) (j : Nat) :
    (m.insert i v).read j = if j = i then v else m.read j := by
  induction m with
  | nil => simp only [Memory.insert, Memory.read]; grind
  | cons e m ih =>
    obtain ⟨k, w⟩ := e
    simp only [Memory.insert]
    split
    · simp only [Memory.read]; grind
    · split
      · simp only [Memory.read]; grind
      · simp only [Memory.read]; grind

theorem Memory.read_filter_ne (m : Memory) (i j : Nat) :
    Memory.read (m.filter fun e => decide (e.1 ≠ i)) j = if j = i then 0#32 else m.read j := by
  induction m with
  | nil => simp
  | cons e m ih =>
    obtain ⟨k, w⟩ := e
    by_cases hk : k = i
    · subst hk
      rw [List.filter_cons_of_neg (by simp), ih]
      simp only [Memory.read]
      grind
    · rw [List.filter_cons_of_pos (by simpa using hk)]
      simp only [Memory.read]
      grind

/-- A word reads as what was last written to it, and a write changes no other word. -/
theorem Memory.read_write (m : Memory) (i : Nat) (v : Word) (j : Nat) :
    (m.write i v).read j = if j = i then v else m.read j := by
  unfold Memory.write
  split
  · rename_i hv
    rw [Memory.read_filter_ne]
    split <;> simp_all
  · exact Memory.read_insert m i v j

@[simp] theorem Memory.read_write_same (m : Memory) (i : Nat) (v : Word) : (m.write i v).read i = v := by
  simp [Memory.read_write]

theorem Memory.read_write_other (m : Memory) {i j : Nat} (v : Word) (h : j ≠ i) :
    (m.write i v).read j = m.read j := by
  simp [Memory.read_write, h]

/-! ## The canonical form -/

theorem Memory.wf_nil : Memory.wf [] := by simp [Memory.wf]

theorem Memory.mem_insert {m : Memory} {i : Nat} {v : Word} {e : Nat × Word} (h : e ∈ m.insert i v) :
    e = (i, v) ∨ e ∈ m := by
  induction m with
  | nil => simpa [Memory.insert] using h
  | cons a m ih =>
    obtain ⟨k, w⟩ := a
    simp only [Memory.insert] at h
    split at h
    · simpa using h
    · split at h
      · rcases List.mem_cons.1 h with h | h
        · exact .inl h
        · exact .inr (List.mem_cons_of_mem _ h)
      · rcases List.mem_cons.1 h with h | h
        · exact .inr (h ▸ List.mem_cons_self)
        · exact (ih h).imp id (List.mem_cons_of_mem _)

theorem Memory.insert_rising {m : Memory} (h : m.Pairwise (fun a b => a.1 < b.1)) (i : Nat) (v : Word) :
    (m.insert i v).Pairwise (fun a b => a.1 < b.1) := by
  induction m with
  | nil => simp [Memory.insert]
  | cons a m ih =>
    obtain ⟨k, w⟩ := a
    obtain ⟨h1, h2⟩ := List.pairwise_cons.1 h
    simp only [Memory.insert]
    split
    · rename_i hlt
      refine List.pairwise_cons.2 ⟨fun e he => ?_, h⟩
      rcases List.mem_cons.1 he with rfl | he
      · exact hlt
      · exact Nat.lt_trans hlt (h1 e he)
    · split
      · rename_i heq
        exact List.pairwise_cons.2 ⟨fun e he => heq ▸ h1 e he, h2⟩
      · refine List.pairwise_cons.2 ⟨fun e he => ?_, ih h2⟩
        rcases Memory.mem_insert he with rfl | he
        · simp only; omega
        · exact h1 e he

theorem Memory.mem_write {m : Memory} {i : Nat} {v : Word} {e : Nat × Word} (h : e ∈ m.write i v) :
    (e = (i, v) ∧ v ≠ 0#32) ∨ e ∈ m := by
  unfold Memory.write at h
  split at h
  · exact .inr (List.mem_of_mem_filter h)
  · rename_i hv
    exact (Memory.mem_insert h).imp (fun h => ⟨h, hv⟩) id

/-- A write keeps the canonical form. -/
theorem Memory.write_wf {m : Memory} (h : m.wf) (i : Nat) (v : Word) : (m.write i v).wf := by
  refine ⟨?_, fun e he => ?_⟩
  · unfold Memory.write
    split
    · exact h.1.filter _
    · exact Memory.insert_rising h.1 i v
  · rcases Memory.mem_write he with ⟨rfl, hv⟩ | he
    · exact hv
    · exact h.2 e he

/-- A write inside the space keeps every listed index inside it. -/
theorem Memory.write_within {n : Nat} {m : Memory} (h : m.within n) {i : Nat} (hi : i < n) (v : Word) :
    (m.write i v).within n := by
  intro e he
  rcases Memory.mem_write he with ⟨rfl, _⟩ | he
  · exact hi
  · exact h e he

/-! ## Equal readings mean equal memories -/

theorem Memory.read_of_mem {m : Memory} (h : m.Pairwise (fun a b => a.1 < b.1)) {e : Nat × Word}
    (he : e ∈ m) : m.read e.1 = e.2 := by
  induction m with
  | nil => simp at he
  | cons a m ih =>
    obtain ⟨k, w⟩ := a
    obtain ⟨h1, h2⟩ := List.pairwise_cons.1 h
    rcases List.mem_cons.1 he with rfl | he
    · simp [Memory.read]
    · have := h1 e he
      simp only [Memory.read]
      rw [if_neg (by simp only at this; omega)]
      exact ih h2 he

theorem Memory.mem_of_read {m : Memory} {i : Nat} (h : m.read i ≠ 0#32) : (i, m.read i) ∈ m := by
  induction m with
  | nil => simp at h
  | cons a m ih =>
    obtain ⟨k, w⟩ := a
    simp only [Memory.read] at h ⊢
    split
    · rename_i hk; subst hk; simp
    · rename_i hk
      rw [if_neg hk] at h
      exact List.mem_cons_of_mem _ (ih h)

/-- Two memories in canonical form that read the same are the same list. -/
theorem Memory.ext_of_wf {m m' : Memory} (h : m.wf) (h' : m'.wf) (heq : ∀ i, m.read i = m'.read i) :
    m = m' := by
  have key : ∀ {a b : Memory}, a.wf → b.wf → (∀ i, a.read i = b.read i) → ∀ e ∈ a, e ∈ b := by
    intro a b ha hb hab e he
    have hr := Memory.read_of_mem ha.1 he
    have hne : b.read e.1 ≠ 0#32 := by rw [← hab, hr]; exact ha.2 e he
    have := Memory.mem_of_read hne
    rwa [← hab, hr] at this
  have hnd : ∀ {a : Memory}, a.wf → a.Nodup := fun ha => ha.1.imp (fun h => by rintro rfl; simp at h)
  have hperm : m.Perm m' := (List.perm_ext_iff_of_nodup (hnd h) (hnd h')).2
    fun e => ⟨key h h' heq e, key h' h (fun i => (heq i).symm) e⟩
  exact hperm.eq_of_pairwise (fun a b _ _ h1 h2 => absurd (Nat.lt_trans h1 h2) (Nat.lt_irrefl _)) h.1 h'.1

/-! ## Drawn memories -/

theorem Memory.mem_drawn {n k : Nat} {e : Nat × Word} (h : e ∈ Memory.drawn n k) :
    e.1 < n ∧ e.2 = Config.draw (k + e.1) ∧ e.2 ≠ 0#32 := by
  simp only [Memory.drawn, List.mem_filterMap, List.mem_range] at h
  obtain ⟨i, hi, he⟩ := h
  split at he
  · simp at he
  · rename_i hne
    obtain rfl := Option.some.inj he
    exact ⟨hi, rfl, hne⟩

theorem Memory.drawn_wf (n k : Nat) : (Memory.drawn n k).wf := by
  refine ⟨?_, fun e he => (Memory.mem_drawn he).2.2⟩
  unfold Memory.drawn
  rw [List.pairwise_filterMap]
  refine List.pairwise_lt_range.imp fun {a b} hab x hx y hy => ?_
  split at hx
  · simp at hx
  · split at hy
    · simp at hy
    · obtain rfl := Option.some.inj hx
      obtain rfl := Option.some.inj hy
      exact hab

theorem Memory.drawn_within (n k : Nat) : (Memory.drawn n k).within n :=
  fun _ he => (Memory.mem_drawn he).1

/-- Word i of a drawn memory is the draw number k + i. -/
theorem Memory.read_drawn {n i : Nat} (k : Nat) (h : i < n) :
    (Memory.drawn n k).read i = Config.draw (k + i) := by
  by_cases hz : Config.draw (k + i) = 0#32
  · rw [hz]
    by_contra hne
    have h2 := Memory.mem_drawn (Memory.mem_of_read hne)
    exact hne (h2.2.1.trans hz)
  · have hmem : (i, Config.draw (k + i)) ∈ Memory.drawn n k := by
      simp only [Memory.drawn, List.mem_filterMap, List.mem_range]
      exact ⟨i, h, by simp [hz]⟩
    exact Memory.read_of_mem (Memory.drawn_wf n k).1 hmem

end Sys2Proof.Machine
end

