-- ==== Sys2Proof/Laws/State.lean ====
section
/-!
SUPPORT. What each named update of the state leaves in each field, so that no later proof unfolds a record
update.
-/

namespace Sys2Proof.Machine

/-! ## State.setRES -/

@[simp] theorem State.setRES_params (s : State) (v : Word) : (s.setRES v).params = s.params := rfl
@[simp] theorem State.setRES_OPA (s : State) (v : Word) : (s.setRES v).OPA = s.OPA := rfl
@[simp] theorem State.setRES_OPB (s : State) (v : Word) : (s.setRES v).OPB = s.OPB := rfl
@[simp] theorem State.setRES_OPC (s : State) (v : Word) : (s.setRES v).OPC = s.OPC := rfl
@[simp] theorem State.setRES_OPD (s : State) (v : Word) : (s.setRES v).OPD = s.OPD := rfl
@[simp] theorem State.setRES_RES (s : State) (v : Word) : (s.setRES v).RES = v := rfl
@[simp] theorem State.setRES_STATUS (s : State) (v : Word) : (s.setRES v).STATUS = s.STATUS := rfl
@[simp] theorem State.setRES_fmt (s : State) (v : Word) : (s.setRES v).fmt = s.fmt := rfl
@[simp] theorem State.setRES_P (s : State) (v : Word) : (s.setRES v).P = s.P := rfl
@[simp] theorem State.setRES_L (s : State) (v : Word) : (s.setRES v).L = s.L := rfl
@[simp] theorem State.setRES_lines (s : State) (v : Word) : (s.setRES v).lines = s.lines := rfl
@[simp] theorem State.setRES_IN (s : State) (v : Word) : (s.setRES v).IN = s.IN := rfl
@[simp] theorem State.setRES_OUT (s : State) (v : Word) : (s.setRES v).OUT = s.OUT := rfl
@[simp] theorem State.setRES_EVQ (s : State) (v : Word) : (s.setRES v).EVQ = s.EVQ := rfl
@[simp] theorem State.setRES_TAPE (s : State) (v : Word) : (s.setRES v).TAPE = s.TAPE := rfl
@[simp] theorem State.setRES_TAPO (s : State) (v : Word) : (s.setRES v).TAPO = s.TAPO := rfl
@[simp] theorem State.setRES_inputs (s : State) (v : Word) : (s.setRES v).inputs = s.inputs := rfl
@[simp] theorem State.setRES_draws (s : State) (v : Word) : (s.setRES v).draws = s.draws := rfl

/-! ## State.raise -/

@[simp] theorem State.raise_params (s : State) (e : Err) : (s.raise e).params = s.params := rfl
@[simp] theorem State.raise_OPA (s : State) (e : Err) : (s.raise e).OPA = s.OPA := rfl
@[simp] theorem State.raise_OPB (s : State) (e : Err) : (s.raise e).OPB = s.OPB := rfl
@[simp] theorem State.raise_OPC (s : State) (e : Err) : (s.raise e).OPC = s.OPC := rfl
@[simp] theorem State.raise_OPD (s : State) (e : Err) : (s.raise e).OPD = s.OPD := rfl
@[simp] theorem State.raise_RES (s : State) (e : Err) : (s.raise e).RES = s.RES := rfl
@[simp] theorem State.raise_STATUS (s : State) (e : Err) : (s.raise e).STATUS = s.STATUS.set e := rfl
@[simp] theorem State.raise_fmt (s : State) (e : Err) : (s.raise e).fmt = s.fmt := rfl
@[simp] theorem State.raise_P (s : State) (e : Err) : (s.raise e).P = s.P := rfl
@[simp] theorem State.raise_L (s : State) (e : Err) : (s.raise e).L = s.L := rfl
@[simp] theorem State.raise_lines (s : State) (e : Err) : (s.raise e).lines = s.lines := rfl
@[simp] theorem State.raise_IN (s : State) (e : Err) : (s.raise e).IN = s.IN := rfl
@[simp] theorem State.raise_OUT (s : State) (e : Err) : (s.raise e).OUT = s.OUT := rfl
@[simp] theorem State.raise_EVQ (s : State) (e : Err) : (s.raise e).EVQ = s.EVQ := rfl
@[simp] theorem State.raise_TAPE (s : State) (e : Err) : (s.raise e).TAPE = s.TAPE := rfl
@[simp] theorem State.raise_TAPO (s : State) (e : Err) : (s.raise e).TAPO = s.TAPO := rfl
@[simp] theorem State.raise_inputs (s : State) (e : Err) : (s.raise e).inputs = s.inputs := rfl
@[simp] theorem State.raise_draws (s : State) (e : Err) : (s.raise e).draws = s.draws := rfl

/-! ## State.setCFGD -/

@[simp] theorem State.setCFGD_params (s : State) (b : Bool) : (s.setCFGD b).params = s.params := rfl
@[simp] theorem State.setCFGD_OPA (s : State) (b : Bool) : (s.setCFGD b).OPA = s.OPA := rfl
@[simp] theorem State.setCFGD_OPB (s : State) (b : Bool) : (s.setCFGD b).OPB = s.OPB := rfl
@[simp] theorem State.setCFGD_OPC (s : State) (b : Bool) : (s.setCFGD b).OPC = s.OPC := rfl
@[simp] theorem State.setCFGD_OPD (s : State) (b : Bool) : (s.setCFGD b).OPD = s.OPD := rfl
@[simp] theorem State.setCFGD_RES (s : State) (b : Bool) : (s.setCFGD b).RES = s.RES := rfl
@[simp] theorem State.setCFGD_STATUS (s : State) (b : Bool) :
    (s.setCFGD b).STATUS = { s.STATUS with CFGD := b } := rfl
@[simp] theorem State.setCFGD_fmt (s : State) (b : Bool) : (s.setCFGD b).fmt = s.fmt := rfl
@[simp] theorem State.setCFGD_P (s : State) (b : Bool) : (s.setCFGD b).P = s.P := rfl
@[simp] theorem State.setCFGD_L (s : State) (b : Bool) : (s.setCFGD b).L = s.L := rfl
@[simp] theorem State.setCFGD_lines (s : State) (b : Bool) : (s.setCFGD b).lines = s.lines := rfl
@[simp] theorem State.setCFGD_IN (s : State) (b : Bool) : (s.setCFGD b).IN = s.IN := rfl
@[simp] theorem State.setCFGD_OUT (s : State) (b : Bool) : (s.setCFGD b).OUT = s.OUT := rfl
@[simp] theorem State.setCFGD_EVQ (s : State) (b : Bool) : (s.setCFGD b).EVQ = s.EVQ := rfl
@[simp] theorem State.setCFGD_TAPE (s : State) (b : Bool) : (s.setCFGD b).TAPE = s.TAPE := rfl
@[simp] theorem State.setCFGD_TAPO (s : State) (b : Bool) : (s.setCFGD b).TAPO = s.TAPO := rfl
@[simp] theorem State.setCFGD_inputs (s : State) (b : Bool) : (s.setCFGD b).inputs = s.inputs := rfl
@[simp] theorem State.setCFGD_draws (s : State) (b : Bool) : (s.setCFGD b).draws = s.draws := rfl

/-! ## State.rejectWord -/

@[simp] theorem State.rejectWord_params (s : State) (why : Illegal) :
    (s.rejectWord why).params = s.params := rfl
@[simp] theorem State.rejectWord_OPA (s : State) (why : Illegal) : (s.rejectWord why).OPA = s.OPA := rfl
@[simp] theorem State.rejectWord_OPB (s : State) (why : Illegal) : (s.rejectWord why).OPB = s.OPB := rfl
@[simp] theorem State.rejectWord_OPC (s : State) (why : Illegal) : (s.rejectWord why).OPC = s.OPC := rfl
@[simp] theorem State.rejectWord_OPD (s : State) (why : Illegal) : (s.rejectWord why).OPD = s.OPD := rfl
@[simp] theorem State.rejectWord_RES (s : State) (why : Illegal) : (s.rejectWord why).RES = s.RES := rfl
@[simp] theorem State.rejectWord_STATUS (s : State) (why : Illegal) :
    (s.rejectWord why).STATUS = s.STATUS.set .E_ILL := rfl
@[simp] theorem State.rejectWord_fmt (s : State) (why : Illegal) : (s.rejectWord why).fmt = s.fmt := rfl
@[simp] theorem State.rejectWord_P (s : State) (why : Illegal) : (s.rejectWord why).P = s.P := rfl
@[simp] theorem State.rejectWord_L (s : State) (why : Illegal) : (s.rejectWord why).L = s.L := rfl
@[simp] theorem State.rejectWord_lines (s : State) (why : Illegal) :
    (s.rejectWord why).lines = s.lines := rfl
@[simp] theorem State.rejectWord_IN (s : State) (why : Illegal) : (s.rejectWord why).IN = s.IN := rfl
@[simp] theorem State.rejectWord_OUT (s : State) (why : Illegal) : (s.rejectWord why).OUT = s.OUT := rfl
@[simp] theorem State.rejectWord_EVQ (s : State) (why : Illegal) : (s.rejectWord why).EVQ = s.EVQ := rfl
@[simp] theorem State.rejectWord_TAPE (s : State) (why : Illegal) :
    (s.rejectWord why).TAPE = s.TAPE := rfl
@[simp] theorem State.rejectWord_TAPO (s : State) (why : Illegal) :
    (s.rejectWord why).TAPO = s.TAPO := rfl
@[simp] theorem State.rejectWord_inputs (s : State) (why : Illegal) :
    (s.rejectWord why).inputs = s.inputs := rfl
@[simp] theorem State.rejectWord_draws (s : State) (why : Illegal) :
    (s.rejectWord why).draws = s.draws := rfl

/-! ## State.setParam -/

@[simp] theorem State.setParam_params (s : State) (p : ParamId) (r : Ramp) :
    (s.setParam p r).params = s.params := rfl
@[simp] theorem State.setParam_OPA (s : State) (p : ParamId) (r : Ramp) :
    (s.setParam p r).OPA = s.OPA := rfl
@[simp] theorem State.setParam_OPB (s : State) (p : ParamId) (r : Ramp) :
    (s.setParam p r).OPB = s.OPB := rfl
@[simp] theorem State.setParam_OPC (s : State) (p : ParamId) (r : Ramp) :
    (s.setParam p r).OPC = s.OPC := rfl
@[simp] theorem State.setParam_OPD (s : State) (p : ParamId) (r : Ramp) :
    (s.setParam p r).OPD = s.OPD := rfl
@[simp] theorem State.setParam_RES (s : State) (p : ParamId) (r : Ramp) :
    (s.setParam p r).RES = s.RES := rfl
@[simp] theorem State.setParam_STATUS (s : State) (p : ParamId) (r : Ramp) :
    (s.setParam p r).STATUS = s.STATUS := rfl
@[simp] theorem State.setParam_fmt (s : State) (p : ParamId) (r : Ramp) :
    (s.setParam p r).fmt = s.fmt := rfl
@[simp] theorem State.setParam_P (s : State) (p : ParamId) (r : Ramp) :
    (s.setParam p r).P = s.P.set p r := rfl
@[simp] theorem State.setParam_L (s : State) (p : ParamId) (r : Ramp) : (s.setParam p r).L = s.L := rfl
@[simp] theorem State.setParam_lines (s : State) (p : ParamId) (r : Ramp) :
    (s.setParam p r).lines = s.lines := rfl
@[simp] theorem State.setParam_IN (s : State) (p : ParamId) (r : Ramp) :
    (s.setParam p r).IN = s.IN := rfl
@[simp] theorem State.setParam_OUT (s : State) (p : ParamId) (r : Ramp) :
    (s.setParam p r).OUT = s.OUT := rfl
@[simp] theorem State.setParam_EVQ (s : State) (p : ParamId) (r : Ramp) :
    (s.setParam p r).EVQ = s.EVQ := rfl
@[simp] theorem State.setParam_TAPE (s : State) (p : ParamId) (r : Ramp) :
    (s.setParam p r).TAPE = s.TAPE := rfl
@[simp] theorem State.setParam_TAPO (s : State) (p : ParamId) (r : Ramp) :
    (s.setParam p r).TAPO = s.TAPO := rfl
@[simp] theorem State.setParam_inputs (s : State) (p : ParamId) (r : Ramp) :
    (s.setParam p r).inputs = s.inputs := rfl
@[simp] theorem State.setParam_draws (s : State) (p : ParamId) (r : Ramp) :
    (s.setParam p r).draws = s.draws := rfl

/-! ## State.writeOut -/

@[simp] theorem State.writeOut_params (s : State) (c f : Nat) (v : NUM) :
    (s.writeOut c f v).params = s.params := rfl
@[simp] theorem State.writeOut_OPA (s : State) (c f : Nat) (v : NUM) :
    (s.writeOut c f v).OPA = s.OPA := rfl
@[simp] theorem State.writeOut_OPB (s : State) (c f : Nat) (v : NUM) :
    (s.writeOut c f v).OPB = s.OPB := rfl
@[simp] theorem State.writeOut_OPC (s : State) (c f : Nat) (v : NUM) :
    (s.writeOut c f v).OPC = s.OPC := rfl
@[simp] theorem State.writeOut_OPD (s : State) (c f : Nat) (v : NUM) :
    (s.writeOut c f v).OPD = s.OPD := rfl
@[simp] theorem State.writeOut_RES (s : State) (c f : Nat) (v : NUM) :
    (s.writeOut c f v).RES = s.RES := rfl
@[simp] theorem State.writeOut_STATUS (s : State) (c f : Nat) (v : NUM) :
    (s.writeOut c f v).STATUS = s.STATUS := rfl
@[simp] theorem State.writeOut_fmt (s : State) (c f : Nat) (v : NUM) :
    (s.writeOut c f v).fmt = s.fmt := rfl
@[simp] theorem State.writeOut_P (s : State) (c f : Nat) (v : NUM) : (s.writeOut c f v).P = s.P := rfl
@[simp] theorem State.writeOut_L (s : State) (c f : Nat) (v : NUM) : (s.writeOut c f v).L = s.L := rfl
@[simp] theorem State.writeOut_lines (s : State) (c f : Nat) (v : NUM) :
    (s.writeOut c f v).lines = s.lines := rfl
@[simp] theorem State.writeOut_IN (s : State) (c f : Nat) (v : NUM) :
    (s.writeOut c f v).IN = s.IN := rfl
@[simp] theorem State.writeOut_OUT (s : State) (c f : Nat) (v : NUM) :
    (s.writeOut c f v).OUT = s.OUT.write (s.sampleIndex c f) v := rfl
@[simp] theorem State.writeOut_EVQ (s : State) (c f : Nat) (v : NUM) :
    (s.writeOut c f v).EVQ = s.EVQ := rfl
@[simp] theorem State.writeOut_TAPE (s : State) (c f : Nat) (v : NUM) :
    (s.writeOut c f v).TAPE = s.TAPE := rfl
@[simp] theorem State.writeOut_TAPO (s : State) (c f : Nat) (v : NUM) :
    (s.writeOut c f v).TAPO = s.TAPO := rfl
@[simp] theorem State.writeOut_inputs (s : State) (c f : Nat) (v : NUM) :
    (s.writeOut c f v).inputs = s.inputs := rfl
@[simp] theorem State.writeOut_draws (s : State) (c f : Nat) (v : NUM) :
    (s.writeOut c f v).draws = s.draws := rfl

/-! ## State.afterDraws -/

@[simp] theorem State.afterDraws_params (s : State) (n : Nat) :
    (s.afterDraws n).params = s.params := rfl
@[simp] theorem State.afterDraws_OPA (s : State) (n : Nat) : (s.afterDraws n).OPA = s.OPA := rfl
@[simp] theorem State.afterDraws_OPB (s : State) (n : Nat) : (s.afterDraws n).OPB = s.OPB := rfl
@[simp] theorem State.afterDraws_OPC (s : State) (n : Nat) : (s.afterDraws n).OPC = s.OPC := rfl
@[simp] theorem State.afterDraws_OPD (s : State) (n : Nat) : (s.afterDraws n).OPD = s.OPD := rfl
@[simp] theorem State.afterDraws_RES (s : State) (n : Nat) : (s.afterDraws n).RES = s.RES := rfl
@[simp] theorem State.afterDraws_STATUS (s : State) (n : Nat) :
    (s.afterDraws n).STATUS = s.STATUS := rfl
@[simp] theorem State.afterDraws_fmt (s : State) (n : Nat) : (s.afterDraws n).fmt = s.fmt := rfl
@[simp] theorem State.afterDraws_P (s : State) (n : Nat) : (s.afterDraws n).P = s.P := rfl
@[simp] theorem State.afterDraws_L (s : State) (n : Nat) : (s.afterDraws n).L = s.L := rfl
@[simp] theorem State.afterDraws_lines (s : State) (n : Nat) : (s.afterDraws n).lines = s.lines := rfl
@[simp] theorem State.afterDraws_IN (s : State) (n : Nat) : (s.afterDraws n).IN = s.IN := rfl
@[simp] theorem State.afterDraws_OUT (s : State) (n : Nat) : (s.afterDraws n).OUT = s.OUT := rfl
@[simp] theorem State.afterDraws_EVQ (s : State) (n : Nat) : (s.afterDraws n).EVQ = s.EVQ := rfl
@[simp] theorem State.afterDraws_TAPE (s : State) (n : Nat) : (s.afterDraws n).TAPE = s.TAPE := rfl
@[simp] theorem State.afterDraws_TAPO (s : State) (n : Nat) : (s.afterDraws n).TAPO = s.TAPO := rfl
@[simp] theorem State.afterDraws_inputs (s : State) (n : Nat) :
    (s.afterDraws n).inputs = s.inputs := rfl
@[simp] theorem State.afterDraws_draws (s : State) (n : Nat) :
    (s.afterDraws n).draws = s.draws + n := rfl

/-! ## State.havocOUT -/

@[simp] theorem State.havocOUT_params (s : State) : s.havocOUT.params = s.params := rfl
@[simp] theorem State.havocOUT_OPA (s : State) : s.havocOUT.OPA = s.OPA := rfl
@[simp] theorem State.havocOUT_OPB (s : State) : s.havocOUT.OPB = s.OPB := rfl
@[simp] theorem State.havocOUT_OPC (s : State) : s.havocOUT.OPC = s.OPC := rfl
@[simp] theorem State.havocOUT_OPD (s : State) : s.havocOUT.OPD = s.OPD := rfl
@[simp] theorem State.havocOUT_RES (s : State) : s.havocOUT.RES = s.RES := rfl
@[simp] theorem State.havocOUT_STATUS (s : State) : s.havocOUT.STATUS = s.STATUS := rfl
@[simp] theorem State.havocOUT_fmt (s : State) : s.havocOUT.fmt = s.fmt := rfl
@[simp] theorem State.havocOUT_P (s : State) : s.havocOUT.P = s.P := rfl
@[simp] theorem State.havocOUT_L (s : State) : s.havocOUT.L = s.L := rfl
@[simp] theorem State.havocOUT_lines (s : State) : s.havocOUT.lines = s.lines := rfl
@[simp] theorem State.havocOUT_IN (s : State) : s.havocOUT.IN = s.IN := rfl
@[simp] theorem State.havocOUT_OUT (s : State) :
    s.havocOUT.OUT = Memory.drawn s.sampleWords s.draws := rfl
@[simp] theorem State.havocOUT_EVQ (s : State) : s.havocOUT.EVQ = s.EVQ := rfl
@[simp] theorem State.havocOUT_TAPE (s : State) : s.havocOUT.TAPE = s.TAPE := rfl
@[simp] theorem State.havocOUT_TAPO (s : State) : s.havocOUT.TAPO = s.TAPO := rfl
@[simp] theorem State.havocOUT_inputs (s : State) : s.havocOUT.inputs = s.inputs := rfl
@[simp] theorem State.havocOUT_draws (s : State) : s.havocOUT.draws = s.draws + s.sampleWords := rfl

/-! ## State.havocP -/

@[simp] theorem State.havocP_params (s : State) : s.havocP.params = s.params := rfl
@[simp] theorem State.havocP_OPA (s : State) : s.havocP.OPA = s.OPA := rfl
@[simp] theorem State.havocP_OPB (s : State) : s.havocP.OPB = s.OPB := rfl
@[simp] theorem State.havocP_OPC (s : State) : s.havocP.OPC = s.OPC := rfl
@[simp] theorem State.havocP_OPD (s : State) : s.havocP.OPD = s.OPD := rfl
@[simp] theorem State.havocP_RES (s : State) : s.havocP.RES = s.RES := rfl
@[simp] theorem State.havocP_STATUS (s : State) : s.havocP.STATUS = s.STATUS := rfl
@[simp] theorem State.havocP_fmt (s : State) : s.havocP.fmt = s.fmt := rfl
@[simp] theorem State.havocP_L (s : State) : s.havocP.L = s.L := rfl
@[simp] theorem State.havocP_lines (s : State) : s.havocP.lines = s.lines := rfl
@[simp] theorem State.havocP_IN (s : State) : s.havocP.IN = s.IN := rfl
@[simp] theorem State.havocP_OUT (s : State) : s.havocP.OUT = s.OUT := rfl
@[simp] theorem State.havocP_EVQ (s : State) : s.havocP.EVQ = s.EVQ := rfl
@[simp] theorem State.havocP_TAPE (s : State) : s.havocP.TAPE = s.TAPE := rfl
@[simp] theorem State.havocP_TAPO (s : State) : s.havocP.TAPO = s.TAPO := rfl
@[simp] theorem State.havocP_inputs (s : State) : s.havocP.inputs = s.inputs := rfl
@[simp] theorem State.havocP_draws (s : State) : s.havocP.draws = s.draws + 24 := rfl

/-! ## State.havocL -/

@[simp] theorem State.havocL_params (s : State) : s.havocL.params = s.params := rfl
@[simp] theorem State.havocL_OPA (s : State) : s.havocL.OPA = s.OPA := rfl
@[simp] theorem State.havocL_OPB (s : State) : s.havocL.OPB = s.OPB := rfl
@[simp] theorem State.havocL_OPC (s : State) : s.havocL.OPC = s.OPC := rfl
@[simp] theorem State.havocL_OPD (s : State) : s.havocL.OPD = s.OPD := rfl
@[simp] theorem State.havocL_RES (s : State) : s.havocL.RES = s.RES := rfl
@[simp] theorem State.havocL_STATUS (s : State) : s.havocL.STATUS = s.STATUS := rfl
@[simp] theorem State.havocL_fmt (s : State) : s.havocL.fmt = s.fmt := rfl
@[simp] theorem State.havocL_P (s : State) : s.havocL.P = s.P := rfl
@[simp] theorem State.havocL_lines (s : State) : s.havocL.lines = s.lines := rfl
@[simp] theorem State.havocL_IN (s : State) : s.havocL.IN = s.IN := rfl
@[simp] theorem State.havocL_OUT (s : State) : s.havocL.OUT = s.OUT := rfl
@[simp] theorem State.havocL_EVQ (s : State) : s.havocL.EVQ = s.EVQ := rfl
@[simp] theorem State.havocL_TAPE (s : State) : s.havocL.TAPE = s.TAPE := rfl
@[simp] theorem State.havocL_TAPO (s : State) : s.havocL.TAPO = s.TAPO := rfl
@[simp] theorem State.havocL_inputs (s : State) : s.havocL.inputs = s.inputs := rfl
@[simp] theorem State.havocL_draws (s : State) : s.havocL.draws = s.draws + 5 * s.params.T := rfl

/-! ## State.havocLines -/

@[simp] theorem State.havocLines_params (s : State) : s.havocLines.params = s.params := rfl
@[simp] theorem State.havocLines_OPA (s : State) : s.havocLines.OPA = s.OPA := rfl
@[simp] theorem State.havocLines_OPB (s : State) : s.havocLines.OPB = s.OPB := rfl
@[simp] theorem State.havocLines_OPC (s : State) : s.havocLines.OPC = s.OPC := rfl
@[simp] theorem State.havocLines_OPD (s : State) : s.havocLines.OPD = s.OPD := rfl
@[simp] theorem State.havocLines_RES (s : State) : s.havocLines.RES = s.RES := rfl
@[simp] theorem State.havocLines_STATUS (s : State) : s.havocLines.STATUS = s.STATUS := rfl
@[simp] theorem State.havocLines_fmt (s : State) : s.havocLines.fmt = s.fmt := rfl
@[simp] theorem State.havocLines_P (s : State) : s.havocLines.P = s.P := rfl
@[simp] theorem State.havocLines_L (s : State) : s.havocLines.L = s.L := rfl
@[simp] theorem State.havocLines_IN (s : State) : s.havocLines.IN = s.IN := rfl
@[simp] theorem State.havocLines_OUT (s : State) : s.havocLines.OUT = s.OUT := rfl
@[simp] theorem State.havocLines_EVQ (s : State) : s.havocLines.EVQ = s.EVQ := rfl
@[simp] theorem State.havocLines_TAPE (s : State) : s.havocLines.TAPE = s.TAPE := rfl
@[simp] theorem State.havocLines_TAPO (s : State) : s.havocLines.TAPO = s.TAPO := rfl
@[simp] theorem State.havocLines_inputs (s : State) : s.havocLines.inputs = s.inputs := rfl
@[simp] theorem State.havocLines_draws (s : State) :
    s.havocLines.draws = s.draws + (s.fmt.N + 1) * s.fmt.C := rfl

/-! ## dlWrite -/

@[simp] theorem dlWrite_params (s : State) (c : Nat) (x : NUM) :
    (dlWrite c x s).params = s.params := rfl
@[simp] theorem dlWrite_OPA (s : State) (c : Nat) (x : NUM) : (dlWrite c x s).OPA = s.OPA := rfl
@[simp] theorem dlWrite_OPB (s : State) (c : Nat) (x : NUM) : (dlWrite c x s).OPB = s.OPB := rfl
@[simp] theorem dlWrite_OPC (s : State) (c : Nat) (x : NUM) : (dlWrite c x s).OPC = s.OPC := rfl
@[simp] theorem dlWrite_OPD (s : State) (c : Nat) (x : NUM) : (dlWrite c x s).OPD = s.OPD := rfl
@[simp] theorem dlWrite_RES (s : State) (c : Nat) (x : NUM) : (dlWrite c x s).RES = s.RES := rfl
@[simp] theorem dlWrite_STATUS (s : State) (c : Nat) (x : NUM) :
    (dlWrite c x s).STATUS = s.STATUS := rfl
@[simp] theorem dlWrite_fmt (s : State) (c : Nat) (x : NUM) : (dlWrite c x s).fmt = s.fmt := rfl
@[simp] theorem dlWrite_P (s : State) (c : Nat) (x : NUM) : (dlWrite c x s).P = s.P := rfl
@[simp] theorem dlWrite_L (s : State) (c : Nat) (x : NUM) : (dlWrite c x s).L = s.L := rfl
@[simp] theorem dlWrite_lines (s : State) (c : Nat) (x : NUM) :
    (dlWrite c x s).lines = s.lines.modify c (fun l => l.write s.fmt.N x) := rfl
@[simp] theorem dlWrite_IN (s : State) (c : Nat) (x : NUM) : (dlWrite c x s).IN = s.IN := rfl
@[simp] theorem dlWrite_OUT (s : State) (c : Nat) (x : NUM) : (dlWrite c x s).OUT = s.OUT := rfl
@[simp] theorem dlWrite_EVQ (s : State) (c : Nat) (x : NUM) : (dlWrite c x s).EVQ = s.EVQ := rfl
@[simp] theorem dlWrite_TAPE (s : State) (c : Nat) (x : NUM) : (dlWrite c x s).TAPE = s.TAPE := rfl
@[simp] theorem dlWrite_TAPO (s : State) (c : Nat) (x : NUM) : (dlWrite c x s).TAPO = s.TAPO := rfl
@[simp] theorem dlWrite_inputs (s : State) (c : Nat) (x : NUM) :
    (dlWrite c x s).inputs = s.inputs := rfl
@[simp] theorem dlWrite_draws (s : State) (c : Nat) (x : NUM) : (dlWrite c x s).draws = s.draws := rfl

/-! ## State.modifyOsc -/

@[simp] theorem State.modifyOsc_params (s : State) (i : Nat) (f : Osc → Osc) :
    (s.modifyOsc i f).params = s.params := rfl
@[simp] theorem State.modifyOsc_OPA (s : State) (i : Nat) (f : Osc → Osc) :
    (s.modifyOsc i f).OPA = s.OPA := rfl
@[simp] theorem State.modifyOsc_OPB (s : State) (i : Nat) (f : Osc → Osc) :
    (s.modifyOsc i f).OPB = s.OPB := rfl
@[simp] theorem State.modifyOsc_OPC (s : State) (i : Nat) (f : Osc → Osc) :
    (s.modifyOsc i f).OPC = s.OPC := rfl
@[simp] theorem State.modifyOsc_OPD (s : State) (i : Nat) (f : Osc → Osc) :
    (s.modifyOsc i f).OPD = s.OPD := rfl
@[simp] theorem State.modifyOsc_RES (s : State) (i : Nat) (f : Osc → Osc) :
    (s.modifyOsc i f).RES = s.RES := rfl
@[simp] theorem State.modifyOsc_STATUS (s : State) (i : Nat) (f : Osc → Osc) :
    (s.modifyOsc i f).STATUS = s.STATUS := rfl
@[simp] theorem State.modifyOsc_fmt (s : State) (i : Nat) (f : Osc → Osc) :
    (s.modifyOsc i f).fmt = s.fmt := rfl
@[simp] theorem State.modifyOsc_P (s : State) (i : Nat) (f : Osc → Osc) :
    (s.modifyOsc i f).P = s.P := rfl
@[simp] theorem State.modifyOsc_L (s : State) (i : Nat) (f : Osc → Osc) :
    (s.modifyOsc i f).L = s.L.modify i f := rfl
@[simp] theorem State.modifyOsc_lines (s : State) (i : Nat) (f : Osc → Osc) :
    (s.modifyOsc i f).lines = s.lines := rfl
@[simp] theorem State.modifyOsc_IN (s : State) (i : Nat) (f : Osc → Osc) :
    (s.modifyOsc i f).IN = s.IN := rfl
@[simp] theorem State.modifyOsc_OUT (s : State) (i : Nat) (f : Osc → Osc) :
    (s.modifyOsc i f).OUT = s.OUT := rfl
@[simp] theorem State.modifyOsc_EVQ (s : State) (i : Nat) (f : Osc → Osc) :
    (s.modifyOsc i f).EVQ = s.EVQ := rfl
@[simp] theorem State.modifyOsc_TAPE (s : State) (i : Nat) (f : Osc → Osc) :
    (s.modifyOsc i f).TAPE = s.TAPE := rfl
@[simp] theorem State.modifyOsc_TAPO (s : State) (i : Nat) (f : Osc → Osc) :
    (s.modifyOsc i f).TAPO = s.TAPO := rfl
@[simp] theorem State.modifyOsc_inputs (s : State) (i : Nat) (f : Osc → Osc) :
    (s.modifyOsc i f).inputs = s.inputs := rfl
@[simp] theorem State.modifyOsc_draws (s : State) (i : Nat) (f : Osc → Osc) :
    (s.modifyOsc i f).draws = s.draws := rfl

/-! ## mapBank -/

@[simp] theorem mapBank_params (s : State) (f : Nat → Osc → Osc) :
    (mapBank f s).params = s.params := rfl
@[simp] theorem mapBank_OPA (s : State) (f : Nat → Osc → Osc) : (mapBank f s).OPA = s.OPA := rfl
@[simp] theorem mapBank_OPB (s : State) (f : Nat → Osc → Osc) : (mapBank f s).OPB = s.OPB := rfl
@[simp] theorem mapBank_OPC (s : State) (f : Nat → Osc → Osc) : (mapBank f s).OPC = s.OPC := rfl
@[simp] theorem mapBank_OPD (s : State) (f : Nat → Osc → Osc) : (mapBank f s).OPD = s.OPD := rfl
@[simp] theorem mapBank_RES (s : State) (f : Nat → Osc → Osc) : (mapBank f s).RES = s.RES := rfl
@[simp] theorem mapBank_STATUS (s : State) (f : Nat → Osc → Osc) :
    (mapBank f s).STATUS = s.STATUS := rfl
@[simp] theorem mapBank_fmt (s : State) (f : Nat → Osc → Osc) : (mapBank f s).fmt = s.fmt := rfl
@[simp] theorem mapBank_P (s : State) (f : Nat → Osc → Osc) : (mapBank f s).P = s.P := rfl
@[simp] theorem mapBank_L (s : State) (f : Nat → Osc → Osc) :
    (mapBank f s).L = (List.range s.params.T).map fun i => f i (s.osc i) := rfl
@[simp] theorem mapBank_lines (s : State) (f : Nat → Osc → Osc) : (mapBank f s).lines = s.lines := rfl
@[simp] theorem mapBank_IN (s : State) (f : Nat → Osc → Osc) : (mapBank f s).IN = s.IN := rfl
@[simp] theorem mapBank_OUT (s : State) (f : Nat → Osc → Osc) : (mapBank f s).OUT = s.OUT := rfl
@[simp] theorem mapBank_EVQ (s : State) (f : Nat → Osc → Osc) : (mapBank f s).EVQ = s.EVQ := rfl
@[simp] theorem mapBank_TAPE (s : State) (f : Nat → Osc → Osc) : (mapBank f s).TAPE = s.TAPE := rfl
@[simp] theorem mapBank_TAPO (s : State) (f : Nat → Osc → Osc) : (mapBank f s).TAPO = s.TAPO := rfl
@[simp] theorem mapBank_inputs (s : State) (f : Nat → Osc → Osc) :
    (mapBank f s).inputs = s.inputs := rfl
@[simp] theorem mapBank_draws (s : State) (f : Nat → Osc → Osc) : (mapBank f s).draws = s.draws := rfl

/-! ## buildBank -/

@[simp] theorem buildBank_params (s : State) (r : NUM) : (buildBank r s).params = s.params := rfl
@[simp] theorem buildBank_OPA (s : State) (r : NUM) : (buildBank r s).OPA = s.OPA := rfl
@[simp] theorem buildBank_OPB (s : State) (r : NUM) : (buildBank r s).OPB = s.OPB := rfl
@[simp] theorem buildBank_OPC (s : State) (r : NUM) : (buildBank r s).OPC = s.OPC := rfl
@[simp] theorem buildBank_OPD (s : State) (r : NUM) : (buildBank r s).OPD = s.OPD := rfl
@[simp] theorem buildBank_RES (s : State) (r : NUM) : (buildBank r s).RES = s.RES := rfl
@[simp] theorem buildBank_STATUS (s : State) (r : NUM) : (buildBank r s).STATUS = s.STATUS := rfl
@[simp] theorem buildBank_fmt (s : State) (r : NUM) : (buildBank r s).fmt = s.fmt := rfl
@[simp] theorem buildBank_P (s : State) (r : NUM) : (buildBank r s).P = s.P := rfl
@[simp] theorem buildBank_L (s : State) (r : NUM) :
    (buildBank r s).L = (List.range s.params.T).map (newOsc s.params s.fmt.FS r) := rfl
@[simp] theorem buildBank_lines (s : State) (r : NUM) : (buildBank r s).lines = s.lines := rfl
@[simp] theorem buildBank_IN (s : State) (r : NUM) : (buildBank r s).IN = s.IN := rfl
@[simp] theorem buildBank_OUT (s : State) (r : NUM) : (buildBank r s).OUT = s.OUT := rfl
@[simp] theorem buildBank_EVQ (s : State) (r : NUM) : (buildBank r s).EVQ = s.EVQ := rfl
@[simp] theorem buildBank_TAPE (s : State) (r : NUM) : (buildBank r s).TAPE = s.TAPE := rfl
@[simp] theorem buildBank_TAPO (s : State) (r : NUM) : (buildBank r s).TAPO = s.TAPO := rfl
@[simp] theorem buildBank_inputs (s : State) (r : NUM) : (buildBank r s).inputs = s.inputs := rfl
@[simp] theorem buildBank_draws (s : State) (r : NUM) : (buildBank r s).draws = s.draws := rfl

/-! ## advanceBank -/

@[simp] theorem advanceBank_params (s : State) : (advanceBank s).params = s.params := rfl
@[simp] theorem advanceBank_OPA (s : State) : (advanceBank s).OPA = s.OPA := rfl
@[simp] theorem advanceBank_OPB (s : State) : (advanceBank s).OPB = s.OPB := rfl
@[simp] theorem advanceBank_OPC (s : State) : (advanceBank s).OPC = s.OPC := rfl
@[simp] theorem advanceBank_OPD (s : State) : (advanceBank s).OPD = s.OPD := rfl
@[simp] theorem advanceBank_RES (s : State) : (advanceBank s).RES = s.RES := rfl
@[simp] theorem advanceBank_STATUS (s : State) : (advanceBank s).STATUS = s.STATUS := rfl
@[simp] theorem advanceBank_fmt (s : State) : (advanceBank s).fmt = s.fmt := rfl
@[simp] theorem advanceBank_P (s : State) : (advanceBank s).P = s.P := rfl
@[simp] theorem advanceBank_L (s : State) :
    (advanceBank s).L = (List.range s.params.T).map fun i => (s.osc i).increment := rfl
@[simp] theorem advanceBank_lines (s : State) : (advanceBank s).lines = s.lines := rfl
@[simp] theorem advanceBank_IN (s : State) : (advanceBank s).IN = s.IN := rfl
@[simp] theorem advanceBank_OUT (s : State) : (advanceBank s).OUT = s.OUT := rfl
@[simp] theorem advanceBank_EVQ (s : State) : (advanceBank s).EVQ = s.EVQ := rfl
@[simp] theorem advanceBank_TAPE (s : State) : (advanceBank s).TAPE = s.TAPE := rfl
@[simp] theorem advanceBank_TAPO (s : State) : (advanceBank s).TAPO = s.TAPO := rfl
@[simp] theorem advanceBank_inputs (s : State) : (advanceBank s).inputs = s.inputs := rfl
@[simp] theorem advanceBank_draws (s : State) : (advanceBank s).draws = s.draws := rfl

end Sys2Proof.Machine
end

