-- ==== Sys2Proof/Laws/Ops.lean ====
section
/-!
SUPPORT. One lemma for each shared operation: the parameter file, STATUS, the two checks, ramps, delay-line
reads and writes, oscillators, tap writes.
-/

namespace Sys2Proof.Machine

/-! ## Parameter ids and the parameter file -/

@[simp] theorem ParamId.ofNat?_toNat (p : ParamId) : ParamId.ofNat? p.toNat = some p := by cases p <;> rfl

theorem ParamId.ofNat?_unknown {n : Nat} (h : 5 < n) : ParamId.ofNat? n = none := by
  match n, h with
  | n + 6, _ => rfl

theorem ParamId.ofNat?_eq_none {n : Nat} : ParamId.ofNat? n = none ↔ 5 < n := by
  refine ⟨fun h => ?_, ParamId.ofNat?_unknown⟩
  by_contra hn
  have : n = 0 ∨ n = 1 ∨ n = 2 ∨ n = 3 ∨ n = 4 ∨ n = 5 := by omega
  rcases this with rfl | rfl | rfl | rfl | rfl | rfl <;> simp [ParamId.ofNat?] at h

theorem ParamId.ofNat?_some {n : Nat} {p : ParamId} (h : ParamId.ofNat? n = some p) : n = p.toNat := by
  by_cases hn : 5 < n
  · rw [ParamId.ofNat?_unknown hn] at h; cases h
  · have : n = 0 ∨ n = 1 ∨ n = 2 ∨ n = 3 ∨ n = 4 ∨ n = 5 := by omega
    rcases this with rfl | rfl | rfl | rfl | rfl | rfl <;> (cases h; rfl)

@[simp] theorem ParamFile.get_set (P : ParamFile) (p : ParamId) (r : Ramp) : (P.set p r).get p = r := by
  cases p <;> rfl

theorem ParamFile.get_set_other (P : ParamFile) {p q : ParamId} (r : Ramp) (h : q ≠ p) :
    (P.set p r).get q = P.get q := by
  cases p <;> cases q <;> first | rfl | exact absurd rfl h

@[simp] theorem ParamFile.set_set (P : ParamFile) (p : ParamId) (r r' : Ramp) :
    (P.set p r).set p r' = P.set p r' := by cases p <;> rfl

/-! ## STATUS -/

@[simp] theorem Status.set_CFGD (st : Status) (e : Err) : (st.set e).CFGD = st.CFGD := by cases e <;> rfl

theorem Status.has_set (st : Status) (e e' : Err) : (st.set e).has e' = (decide (e = e') || st.has e') := by
  cases e <;> cases e' <;> simp [Status.set, Status.has]

/-- Raising an error changes one bit and nothing else (10_state.md R36). -/
theorem State.raise_eq (s : State) (e : Err) : s.raise e = { s with STATUS := s.STATUS.set e } := rfl

/-! ## The two checks -/

@[simp] theorem State.ifConfigured_true {s : State} (h : s.STATUS.CFGD = true) (t : State) :
    s.ifConfigured t = t := by simp [State.ifConfigured, h]

@[simp] theorem State.ifConfigured_false {s : State} (h : s.STATUS.CFGD = false) (t : State) :
    s.ifConfigured t = s.raise .E_NOTCFG := by simp [State.ifConfigured, h]

@[simp] theorem State.ifSelects_true (s t : State) : s.ifSelects true t = t := rfl

@[simp] theorem State.ifSelects_false (s t : State) : s.ifSelects false t = s.raise .E_SEL := rfl

/-- What the two checks before a test-port command can give: E_NOTCFG, E_SEL, or the command's effect. -/
theorem State.checks_cases (s : State) (ok : Bool) (t : State) :
    (s.STATUS.CFGD = false ∧ s.ifConfigured (s.ifSelects ok t) = s.raise .E_NOTCFG) ∨
    (s.STATUS.CFGD = true ∧ ok = false ∧ s.ifConfigured (s.ifSelects ok t) = s.raise .E_SEL) ∨
    (s.STATUS.CFGD = true ∧ ok = true ∧ s.ifConfigured (s.ifSelects ok t) = t) := by
  cases h : s.STATUS.CFGD
  · exact .inl ⟨rfl, by simp [h]⟩
  · cases ok
    · exact .inr (.inl ⟨rfl, rfl, by simp [h]⟩)
    · exact .inr (.inr ⟨rfl, rfl, by simp [h]⟩)

/-! ## Ramps -/

theorem rpSet_zero (R : Ramp) (t : NUM) : rpSet R t 0#32 = ⟨t, t, 0#32, 0#32⟩ := by
  simp [rpSet, NUM.zero]

theorem rpSet_pos (R : Ramp) (t : NUM) {n : Word} (h : n ≠ 0#32) :
    rpSet R t n = ⟨R.value, t, NUM.div (NUM.sub t R.value) (toNUM n.toNat), n⟩ := by
  simp [rpSet, h]

theorem rpFrame_rest {R : Ramp} (h : R.remaining = 0#32) : rpFrame R = R := by simp [rpFrame, h]

theorem rpFrame_last {R : Ramp} (h : R.remaining = 1#32) :
    rpFrame R = ⟨R.target, R.target, R.step, 0#32⟩ := by
  simp [rpFrame, h]

theorem rpFrame_more {R : Ramp} (h0 : R.remaining ≠ 0#32) (h1 : R.remaining ≠ 1#32) :
    rpFrame R = ⟨NUM.add R.value R.step, R.target, R.step, R.remaining - 1#32⟩ := by
  simp [rpFrame, h0, h1]

@[simp] theorem rpFrame_target (R : Ramp) : (rpFrame R).target = R.target := by
  unfold rpFrame; split
  · rfl
  · split <;> rfl

@[simp] theorem rpFrame_step (R : Ramp) : (rpFrame R).step = R.step := by
  unfold rpFrame; split
  · rfl
  · split <;> rfl

theorem Ramp.still_settled (v : NUM) : (Ramp.still v).settled := fun _ => rfl

theorem rpSet_settled (R : Ramp) (t : NUM) (n : Word) : (rpSet R t n).settled := by
  by_cases h : n = 0#32
  · subst h; rw [rpSet_zero]; exact fun _ => rfl
  · rw [rpSet_pos R t h]; exact fun h' => absurd h' h

theorem rpFrame_settled {R : Ramp} (h : R.settled) : (rpFrame R).settled := by
  by_cases h0 : R.remaining = 0#32
  · rwa [rpFrame_rest h0]
  · by_cases h1 : R.remaining = 1#32
    · rw [rpFrame_last h1]; exact fun _ => rfl
    · rw [rpFrame_more h0 h1]
      intro h2
      exfalso
      apply h1
      simp only at h2
      bv_omega

/-! ## Lists by number -/

theorem getD_modify_same {α : Type} (l : List α) (f : α → α) (d : α) {i : Nat} (h : i < l.length) :
    (l.modify i f).getD i d = f (l.getD i d) := by
  simp [List.getD, h]

theorem getD_modify_other {α : Type} (l : List α) (f : α → α) (d : α) {i j : Nat} (h : j ≠ i) :
    (l.modify i f).getD j d = l.getD j d := by
  simp [List.getD, h.symm]

theorem getD_map_range {α : Type} (f : Nat → α) (d : α) {n i : Nat} (h : i < n) :
    ((List.range n).map f).getD i d = f i := by
  simp [List.getD, h]

/-! ## Delay lines -/

/-- A write stores the sample at the cursor and changes no other word (40_delay_line.md R142). -/
theorem Line.read_write (l : Line) (N : Nat) (x : NUM) (j : Nat) :
    (l.write N x).cells.read j = if j = l.WC then x else l.cells.read j :=
  Memory.read_write l.cells l.WC x j

theorem Line.write_sound {N : Nat} {l : Line} (h : l.sound N) (x : NUM) : (l.write N x).sound N :=
  ⟨Nat.mod_lt _ (Nat.zero_lt_of_lt h.1), Memory.write_wf h.2.1 _ _, Memory.write_within h.2.2 h.1 _⟩

theorem Line.fresh_sound {N : Nat} (h : 0 < N) : Line.sound N { WC := 0, cells := [] } :=
  ⟨h, Memory.wf_nil, by simp [Memory.within]⟩

theorem dlWrite_line_same (s : State) {c : Nat} (x : NUM) (h : c < s.lines.length) :
    (dlWrite c x s).line c = (s.line c).write s.fmt.N x := getD_modify_same _ _ _ h

theorem dlWrite_line_other (s : State) {c d : Nat} (x : NUM) (h : d ≠ c) :
    (dlWrite c x s).line d = s.line d := getD_modify_other _ _ _ h

theorem capacity_pos (md fs : NUM) : 0 < capacity md fs := by simp [capacity]

/-- A read changes no state but E_RANGE and the count of draws (R143, R148). -/
theorem dlRead_state (c : Nat) (x : NUM) (s : State) :
    (dlRead c x s).2 = { s with
      STATUS := { s.STATUS with E_RANGE := s.STATUS.E_RANGE || !offsetInRange s.fmt.N x }
      draws := s.draws + if offsetInRange s.fmt.N x then 0 else 1 } := by
  unfold dlRead
  split
  · rename_i h; simp [h]
  · rename_i h
    simp [h, State.raise, State.afterDraws, Status.set]

/-- At t = 0 the cubic of finite points is b, and +0.0 for −0.0 (40_delay_line.md R147 (1)). -/
theorem cr_at_zero {t a b c d : NUM} (ht : NUM.isZero t = true) (ha : NUM.isFinite a = true)
    (hb : NUM.isFinite b = true) (hc : NUM.isFinite c = true) (hd : NUM.isFinite d = true) :
    cr t a b c d = NUM.add b NUM.zero := by simp [cr, ht, ha, hb, hc, hd]

/-- Everywhere else it is R144's expression. -/
theorem cr_elsewhere {t a b c d : NUM} (h : ¬ (NUM.isZero t = true ∧ NUM.isFinite a = true ∧
    NUM.isFinite b = true ∧ NUM.isFinite c = true ∧ NUM.isFinite d = true)) :
    cr t a b c d = crInOrder t a b c d := by
  rw [cr, if_neg]
  simpa [and_assoc] using h

theorem dlRead_inside {s : State} {x : NUM} (c : Nat) (h : offsetInRange s.fmt.N x = true) :
    dlRead c x s = (lineRead s.params s.fmt.N (s.line c) x, s) := by simp [dlRead, h]

theorem dlRead_outside {s : State} {x : NUM} (c : Nat) (h : offsetInRange s.fmt.N x = false) :
    dlRead c x s = (Config.draw s.draws, (s.raise .E_RANGE).afterDraws 1) := by
  simp [dlRead, h, State.nextDraw]

/-! ## Oscillators -/

theorem mapBank_osc (f : Nat → Osc → Osc) (s : State) {i : Nat} (h : i < s.params.T) :
    (mapBank f s).osc i = f i (s.osc i) := by
  simp only [State.osc, mapBank_L]
  rw [getD_map_range _ _ h]

theorem advanceBank_osc (s : State) {i : Nat} (h : i < s.params.T) :
    (advanceBank s).osc i = (s.osc i).increment := mapBank_osc _ s h

theorem buildBank_osc (r : NUM) (s : State) {i : Nat} (h : i < s.params.T) :
    (buildBank r s).osc i = newOsc s.params s.fmt.FS r i := by
  simp only [State.osc, buildBank_L]
  rw [getD_map_range _ _ h]

theorem modifyOsc_osc_same (s : State) {i : Nat} (f : Osc → Osc) (h : i < s.L.length) :
    (s.modifyOsc i f).osc i = f (s.osc i) := getD_modify_same _ _ _ h

theorem modifyOsc_osc_other (s : State) {i j : Nat} (f : Osc → Osc) (h : j ≠ i) :
    (s.modifyOsc i f).osc j = s.osc j := getD_modify_other _ _ _ h

theorem Osc.increment_inCycle (o : Osc) : inCycle o.increment.phase = true := wrap_inCycle _

theorem Params.T_pos (p : Params) : 1 ≤ p.T := by
  unfold Params.T; split <;> omega

theorem Params.T_le (p : Params) : p.T ≤ 50 := by
  have := p.chorusTapsLess1.isLt
  unfold Params.T; split <;> omega

/-! ## Havoc -/

@[simp] theorem State.havocL_length (s : State) : s.havocL.L.length = s.params.T := by simp [State.havocL]

@[simp] theorem State.havocLines_length (s : State) : s.havocLines.lines.length = s.fmt.C := by
  simp [State.havocLines]

theorem State.havocL_osc (s : State) {i : Nat} (h : i < s.params.T) :
    s.havocL.osc i = { phase := Config.draw (s.draws + 5 * i), inc := drawnRamp (s.draws + 5 * i + 1) } :=
  getD_map_range _ _ h

theorem State.havocLines_line (s : State) {c : Nat} (h : c < s.fmt.C) :
    s.havocLines.line c =
      { WC := (Config.draw (s.draws + (s.fmt.N + 1) * c)).toNat % s.fmt.N
        cells := Memory.drawn s.fmt.N (s.draws + (s.fmt.N + 1) * c + 1) } := getD_map_range _ _ h

/-- A havocked line is sound (44_engine.md R271: each cursor is some number below N). -/
theorem State.havocLines_sound (s : State) (hN : 0 < s.fmt.N) :
    ∀ l ∈ s.havocLines.lines, Line.sound s.fmt.N l := by
  intro l hl
  simp only [State.havocLines, List.mem_map] at hl
  obtain ⟨c, _, rfl⟩ := hl
  exact ⟨Nat.mod_lt _ hN, Memory.drawn_wf _ _, Memory.drawn_within _ _⟩

/-! ## Tap writes -/

theorem writeTaps_read (taps : List NUM) (m : Memory) (k j : Nat) :
    (writeTaps m k taps).read j = if k ≤ j ∧ j < k + taps.length then taps.getD (j - k) 0#32 else m.read j := by
  induction taps generalizing m k with
  | nil => simp [writeTaps]
  | cons x rest ih =>
    rw [writeTaps, ih, Memory.read_write]
    by_cases hj : j = k
    · subst hj; simp
    · by_cases hin : k + 1 ≤ j ∧ j < k + 1 + rest.length
      · rw [if_pos hin, if_pos (by simp; omega)]
        obtain ⟨m, hm⟩ : ∃ m, j - k = m + 1 := ⟨j - k - 1, by omega⟩
        rw [hm, show j - (k + 1) = m by omega]
        simp
      · rw [if_neg hin, if_neg hj, if_neg (by simp; omega)]

theorem writeTaps_wf {m : Memory} (h : m.wf) (k : Nat) (taps : List NUM) : (writeTaps m k taps).wf := by
  induction taps generalizing m k with
  | nil => exact h
  | cons x rest ih => exact ih (Memory.write_wf h k x) (k + 1)

theorem writeTaps_within {n : Nat} {m : Memory} (h : m.within n) {k : Nat} {taps : List NUM}
    (hk : k + taps.length ≤ n) : (writeTaps m k taps).within n := by
  induction taps generalizing m k with
  | nil => exact h
  | cons x rest ih =>
    simp only [List.length_cons] at hk
    exact ih (Memory.write_within h (by omega) x) (by omega)

end Sys2Proof.Machine
end

