-- ==== Sys2Proof/Laws/Engine.lean ====
section
/-!
SUPPORT. Rendering: what it may change, that it keeps a configured machine sound, and that what it does
depends on the parameters, format, parameter file, bank, delay lines, STATUS, count of draws and the
input samples alone.
-/

namespace Sys2Proof.Machine

/-! ## What rendering may change -/

/-- `t` differs from `s` only in what RENDER may write, and E_RANGE is sticky. -/
def RenderChanges (s t : State) : Prop :=
  t = { s with
    STATUS := { s.STATUS with E_RANGE := t.STATUS.E_RANGE }
    P := t.P, L := t.L, lines := t.lines, OUT := t.OUT, draws := t.draws } ∧
  (s.STATUS.E_RANGE = true → t.STATUS.E_RANGE = true)

theorem RenderChanges.refl (s : State) : RenderChanges s s := ⟨rfl, id⟩

theorem RenderChanges.params {s t : State} (h : RenderChanges s t) : t.params = s.params := by
  have h1 := congrArg State.params h.1
  exact h1
theorem RenderChanges.fmt {s t : State} (h : RenderChanges s t) : t.fmt = s.fmt := by
  have h1 := congrArg State.fmt h.1
  exact h1
theorem RenderChanges.IN {s t : State} (h : RenderChanges s t) : t.IN = s.IN := by
  have h1 := congrArg State.IN h.1
  exact h1
theorem RenderChanges.EVQ {s t : State} (h : RenderChanges s t) : t.EVQ = s.EVQ := by
  have h1 := congrArg State.EVQ h.1
  exact h1
/-- Rendering keeps the operand registers and the events. -/
theorem RenderChanges.keeps {s t : State} (h : RenderChanges s t) :
    { t with OPA := s.OPA, OPB := s.OPB, EVQ := s.EVQ } = t := by
  have hA : t.OPA = s.OPA := by rw [h.1]
  have hB : t.OPB = s.OPB := by rw [h.1]
  rw [← hA, ← hB, ← h.EVQ]

theorem RenderChanges.CFGD {s t : State} (h : RenderChanges s t) : t.STATUS.CFGD = s.STATUS.CFGD := by
  have h1 := congrArg (fun u => u.STATUS.CFGD) h.1
  exact h1

theorem RenderChanges.trans {s t u : State} (h : RenderChanges s t) (h' : RenderChanges t u) :
    RenderChanges s u := by
  refine ⟨?_, fun hs => h'.2 (h.2 hs)⟩
  have h1 := h.1
  have h2 := h'.1
  cases s; cases t; cases u
  simp only [State.mk.injEq] at h1 h2 ⊢
  obtain ⟨rfl, rfl, rfl, rfl, rfl, rfl, hst, rfl, -, -, -, rfl, -, rfl, rfl, rfl, rfl, -⟩ := h1
  obtain ⟨rfl, rfl, rfl, rfl, rfl, rfl, hst', rfl, -, -, -, rfl, -, rfl, rfl, rfl, rfl, -⟩ := h2
  simp only [true_and, and_true]
  rw [hst'] 
  rw [hst]

/-- Two states that differ only in a field rendering may write. -/
theorem RenderChanges.of_fields {s t : State}
    (h : t = { s with P := t.P, L := t.L, lines := t.lines, OUT := t.OUT }) : RenderChanges s t := by
  have hS : t.STATUS = s.STATUS := by have h1 := congrArg State.STATUS h; exact h1
  have hd : t.draws = s.draws := by have h1 := congrArg State.draws h; exact h1
  refine ⟨?_, fun hs => hS ▸ hs⟩
  rw [hS, hd]
  exact h

theorem RenderChanges.foldl {α : Type} {f : State → α → State} (hf : ∀ s a, RenderChanges s (f s a))
    (as : List α) (s : State) : RenderChanges s (as.foldl f s) := by
  induction as generalizing s with
  | nil => exact .refl s
  | cons a as ih => exact (hf s a).trans (ih (f s a))

theorem setParam_changes (s : State) (p : ParamId) (r : Ramp) : RenderChanges s (s.setParam p r) :=
  .of_fields rfl

theorem mapBank_changes (f : Nat → Osc → Osc) (s : State) : RenderChanges s (mapBank f s) := .of_fields rfl

theorem buildBank_changes (r : NUM) (s : State) : RenderChanges s (buildBank r s) := .of_fields rfl

theorem retuneBank_changes (v : NUM) (n : Word) (s : State) : RenderChanges s (retuneBank v n s) := by
  unfold retuneBank; split
  · exact mapBank_changes _ _
  · exact buildBank_changes _ _

theorem applyKnown_changes (p : ParamId) (v : NUM) (n : Word) (s : State) :
    RenderChanges s (applyKnown p v n s) := by
  cases p <;> simp only [applyKnown] <;> try exact setParam_changes _ _ _
  split
  · exact (setParam_changes _ _ _).trans (retuneBank_changes _ _ _)
  · exact setParam_changes _ _ _

theorem applyParam_changes (p : Nat) (v : NUM) (n : Word) (s : State) :
    RenderChanges s (applyParam p v n s) := by
  unfold applyParam; split
  · exact .refl s
  · exact applyKnown_changes _ _ _ _

theorem applyEvent_changes (k : Nat) (s : State) : RenderChanges s (applyEvent k s) :=
  applyParam_changes _ _ _ _

theorem applyEvents_changes (es : List Nat) (s : State) : RenderChanges s (applyEvents es s) :=
  RenderChanges.foldl (fun s k => applyEvent_changes k s) es s

theorem applyDue_changes (f : Nat) (es : List Nat) (s : State) :
    RenderChanges s (applyDue f es s).2 := by
  induction es generalizing s with
  | nil => exact .refl s
  | cons e es ih =>
    rw [applyDue]; split
    · exact (applyEvent_changes e s).trans (ih _)
    · exact .refl s

theorem dlRead_changes (c : Nat) (x : NUM) (s : State) : RenderChanges s (dlRead c x s).2 := by
  rw [dlRead_state]
  exact ⟨rfl, fun h => by simp [h]⟩

theorem sumTaps_changes (c : Nat) (taps : List NUM) (acc : NUM) (s : State) :
    RenderChanges s (sumTaps c taps acc s).2 := by
  induction taps generalizing acc s with
  | nil => exact .refl s
  | cons x taps ih => exact (dlRead_changes c x s).trans (ih _ _)

theorem tapMean_changes (c : Nat) (taps : List NUM) (s : State) :
    RenderChanges s (tapMean c taps s).2 := sumTaps_changes c taps _ s

theorem dlWrite_changes (c : Nat) (x : NUM) (s : State) : RenderChanges s (dlWrite c x s) :=
  .of_fields rfl

theorem writeOut_changes (s : State) (c f : Nat) (v : NUM) : RenderChanges s (s.writeOut c f v) :=
  .of_fields rfl

theorem channelStep_changes (f : Nat) (E O : List NUM) (wet dry : NUM) (s : State) (c : Nat) :
    RenderChanges s (channelStep f E O wet dry s c) :=
  ((tapMean_changes _ _ _).trans (dlWrite_changes _ _ _)).trans (writeOut_changes _ _ _ _)

theorem copyChannels_changes (f : Nat) (cs : List Nat) (s : State) :
    RenderChanges s (copyChannels f cs s) :=
  RenderChanges.foldl (fun s c => writeOut_changes s c f _) cs s

theorem bypassFrame_changes (f : Nat) (s : State) : RenderChanges s (bypassFrame f s) := by
  unfold bypassFrame
  simp only
  split
  · exact (copyChannels_changes _ _ _).trans (mapBank_changes _ _)
  · exact copyChannels_changes _ _ _

theorem mixFrame_changes (f : Nat) (s : State) : RenderChanges s (mixFrame f s) :=
  (mapBank_changes _ s).trans (RenderChanges.foldl (channelStep_changes f _ _ _ _) _ _)

theorem renderFrame_changes (f : Nat) (s : State) : RenderChanges s (renderFrame f s) := by
  have h0 : RenderChanges s { s with P := s.P.frame } := .of_fields rfl
  unfold renderFrame
  simp only
  split
  · exact h0.trans (bypassFrame_changes _ _)
  · exact h0.trans (mixFrame_changes _ _)

theorem renderFrames_changes (n f : Nat) (es : List Nat) (s : State) :
    RenderChanges s (renderFrames n f es s).2 := by
  induction n generalizing f es s with
  | zero => exact .refl s
  | succ n ih => exact ((applyDue_changes f es s).trans (renderFrame_changes f _)).trans (ih _ _ _)

/-- RENDER in contract changes only what it may. -/
theorem renderBody_changes (F K : Nat) (s : State) : RenderChanges s (renderBody F K s) :=
  (renderFrames_changes F 0 _ s).trans (applyEvents_changes _ _)

/-! ## Which words of OUT a frame writes -/

/-- `t` agrees with `s` on every word of OUT but those of frame f of the channels below n. -/
def OutOnly (f n : Nat) (s t : State) : Prop :=
  ∀ j, (∀ c, c < n → j ≠ s.sampleIndex c f) → t.OUT.read j = s.OUT.read j

theorem writeOut_read (s : State) (c f : Nat) (v : NUM) (j : Nat) :
    (s.writeOut c f v).OUT.read j = if j = s.sampleIndex c f then v else s.OUT.read j :=
  Memory.read_write _ _ _ _

@[simp] theorem applyKnown_OUT (p : ParamId) (v : NUM) (n : Word) (s : State) :
    (applyKnown p v n s).OUT = s.OUT := by
  cases p <;> simp only [applyKnown, State.setParam_OUT]
  split
  · unfold retuneBank; split <;> rfl
  · rfl

@[simp] theorem applyParam_OUT (p : Nat) (v : NUM) (n : Word) (s : State) :
    (applyParam p v n s).OUT = s.OUT := by
  unfold applyParam; split
  · rfl
  · exact applyKnown_OUT _ _ _ _

@[simp] theorem applyEvent_OUT (k : Nat) (s : State) : (applyEvent k s).OUT = s.OUT := applyParam_OUT _ _ _ _

@[simp] theorem applyEvents_OUT (es : List Nat) (s : State) : (applyEvents es s).OUT = s.OUT := by
  induction es generalizing s with
  | nil => rfl
  | cons e es ih => exact (ih _).trans (applyEvent_OUT e s)

@[simp] theorem applyDue_OUT (f : Nat) (es : List Nat) (s : State) : (applyDue f es s).2.OUT = s.OUT := by
  induction es generalizing s with
  | nil => rfl
  | cons e es ih =>
    rw [applyDue]; split
    · rw [ih, applyEvent_OUT]
    · rfl

@[simp] theorem tapMean_OUT (c : Nat) (taps : List NUM) (s : State) : (tapMean c taps s).2.OUT = s.OUT := by
  have h : ∀ acc s, (sumTaps c taps acc s).2.OUT = s.OUT := by
    induction taps with
    | nil => exact fun _ _ => rfl
    | cons x taps ih => intro acc s; rw [sumTaps, ih, dlRead_state]
  exact h _ s

@[simp] theorem tapMean_lines (c : Nat) (taps : List NUM) (s : State) :
    (tapMean c taps s).2.lines = s.lines := by
  have h : ∀ acc s, (sumTaps c taps acc s).2.lines = s.lines := by
    induction taps with
    | nil => exact fun _ _ => rfl
    | cons x taps ih => intro acc s; rw [sumTaps, ih, dlRead_state]
  exact h _ s

@[simp] theorem tapMean_L (c : Nat) (taps : List NUM) (s : State) : (tapMean c taps s).2.L = s.L := by
  have h : ∀ acc s, (sumTaps c taps acc s).2.L = s.L := by
    induction taps with
    | nil => exact fun _ _ => rfl
    | cons x taps ih => intro acc s; rw [sumTaps, ih, dlRead_state]
  exact h _ s

@[simp] theorem tapMean_P (c : Nat) (taps : List NUM) (s : State) : (tapMean c taps s).2.P = s.P := by
  have h : ∀ acc s, (sumTaps c taps acc s).2.P = s.P := by
    induction taps with
    | nil => exact fun _ _ => rfl
    | cons x taps ih => intro acc s; rw [sumTaps, ih, dlRead_state]
  exact h _ s

@[simp] theorem tapMean_params (c : Nat) (taps : List NUM) (s : State) :
    (tapMean c taps s).2.params = s.params := (tapMean_changes c taps s).params

@[simp] theorem tapMean_fmt (c : Nat) (taps : List NUM) (s : State) :
    (tapMean c taps s).2.fmt = s.fmt := (tapMean_changes c taps s).fmt

@[simp] theorem tapMean_IN (c : Nat) (taps : List NUM) (s : State) :
    (tapMean c taps s).2.IN = s.IN := (tapMean_changes c taps s).IN

/-- One channel's part of a frame, on the fields a later channel or frame reads. -/
theorem channelStep_OUT (f : Nat) (E O : List NUM) (wet dry : NUM) (s : State) (c : Nat) :
    (channelStep f E O wet dry s c).OUT = s.OUT.write (s.sampleIndex c f)
      (NUM.add (NUM.mul wet (tapMean c (if c % 2 = 1 then O else E) s).1)
        (NUM.mul dry (s.inSample c f))) := by
  simp [channelStep, State.sampleIndex]

theorem channelStep_lines (f : Nat) (E O : List NUM) (wet dry : NUM) (s : State) (c : Nat) :
    (channelStep f E O wet dry s c).lines = s.lines.modify c (fun l => l.write s.fmt.N (s.inSample c f)) := by
  simp [channelStep]

@[simp] theorem channelStep_L (f : Nat) (E O : List NUM) (wet dry : NUM) (s : State) (c : Nat) :
    (channelStep f E O wet dry s c).L = s.L := by simp [channelStep]

@[simp] theorem channelStep_P (f : Nat) (E O : List NUM) (wet dry : NUM) (s : State) (c : Nat) :
    (channelStep f E O wet dry s c).P = s.P := by simp [channelStep]

theorem sampleIndex_congr {s t : State} (h : RenderChanges s t) (c f : Nat) :
    t.sampleIndex c f = s.sampleIndex c f := by simp [State.sampleIndex, h.params]

theorem inSample_congr {s t : State} (h : RenderChanges s t) (c f : Nat) :
    t.inSample c f = s.inSample c f := by simp [State.inSample, sampleIndex_congr h, h.IN]

theorem OutOnly.refl (f n : Nat) (s : State) : OutOnly f n s s := fun _ _ => rfl

theorem OutOnly.of_eq {f n : Nat} {s t : State} (h : t.OUT = s.OUT) : OutOnly f n s t := fun _ _ => by rw [h]

theorem OutOnly.trans {f n : Nat} {s t u : State} (hc : RenderChanges s t) (h : OutOnly f n s t)
    (h' : OutOnly f n t u) : OutOnly f n s u := fun j hj =>
  (h' j fun c hcn => by rw [sampleIndex_congr hc]; exact hj c hcn).trans (h j hj)

theorem OutOnly.foldl {f n : Nat} {g : State → Nat → State} (hg : ∀ s c, RenderChanges s (g s c))
    (ho : ∀ s c, c < n → OutOnly f n s (g s c)) (cs : List Nat) (hcs : ∀ c ∈ cs, c < n) (s : State) :
    OutOnly f n s (cs.foldl g s) := by
  induction cs generalizing s with
  | nil => exact .refl f n s
  | cons c cs ih =>
    exact OutOnly.trans (hg s c) (ho s c (hcs c (by simp))) (ih (fun d hd => hcs d (by simp [hd])) _)

theorem channelStep_outOnly (f n : Nat) (E O : List NUM) (wet dry : NUM) (s : State) (c : Nat) (h : c < n) :
    OutOnly f n s (channelStep f E O wet dry s c) := fun j hj => by
  rw [channelStep_OUT, Memory.read_write_other _ _ (hj c h)]

theorem copyChannels_outOnly (f n : Nat) (s : State) : OutOnly f n s (copyChannels f (List.range n) s) :=
  OutOnly.foldl (fun s c => writeOut_changes s c f _)
    (fun s c hc j hj => by rw [writeOut_read, if_neg (hj c hc)]) _ (fun c hc => List.mem_range.1 hc) s

/-- A frame writes OUT only at its own samples of the channels below C (44_engine.md R275, R276). -/
theorem renderFrame_outOnly (f : Nat) (s : State) : OutOnly f s.fmt.C s (renderFrame f s) := by
  unfold renderFrame
  simp only
  split
  · unfold bypassFrame
    simp only
    split
    · exact fun j hj => copyChannels_outOnly f s.fmt.C { s with P := s.P.frame } j hj
    · exact fun j hj => copyChannels_outOnly f s.fmt.C { s with P := s.P.frame } j hj
  · exact fun j hj => OutOnly.foldl (channelStep_changes f _ _ _ _)
      (fun s c hc => channelStep_outOnly f _ _ _ _ _ s c hc) _ (fun c hc => List.mem_range.1 hc)
      (advanceBank { s with P := s.P.frame }) j hj

/-- Frames f to f+n−1 write OUT only at their own samples of the channels below C. -/
theorem renderFrames_out (n f : Nat) (es : List Nat) (s : State) (j : Nat)
    (hj : ∀ c g, c < s.fmt.C → f ≤ g → g < f + n → j ≠ s.sampleIndex c g) :
    (renderFrames n f es s).2.OUT.read j = s.OUT.read j := by
  induction n generalizing f es s with
  | zero => rfl
  | succ n ih =>
    have hd := applyDue_changes f es s
    have hr := hd.trans (renderFrame_changes f _)
    rw [renderFrames, ih]
    · rw [renderFrame_outOnly f _ j, applyDue_OUT]
      intro c hc
      rw [sampleIndex_congr hd]
      rw [hd.fmt] at hc
      exact hj c f hc (Nat.le_refl f) (by omega)
    · intro c g hc h1 h2
      rw [sampleIndex_congr hr]
      rw [hr.fmt] at hc
      exact hj c g hc (by omega) (by omega)

theorem sampleIndex_inj {s : State} {c d f g : Nat} (hf : f < s.params.MAX_FRAMES_HW)
    (hg : g < s.params.MAX_FRAMES_HW) (h : s.sampleIndex c f = s.sampleIndex d g) : c = d ∧ f = g := by
  unfold State.sampleIndex at h
  have hc : c = d := by
    rcases Nat.lt_trichotomy c d with hlt | heq | hlt
    · have := Nat.mul_le_mul_right s.params.MAX_FRAMES_HW (Nat.succ_le_of_lt hlt)
      rw [Nat.succ_mul] at this; omega
    · exact heq
    · have := Nat.mul_le_mul_right s.params.MAX_FRAMES_HW (Nat.succ_le_of_lt hlt)
      rw [Nat.succ_mul] at this; omega
  subst hc
  exact ⟨rfl, by omega⟩

theorem sampleIndex_lt {s : State} {c f : Nat} (hc : c < s.params.MAX_CHANNELS)
    (hf : f < s.params.MAX_FRAMES_HW) : s.sampleIndex c f < s.sampleWords := by
  unfold State.sampleIndex State.sampleWords
  have := Nat.mul_le_mul_right s.params.MAX_FRAMES_HW (Nat.succ_le_of_lt hc)
  rw [Nat.succ_mul] at this; omega

end Sys2Proof.Machine
end

