-- ==== Sys2Proof/Laws/Render.lean ====
section
/-!
SUPPORT. Rendering keeps a configured machine sound and its ramps settled, runs of frames compose, and what
a frame does depends on the state's core (parameters, format, parameter file, bank, delay lines, STATUS,
count of draws) and on the frame's input samples alone.
-/

namespace Sys2Proof.Machine

/-! ## A configured machine stays sound -/

/-- The part of the invariant rendering can touch, on a configured machine. -/
structure RenderSound (s : State) : Prop where
  format : Format.sound s.params s.fmt
  bank : s.L.length = s.params.T
  count : s.lines.length = s.fmt.C
  lines : ∀ l ∈ s.lines, Line.sound s.fmt.N l
  outWf : Memory.wf s.OUT
  outWithin : Memory.within s.sampleWords s.OUT

theorem State.Inv.renderSound {s : State} (h : s.Inv) (hc : s.STATUS.CFGD = true) : RenderSound s where
  format := (h.2.2 hc).1
  bank := (h.2.2 hc).2.1
  count := (h.2.2 hc).2.2.1
  lines := (h.2.2 hc).2.2.2
  outWf := h.1.2.1.1
  outWithin := h.1.2.1.2

theorem RenderSound.keep {s t : State} (h : RenderSound s) (hc : RenderChanges s t)
    (hL : t.L.length = s.params.T) (hl : t.lines.length = s.lines.length)
    (hs : ∀ l ∈ t.lines, Line.sound s.fmt.N l) (hO : Memory.wf t.OUT ∧ Memory.within s.sampleWords t.OUT) :
    RenderSound t where
  format := by rw [hc.params, hc.fmt]; exact h.format
  bank := by rw [hc.params]; exact hL
  count := by rw [hc.fmt, hl]; exact h.count
  lines := by rw [hc.fmt]; exact hs
  outWf := hO.1
  outWithin := by
    have : t.sampleWords = s.sampleWords := by simp [State.sampleWords, hc.params]
    rw [this]; exact hO.2

theorem RenderSound.keep_bank {s t : State} (h : RenderSound s) (hc : RenderChanges s t)
    (hL : t.L.length = s.params.T) (hl : t.lines = s.lines) (hO : t.OUT = s.OUT) : RenderSound t :=
  h.keep hc hL (by rw [hl]) (by rw [hl]; exact h.lines) (by rw [hO]; exact ⟨h.outWf, h.outWithin⟩)

/-- A sound configured machine meets the whole invariant once the host's memories and the tap memories do. -/
theorem RenderSound.inv {s t : State} (h : RenderSound t) (hi : s.Inv) (hc : RenderChanges s t)
    (hs : s.STATUS.CFGD = true) : t.Inv := by
  have hIN := hc.IN
  have hEVQ := hc.EVQ
  have hp := hc.params
  have hTE : t.TAPE = s.TAPE := by have h1 := congrArg State.TAPE hc.1; exact h1
  have hTO : t.TAPO = s.TAPO := by have h1 := congrArg State.TAPO hc.1; exact h1
  have hC := hc.CFGD
  refine ⟨⟨?_, ⟨h.outWf, h.outWithin⟩, ?_, ?_, ?_⟩, ?_, ?_⟩
  · have := hi.1.1; simpa [hIN, State.sampleWords, hp] using this
  · have := hi.1.2.2.1; simpa [hEVQ, State.eventWords, hp] using this
  · rw [hTE]; exact hi.1.2.2.2.1
  · rw [hTO]; exact hi.1.2.2.2.2
  · intro hf; rw [hC, hs] at hf; cases hf
  · exact fun _ => ⟨h.format, h.bank, h.count, h.lines⟩

theorem mapBank_length (f : Nat → Osc → Osc) (s : State) : (mapBank f s).L.length = s.params.T := by simp

theorem buildBank_length (r : NUM) (s : State) : (buildBank r s).L.length = s.params.T := by simp

theorem retuneBank_length (v : NUM) (n : Word) (s : State) : (retuneBank v n s).L.length = s.params.T := by
  unfold retuneBank; split <;> simp

@[simp] theorem retuneBank_lines (v : NUM) (n : Word) (s : State) : (retuneBank v n s).lines = s.lines := by
  unfold retuneBank; split <;> rfl

@[simp] theorem retuneBank_OUT (v : NUM) (n : Word) (s : State) : (retuneBank v n s).OUT = s.OUT := by
  unfold retuneBank; split <;> rfl

theorem applyKnown_length (p : ParamId) (v : NUM) (n : Word) {s : State} (h : s.L.length = s.params.T) :
    (applyKnown p v n s).L.length = s.params.T := by
  cases p <;> simp only [applyKnown, State.setParam_L, h]
  split
  · rw [retuneBank_length]; rfl
  · exact h

@[simp] theorem applyKnown_lines (p : ParamId) (v : NUM) (n : Word) (s : State) :
    (applyKnown p v n s).lines = s.lines := by
  cases p <;> simp only [applyKnown, State.setParam_lines]
  split <;> simp

theorem applyParam_sound (p : Nat) (v : NUM) (n : Word) {s : State} (h : RenderSound s) :
    RenderSound (applyParam p v n s) := by
  unfold applyParam; split
  · exact h
  · exact h.keep_bank (applyKnown_changes _ _ _ _) (applyKnown_length _ _ _ h.bank) (applyKnown_lines _ _ _ _)
      (applyKnown_OUT _ _ _ _)

theorem applyEvents_sound (es : List Nat) {s : State} (h : RenderSound s) :
    RenderSound (applyEvents es s) := by
  induction es generalizing s with
  | nil => exact h
  | cons e es ih => exact ih (applyParam_sound _ _ _ h)

theorem applyDue_sound (f : Nat) (es : List Nat) {s : State} (h : RenderSound s) :
    RenderSound (applyDue f es s).2 := by
  induction es generalizing s with
  | nil => exact h
  | cons e es ih =>
    rw [applyDue]; split
    · exact ih (applyParam_sound _ _ _ h)
    · exact h

theorem modify_sound {N : Nat} {ls : List Line} (h : ∀ l ∈ ls, Line.sound N l) (c : Nat) (x : NUM) :
    ∀ l ∈ ls.modify c (fun l => l.write N x), Line.sound N l := by
  intro l hl
  obtain ⟨i, hi, rfl⟩ := List.getElem_of_mem hl
  rw [List.getElem_modify]
  rw [List.length_modify] at hi
  split
  · exact Line.write_sound (h _ (List.getElem_mem hi)) x
  · exact h _ (List.getElem_mem hi)

theorem RenderSound.write_out {s t : State} (h : RenderSound s) (hc : RenderChanges s t) {c f : Nat} {v : NUM}
    (hC : c < s.fmt.C) (hf : f < s.params.MAX_FRAMES_HW) (hL : t.L = s.L)
    (hl : t.lines.length = s.lines.length) (hs : ∀ l ∈ t.lines, Line.sound s.fmt.N l)
    (hO : t.OUT = s.OUT.write (s.sampleIndex c f) v) : RenderSound t :=
  h.keep hc (by rw [hL]; exact h.bank) hl hs (by
    rw [hO]
    exact ⟨Memory.write_wf h.outWf _ _,
      Memory.write_within h.outWithin (sampleIndex_lt (Nat.lt_of_lt_of_le hC h.format.2.1) hf) _⟩)

theorem writeOut_sound {s : State} (h : RenderSound s) {c f : Nat} (hC : c < s.fmt.C)
    (hf : f < s.params.MAX_FRAMES_HW) (v : NUM) : RenderSound (s.writeOut c f v) :=
  h.write_out (writeOut_changes s c f v) hC hf rfl rfl h.lines rfl

theorem channelStep_sound {s : State} (h : RenderSound s) {f c : Nat} (E O : List NUM) (wet dry : NUM)
    (hC : c < s.fmt.C) (hf : f < s.params.MAX_FRAMES_HW) : RenderSound (channelStep f E O wet dry s c) :=
  h.write_out (channelStep_changes f E O wet dry s c) hC hf (channelStep_L ..)
    (by rw [channelStep_lines]; simp) (by rw [channelStep_lines]; exact modify_sound h.lines _ _)
    (channelStep_OUT ..)

theorem foldl_sound {g : State → Nat → State} (hg : ∀ s c, RenderChanges s (g s c)) {C F : Nat}
    (hs : ∀ s c, RenderSound s → s.fmt.C = C → s.params.MAX_FRAMES_HW = F → c < C → RenderSound (g s c))
    (cs : List Nat) (hcs : ∀ c ∈ cs, c < C) {s : State} (h : RenderSound s) (hC : s.fmt.C = C)
    (hF : s.params.MAX_FRAMES_HW = F) : RenderSound (cs.foldl g s) := by
  induction cs generalizing s with
  | nil => exact h
  | cons c cs ih =>
    have hc := hg s c
    exact ih (fun d hd => hcs d (by simp [hd])) (hs s c h hC hF (hcs c (by simp)))
      (by rw [hc.fmt, hC]) (by rw [hc.params, hF])

theorem renderFrame_sound {f : Nat} {s : State} (h : RenderSound s) (hf : f < s.params.MAX_FRAMES_HW) :
    RenderSound (renderFrame f s) := by
  have h0 : RenderSound { s with P := s.P.frame } := h.keep_bank (.of_fields rfl) h.bank rfl rfl
  have hcopy : RenderSound (copyChannels f (List.range s.fmt.C) { s with P := s.P.frame }) :=
    foldl_sound (C := s.fmt.C) (F := s.params.MAX_FRAMES_HW) (fun s c => writeOut_changes s c f _)
      (fun t c ht hC hF hc => writeOut_sound ht (by rw [hC]; exact hc) (by rw [hF]; exact hf) _)
      _ (fun c hc => List.mem_range.1 hc) h0 rfl rfl
  unfold renderFrame
  simp only
  split
  · unfold bypassFrame
    simp only
    split
    · exact hcopy.keep_bank (mapBank_changes _ _) (mapBank_length _ _) rfl rfl
    · exact hcopy
  · exact foldl_sound (C := s.fmt.C) (F := s.params.MAX_FRAMES_HW) (channelStep_changes f _ _ _ _)
      (fun t c ht hC hF hc => channelStep_sound ht _ _ _ _ (by rw [hC]; exact hc) (by rw [hF]; exact hf))
      _ (fun c hc => List.mem_range.1 hc)
      (h0.keep_bank (t := advanceBank { s with P := s.P.frame }) (mapBank_changes _ _) (mapBank_length _ _)
        rfl rfl) rfl rfl

theorem renderFrames_sound {n f : Nat} {s : State} (es : List Nat) (h : RenderSound s)
    (hf : f + n ≤ s.params.MAX_FRAMES_HW) : RenderSound (renderFrames n f es s).2 := by
  induction n generalizing f es s with
  | zero => exact h
  | succ n ih =>
    have hd := applyDue_changes f es s
    exact ih _ (renderFrame_sound (applyDue_sound f es h) (by rw [hd.params]; omega))
      (by rw [(renderFrame_changes f _).params, hd.params]; omega)

/-- RENDER in contract keeps a configured machine sound. -/
theorem renderBody_sound {F K : Nat} {s : State} (h : RenderSound s) (hF : F ≤ s.params.MAX_FRAMES_HW) :
    RenderSound (renderBody F K s) := applyEvents_sound _ (renderFrames_sound _ h (by omega))

/-! ## Settled ramps and phases -/

/-- Every ramp record of the parameter file is settled (10_state.md R44 (1)). -/
def ParamFile.settled (P : ParamFile) : Prop := ∀ p, (P.get p).settled

theorem ParamFile.set_settled {P : ParamFile} (h : P.settled) (p : ParamId) {r : Ramp} (hr : r.settled) :
    (P.set p r).settled := fun q => by
  by_cases hq : q = p
  · subst hq; rw [ParamFile.get_set]; exact hr
  · rw [ParamFile.get_set_other P r hq]; exact h q

theorem ParamFile.frame_settled {P : ParamFile} (h : P.settled) : P.frame.settled := fun p => by
  cases p
  · exact h .RATE
  · exact rpFrame_settled (h .DEPTH)
  · exact rpFrame_settled (h .DELAY)
  · exact rpFrame_settled (h .DRY)
  · exact rpFrame_settled (h .WET)
  · exact rpFrame_settled (h .ODD90)

/-- Every oscillator's phase is in the cycle and its increment ramp settled (R44 (1), (2)). -/
def Osc.settled (o : Osc) : Prop := inCycle o.phase = true ∧ o.inc.settled

theorem Osc.increment_settled {o : Osc} (h : o.settled) : o.increment.settled :=
  ⟨o.increment_inCycle, rpFrame_settled h.2⟩

theorem Osc.setFrequency_settled (FS hz : NUM) (n : Word) {o : Osc} (h : o.settled) :
    (o.setFrequency FS hz n).settled := ⟨h.1, rpSet_settled _ _ _⟩

theorem osc_mem {s : State} {i : Nat} (h : i < s.L.length) : s.osc i ∈ s.L := by
  unfold State.osc
  rw [List.getD_eq_getElem _ _ h]
  exact List.getElem_mem h

/-- Both parts, on a bank of T oscillators; the parameter file only where q asks it (a havoc under E_NOTCFG
leaves the bank settled and not the file, log 9). -/
structure AllSettled (q : Prop) (s : State) : Prop where
  params : q → s.P.settled
  bank : ∀ o ∈ s.L, o.settled
  length : s.L.length = s.params.T

theorem phase0_inCycle (p : Params) {i : Nat} (h : i < p.T) : inCycle (phase0 p i) = true := by
  have hall : ∀ T : Fin 51, ∀ i : Fin 51, i.val < T.val →
      inCycle (NUM.div (toNUM i.val) (toNUM T.val)) = true := by decide +kernel
  have hT := Params.T_le p
  unfold phase0
  split
  · decide
  · exact hall ⟨p.T, by omega⟩ ⟨i, by omega⟩ h

theorem newOsc_settled (p : Params) (FS r : NUM) {i : Nat} (h : i < p.T) : (newOsc p FS r i).settled :=
  ⟨phase0_inCycle p h, fun _ => rfl⟩

theorem buildBank_settled (r : NUM) (s : State) : ∀ o ∈ (buildBank r s).L, o.settled := by
  intro o ho
  rw [buildBank_L, List.mem_map] at ho
  obtain ⟨i, hi, rfl⟩ := ho
  exact newOsc_settled _ _ _ (List.mem_range.1 hi)

theorem mapBank_settled {f : Nat → Osc → Osc} (hf : ∀ i o, o.settled → (f i o).settled) {s : State}
    (hl : s.L.length = s.params.T) (h : ∀ o ∈ s.L, o.settled) : ∀ o ∈ (mapBank f s).L, o.settled := by
  intro o ho
  rw [mapBank_L, List.mem_map] at ho
  obtain ⟨i, hi, rfl⟩ := ho
  exact hf i _ (h _ (osc_mem (by rw [hl]; exact List.mem_range.1 hi)))

theorem modifyOsc_settled {f : Osc → Osc} (hf : ∀ o, o.settled → (f o).settled) {s : State} (i : Nat)
    (h : ∀ o ∈ s.L, o.settled) : ∀ o ∈ (s.modifyOsc i f).L, o.settled := by
  intro o ho
  rw [State.modifyOsc_L] at ho
  obtain ⟨j, hj, rfl⟩ := List.getElem_of_mem ho
  rw [List.getElem_modify]
  rw [List.length_modify] at hj
  split
  · exact hf _ (h _ (List.getElem_mem hj))
  · exact h _ (List.getElem_mem hj)

theorem retuneBank_settled (v : NUM) (n : Word) {s : State} (hl : s.L.length = s.params.T)
    (h : ∀ o ∈ s.L, o.settled) : ∀ o ∈ (retuneBank v n s).L, o.settled := by
  unfold retuneBank
  split
  · exact mapBank_settled (fun _ _ ho => Osc.setFrequency_settled _ _ _ ho) hl h
  · exact buildBank_settled _ _

theorem applyKnown_P_settled (p : ParamId) (v : NUM) (n : Word) {s : State} (h : s.P.settled) :
    (applyKnown p v n s).P.settled := by
  cases p <;> simp only [applyKnown]
  case RATE =>
    have hP : ∀ t : State, (retuneBank v n t).P = t.P := fun t => by unfold retuneBank; split <;> rfl
    split
    · rw [hP]; exact ParamFile.set_settled h _ (rpSet_settled _ _ _)
    · exact ParamFile.set_settled h _ (rpSet_settled _ _ _)
  all_goals exact ParamFile.set_settled h _ (rpSet_settled _ _ _)

/-- Setting a known parameter, by SETP or by an event, keeps ramps and phases settled. -/
theorem applyKnown_L_settled (p : ParamId) (v : NUM) (n : Word) {s : State}
    (hl : s.STATUS.CFGD = true → s.L.length = s.params.T) (h : ∀ o ∈ s.L, o.settled) :
    ∀ o ∈ (applyKnown p v n s).L, o.settled := by
  cases p <;> simp only [applyKnown]
  case RATE =>
    split
    · rename_i hc; exact retuneBank_settled v n (hl hc) h
    · exact h
  all_goals exact h

section

variable {q : Prop}

theorem applyParam_settled (p : Nat) (v : NUM) (n : Word) {s : State} (h : AllSettled q s) :
    AllSettled q (applyParam p v n s) := by
  unfold applyParam
  split
  · exact h
  · exact ⟨fun hq => applyKnown_P_settled _ _ _ (h.params hq), applyKnown_L_settled _ _ _ (fun _ => h.length) h.bank, by
      rw [applyKnown_length _ _ _ h.length, (applyKnown_changes _ _ _ _).params]⟩

theorem applyEvents_settled (es : List Nat) {s : State} (h : AllSettled q s) : AllSettled q (applyEvents es s) := by
  induction es generalizing s with
  | nil => exact h
  | cons e es ih => exact ih (applyParam_settled _ _ _ h)

theorem applyDue_settled (f : Nat) (es : List Nat) {s : State} (h : AllSettled q s) :
    AllSettled q (applyDue f es s).2 := by
  induction es generalizing s with
  | nil => exact h
  | cons e es ih =>
    rw [applyDue]; split
    · exact ih (applyParam_settled _ _ _ h)
    · exact h

theorem AllSettled.congr {s t : State} (h : AllSettled q s) (hP : t.P = s.P) (hL : t.L = s.L)
    (hp : t.params = s.params) : AllSettled q t :=
  ⟨fun hq => hP ▸ h.params hq, hL ▸ h.bank, by rw [hL, hp]; exact h.length⟩

theorem AllSettled.foldl {α : Type} {g : State → α → State}
    (hg : ∀ s a, (g s a).P = s.P ∧ (g s a).L = s.L ∧ (g s a).params = s.params) (as : List α) {s : State}
    (h : AllSettled q s) : AllSettled q (as.foldl g s) := by
  induction as generalizing s with
  | nil => exact h
  | cons a as ih => exact ih (h.congr (hg s a).1 (hg s a).2.1 (hg s a).2.2)

theorem advanceBank_settled {s : State} (h : AllSettled q s) : AllSettled q (advanceBank s) :=
  ⟨h.params, mapBank_settled (fun _ _ ho => Osc.increment_settled ho) h.length h.bank, by simp⟩

theorem renderFrame_settled (f : Nat) {s : State} (h : AllSettled q s) : AllSettled q (renderFrame f s) := by
  have h0 : AllSettled q { s with P := s.P.frame } := ⟨fun hq => ParamFile.frame_settled (h.params hq), h.bank, h.length⟩
  unfold renderFrame
  simp only
  split
  · unfold bypassFrame
    have hc := AllSettled.foldl (g := fun t c => t.writeOut c f (t.inSample c f))
      (fun _ _ => ⟨rfl, rfl, rfl⟩) (List.range s.fmt.C) h0
    simp only
    split
    · exact advanceBank_settled hc
    · exact hc
  · exact AllSettled.foldl (fun t c => ⟨channelStep_P .., channelStep_L .., (channelStep_changes ..).params⟩)
      _ (advanceBank_settled h0)

theorem renderFrames_settled (n f : Nat) (es : List Nat) {s : State} (h : AllSettled q s) :
    AllSettled q (renderFrames n f es s).2 := by
  induction n generalizing f es s with
  | zero => exact h
  | succ n ih => exact ih _ _ (renderFrame_settled f (applyDue_settled f es h))

theorem renderBody_settled (F K : Nat) {s : State} (h : AllSettled q s) : AllSettled q (renderBody F K s) :=
  applyEvents_settled _ (renderFrames_settled _ _ _ h)

end

/-! ## Runs of frames compose -/

theorem renderFrames_add (n m f : Nat) (es : List Nat) (s : State) :
    renderFrames (n + m) f es s =
      renderFrames m (f + n) (renderFrames n f es s).1 (renderFrames n f es s).2 := by
  induction n generalizing f es s with
  | zero => simp [renderFrames]
  | succ n ih =>
    rw [Nat.succ_add, renderFrames, ih, show f + 1 + n = f + (n + 1) by omega]
    rfl

theorem eventOFS_congr {s t : State} (h : RenderChanges s t) (k : Nat) : eventOFS t k = eventOFS s k := by
  simp [eventOFS, h.EVQ]

/-- Events later than frame f wait behind the due ones and change nothing. -/
theorem applyDue_append {f : Nat} (es : List Nat) {later : List Nat} {s : State}
    (h : ∀ e ∈ later, f < eventOFS s e) :
    applyDue f (es ++ later) s = ((applyDue f es s).1 ++ later, (applyDue f es s).2) := by
  induction es generalizing s with
  | nil =>
    cases later with
    | nil => rfl
    | cons e later => simp [applyDue, Nat.not_le.2 (h e (by simp))]
  | cons e es ih =>
    simp only [List.cons_append, applyDue]
    split
    · exact ih fun k hk => by rw [eventOFS_congr (applyEvent_changes e s)]; exact h k hk
    · rfl

/-- So do whole frames before them (44_engine.md R277 (3)). -/
theorem renderFrames_append {n f : Nat} (es : List Nat) {later : List Nat} {s : State}
    (h : ∀ e ∈ later, f + n ≤ eventOFS s e) :
    renderFrames n f (es ++ later) s =
      ((renderFrames n f es s).1 ++ later, (renderFrames n f es s).2) := by
  induction n generalizing f es s with
  | zero => rfl
  | succ n ih =>
    have hd := (applyDue_changes f es s).trans (renderFrame_changes f _)
    rw [renderFrames, applyDue_append es (fun e he => by have := h e he; omega)]
    exact ih _ fun e he => by rw [eventOFS_congr hd]; have := h e he; omega

theorem applyDue_all {f : Nat} {es : List Nat} {s : State} (h : ∀ e ∈ es, eventOFS s e ≤ f) :
    (applyDue f es s).1 = [] := by
  induction es generalizing s with
  | nil => rfl
  | cons e es ih =>
    rw [applyDue, if_pos (h e (by simp))]
    exact ih fun k hk => by rw [eventOFS_congr (applyEvent_changes e s)]; exact h k (by simp [hk])

theorem applyDue_subset (f : Nat) (es : List Nat) (s : State) : ∀ e ∈ (applyDue f es s).1, e ∈ es := by
  induction es generalizing s with
  | nil => simp [applyDue]
  | cons k es ih =>
    intro e he
    rw [applyDue] at he
    split at he
    · exact List.mem_cons_of_mem _ (ih _ e he)
    · exact he

/-- Events before the last frame of a run are all applied in it. -/
theorem renderFrames_all {n f : Nat} {es : List Nat} {s : State} (h : ∀ e ∈ es, eventOFS s e < f + n)
    (h0 : n = 0 → es = []) : (renderFrames n f es s).1 = [] := by
  induction n generalizing f es s with
  | zero => rw [h0 rfl]; rfl
  | succ n ih =>
    have hd := (applyDue_changes f es s).trans (renderFrame_changes f _)
    rw [renderFrames]
    refine ih (fun e he => ?_) (fun hn => ?_)
    · rw [eventOFS_congr hd]
      have := h e (applyDue_subset f es s e he)
      omega
    · subst hn
      exact applyDue_all fun e he => by have := h e he; omega

/-! ## What a frame depends on -/

/-- Two states with the same core: the same but for registers and memories the host sees. -/
structure SameCore (s t : State) : Prop where
  params : t.params = s.params
  fmt : t.fmt = s.fmt
  P : t.P = s.P
  L : t.L = s.L
  lines : t.lines = s.lines
  STATUS : t.STATUS = s.STATUS
  draws : t.draws = s.draws

theorem SameCore.refl (s : State) : SameCore s s := ⟨rfl, rfl, rfl, rfl, rfl, rfl, rfl⟩

theorem SameCore.mapBank {s t : State} (h : SameCore s t) {f g : Nat → Osc → Osc} (hfg : f = g) :
    SameCore (mapBank f s) (mapBank g t) :=
  ⟨h.params, h.fmt, h.P, by simp [State.osc, h.params, h.L, hfg], h.lines, h.STATUS, h.draws⟩

theorem SameCore.buildBank {s t : State} (h : SameCore s t) (r : NUM) :
    SameCore (buildBank r s) (buildBank r t) :=
  ⟨h.params, h.fmt, h.P, by simp [h.params, h.fmt], h.lines, h.STATUS, h.draws⟩

theorem SameCore.setParam {s t : State} (h : SameCore s t) (p : ParamId) (r : Ramp) :
    SameCore (s.setParam p r) (t.setParam p r) :=
  ⟨h.params, h.fmt, by simp [h.P], h.L, h.lines, h.STATUS, h.draws⟩

theorem SameCore.applyKnown {s t : State} (h : SameCore s t) (p : ParamId) (v : NUM) (n : Word) :
    SameCore (applyKnown p v n s) (applyKnown p v n t) := by
  cases p <;> simp only [Machine.applyKnown, h.P, h.STATUS] <;> try exact h.setParam _ _
  split
  · have h1 := h.setParam .RATE (rpSet s.P.RATE v 0#32)
    unfold retuneBank
    simp only [State.setParam_params, State.setParam_fmt, h.params, h.fmt]
    split
    · exact h1.mapBank rfl
    · exact h1.buildBank v
  · exact h.setParam _ _

theorem SameCore.applyParam {s t : State} (h : SameCore s t) (p : Nat) (v : NUM) (n : Word) :
    SameCore (applyParam p v n s) (applyParam p v n t) := by
  unfold Machine.applyParam
  split
  · exact h
  · exact h.applyKnown _ _ _

theorem SameCore.dlRead {s t : State} (h : SameCore s t) (c : Nat) (x : NUM) :
    (dlRead c x t).1 = (dlRead c x s).1 ∧ SameCore (dlRead c x s).2 (dlRead c x t).2 := by
  constructor
  · simp only [Machine.dlRead, h.fmt]
    split
    · simp [State.line, h.params, h.lines]
    · simp [State.nextDraw, h.draws]
  · rw [dlRead_state, dlRead_state]
    exact ⟨h.params, h.fmt, h.P, h.L, h.lines, by simp [h.STATUS, h.fmt], by simp [h.draws, h.fmt]⟩

theorem SameCore.sumTaps {s t : State} (h : SameCore s t) (c : Nat) (taps : List NUM) (acc : NUM) :
    (sumTaps c taps acc t).1 = (sumTaps c taps acc s).1 ∧
      SameCore (sumTaps c taps acc s).2 (sumTaps c taps acc t).2 := by
  induction taps generalizing acc s t with
  | nil => exact ⟨rfl, h⟩
  | cons x taps ih =>
    have hd := h.dlRead c x
    simp only [Machine.sumTaps, hd.1]
    exact ih hd.2 _

theorem SameCore.tapMean {s t : State} (h : SameCore s t) (c : Nat) (taps : List NUM) :
    (tapMean c taps t).1 = (tapMean c taps s).1 ∧
      SameCore (tapMean c taps s).2 (tapMean c taps t).2 := by
  have hd := h.sumTaps c taps NUM.zero
  exact ⟨by simp only [Machine.tapMean, hd.1, h.params], hd.2⟩

/-- One channel's part of a frame, at frame f in one state and frame g in another with the same core and
the same input sample: the same core and the same output sample. -/
theorem SameCore.channelStep {s t : State} (h : SameCore s t) {c f g : Nat}
    (hin : t.inSample c g = s.inSample c f) (E O : List NUM) (wet dry : NUM) :
    SameCore (channelStep f E O wet dry s c) (channelStep g E O wet dry t c) ∧
      (channelStep g E O wet dry t c).outSample c g = (channelStep f E O wet dry s c).outSample c f := by
  have hm := h.tapMean c (if c % 2 = 1 then O else E)
  constructor
  · exact ⟨hm.2.params, hm.2.fmt, hm.2.P, hm.2.L, by simp [channelStep_lines, h.lines, h.fmt, hin],
      hm.2.STATUS, hm.2.draws⟩
  · have hs : ∀ (u : State) (k : Nat), (Machine.channelStep k E O wet dry u c).outSample c k =
        NUM.add (NUM.mul wet (Machine.tapMean c (if c % 2 = 1 then O else E) u).1)
          (NUM.mul dry (u.inSample c k)) := fun u k => by
      rw [State.outSample, channelStep_OUT, sampleIndex_congr (channelStep_changes k E O wet dry u c),
        Memory.read_write_same]
    rw [hs, hs, hm.1, hin]

theorem tapSets_congr {s t : State} (h : SameCore s t) (dly dep : NUM) (o : Bool) :
    tapSets t dly dep o = tapSets s dly dep o := by
  have hd : displacement t dly dep = displacement s dly dep := by
    unfold displacement delaySamples
    rw [h.params, h.fmt]
  have he : evenTap t dly dep = evenTap s dly dep := by
    funext i; simp only [evenTap, delaySamples, hd, h.fmt, h.params, State.osc, h.L]
  have ho : oddTap t dly dep o = oddTap s dly dep o := by
    funext i; simp only [oddTap, delaySamples, hd, he, h.fmt, h.params, State.osc, h.L]
  simp only [tapSets, he, ho, h.params]

theorem frame_sampleIndex_inj {s : State} {c d f : Nat} (h : s.sampleIndex c f = s.sampleIndex d f) : c = d := by
  unfold State.sampleIndex at h
  have hM : 0 < s.params.MAX_FRAMES_HW := Nat.succ_pos _
  exact Nat.eq_of_mul_eq_mul_right hM (by omega)

/-- A pass over channels that writes one output sample for each: no channel's sample is written by another. -/
theorem foldl_out {a : State → Nat → State} {f : Nat} (ha : ∀ s c, RenderChanges s (a s c))
    (wa : ∀ s c j, j ≠ s.sampleIndex c f → (a s c).OUT.read j = s.OUT.read j) (cs : List Nat) (s : State)
    {c : Nat} (hc : c ∉ cs) : (cs.foldl a s).outSample c f = s.outSample c f := by
  induction cs generalizing s with
  | nil => rfl
  | cons d cs ih =>
    rw [List.foldl_cons, ih _ (by simp_all)]
    unfold State.outSample
    rw [sampleIndex_congr (ha s d)]
    exact wa s d _ fun h => hc (by rw [frame_sampleIndex_inj h]; simp)

theorem foldl_sim {a b : State → Nat → State} {f g : Nat} (ha : ∀ s c, RenderChanges s (a s c))
    (hb : ∀ s c, RenderChanges s (b s c))
    (wa : ∀ s c j, j ≠ s.sampleIndex c f → (a s c).OUT.read j = s.OUT.read j)
    (wb : ∀ s c j, j ≠ s.sampleIndex c g → (b s c).OUT.read j = s.OUT.read j)
    (step : ∀ s t c, SameCore s t → t.inSample c g = s.inSample c f →
      SameCore (a s c) (b t c) ∧ (b t c).outSample c g = (a s c).outSample c f)
    (cs : List Nat) (hn : cs.Nodup) {s t : State} (h : SameCore s t)
    (hin : ∀ c ∈ cs, t.inSample c g = s.inSample c f) :
    SameCore (cs.foldl a s) (cs.foldl b t) ∧
      ∀ c ∈ cs, (cs.foldl b t).outSample c g = (cs.foldl a s).outSample c f := by
  induction cs generalizing s t with
  | nil => exact ⟨h, by simp⟩
  | cons d cs ih =>
    obtain ⟨hd, hn⟩ := List.nodup_cons.1 hn
    obtain ⟨h1, h2⟩ := step s t d h (hin d (by simp))
    obtain ⟨h3, h4⟩ := ih hn h1 fun c hc => by
      rw [inSample_congr (ha s d), inSample_congr (hb t d)]; exact hin c (by simp [hc])
    refine ⟨h3, fun c hc => ?_⟩
    rcases List.mem_cons.1 hc with rfl | hc
    · rw [List.foldl_cons, List.foldl_cons, foldl_out hb wb _ _ hd, foldl_out ha wa _ _ hd, h2]
    · exact h4 c hc

theorem channelStep_other (f : Nat) (E O : List NUM) (wet dry : NUM) (s : State) (c j : Nat)
    (h : j ≠ s.sampleIndex c f) : (channelStep f E O wet dry s c).OUT.read j = s.OUT.read j := by
  rw [channelStep_OUT, Memory.read_write_other _ _ h]

theorem writeOut_other (s : State) (c f : Nat) (v : NUM) (j : Nat) (h : j ≠ s.sampleIndex c f) :
    (s.writeOut c f v).OUT.read j = s.OUT.read j := by rw [writeOut_read, if_neg h]

theorem SameCore.copyChannels {s t : State} (h : SameCore s t) {f g : Nat} {n : Nat}
    (hin : ∀ c, c < n → t.inSample c g = s.inSample c f) :
    SameCore (copyChannels f (List.range n) s) (copyChannels g (List.range n) t) ∧
      ∀ c, c < n → (Machine.copyChannels g (List.range n) t).outSample c g =
        (Machine.copyChannels f (List.range n) s).outSample c f := by
  obtain ⟨h1, h2⟩ := foldl_sim (a := fun s c => s.writeOut c f (s.inSample c f))
    (b := fun s c => s.writeOut c g (s.inSample c g)) (fun s c => writeOut_changes s c f _)
    (fun s c => writeOut_changes s c g _) (fun s c j hj => writeOut_other s c f _ j hj)
    (fun s c j hj => writeOut_other s c g _ j hj)
    (fun u v c huv hin => ⟨⟨huv.params, huv.fmt, huv.P, huv.L, huv.lines, huv.STATUS, huv.draws⟩, by
      simp only [State.outSample, sampleIndex_congr (writeOut_changes _ _ _ _), writeOut_read, if_pos]
      exact hin⟩)
    (List.range n) List.nodup_range h (fun c hc => hin c (List.mem_range.1 hc))
  exact ⟨h1, fun c hc => h2 c (List.mem_range.2 hc)⟩

theorem SameCore.bypassFrame {s t : State} (h : SameCore s t) {f g : Nat}
    (hin : ∀ c, c < s.fmt.C → t.inSample c g = s.inSample c f) :
    SameCore (bypassFrame f s) (bypassFrame g t) ∧
      ∀ c, c < s.fmt.C → (Machine.bypassFrame g t).outSample c g = (Machine.bypassFrame f s).outSample c f := by
  unfold Machine.bypassFrame
  rw [h.fmt, h.params]
  have hc := h.copyChannels (f := f) (g := g) (n := s.fmt.C) hin
  simp only
  split
  · exact ⟨hc.1.mapBank rfl, hc.2⟩
  · exact hc

theorem SameCore.mixFrame {s t : State} (h : SameCore s t) {f g : Nat}
    (hin : ∀ c, c < s.fmt.C → t.inSample c g = s.inSample c f) :
    SameCore (mixFrame f s) (mixFrame g t) ∧
      ∀ c, c < s.fmt.C → (Machine.mixFrame g t).outSample c g = (Machine.mixFrame f s).outSample c f := by
  unfold Machine.mixFrame frameTaps
  rw [h.fmt, h.P, tapSets_congr h]
  obtain ⟨h1, h2⟩ := foldl_sim (channelStep_changes f _ _ _ _) (channelStep_changes g _ _ _ _)
    (channelStep_other f _ _ _ _) (channelStep_other g _ _ _ _)
    (fun u v c huv hin => huv.channelStep hin
      (tapSets s s.P.DELAY.value s.P.DEPTH.value s.P.odd90).1
      (tapSets s s.P.DELAY.value s.P.DEPTH.value s.P.odd90).2 s.P.WET.value s.P.DRY.value)
    (List.range s.fmt.C) List.nodup_range (h.mapBank (f := fun _ o => o.increment) rfl)
    (fun c hc => hin c (List.mem_range.1 hc))
  exact ⟨h1, fun c hc => h2 c (List.mem_range.2 hc)⟩

theorem renderFrame_eq (f : Nat) (s : State) :
    renderFrame f s =
      if tapBypass s.params s.P.frame.DELAY.value s.P.frame.DEPTH.value then
        bypassFrame f { s with P := s.P.frame } else mixFrame f { s with P := s.P.frame } := rfl

/-- One frame, at f in one state and g in another with the same core and the same input samples: the same
core and the same output samples. -/
theorem SameCore.renderFrame {s t : State} (h : SameCore s t) {f g : Nat}
    (hin : ∀ c, c < s.fmt.C → t.inSample c g = s.inSample c f) :
    SameCore (renderFrame f s) (renderFrame g t) ∧
      ∀ c, c < s.fmt.C → (Machine.renderFrame g t).outSample c g = (Machine.renderFrame f s).outSample c f := by
  have h0 : SameCore { s with P := s.P.frame } { t with P := t.P.frame } :=
    ⟨h.params, h.fmt, by simp [h.P], h.L, h.lines, h.STATUS, h.draws⟩
  have hb : tapBypass t.params t.P.frame.DELAY.value t.P.frame.DEPTH.value =
      tapBypass s.params s.P.frame.DELAY.value s.P.frame.DEPTH.value := by rw [h.params, h.P]
  rw [renderFrame_eq, renderFrame_eq, hb]
  split
  · exact h0.bypassFrame hin
  · exact h0.mixFrame hin

/-- Two event lists match, the second d frames earlier. -/
def EventsMatch (d : Nat) (s t : State) (es es' : List Nat) : Prop :=
  List.Forall₂ (fun e e' => d ≤ eventOFS s e ∧ eventOFS t e' = eventOFS s e - d ∧
    eventPID t e' = eventPID s e ∧ eventVAL t e' = eventVAL s e ∧ eventRMP t e' = eventRMP s e) es es'

theorem EventsMatch.congr {d : Nat} {s t s' t' : State} {es es' : List Nat} (h : EventsMatch d s t es es')
    (hs : RenderChanges s s') (ht : RenderChanges t t') : EventsMatch d s' t' es es' := by
  unfold EventsMatch at *
  simpa only [eventOFS, eventPID, eventVAL, eventRMP, hs.EVQ, ht.EVQ] using h

theorem SameCore.applyDue {s t : State} (h : SameCore s t) {d f : Nat} {es es' : List Nat}
    (he : EventsMatch d s t es es') :
    SameCore (applyDue (d + f) es s).2 (applyDue f es' t).2 ∧
      EventsMatch d s t (applyDue (d + f) es s).1 (applyDue f es' t).1 := by
  induction es generalizing es' s t with
  | nil => cases he; exact ⟨h, .nil⟩
  | cons e es ih =>
    cases he with
    | cons hk he =>
      rename_i e' es'
      simp only [Machine.applyDue]
      by_cases hf : eventOFS s e ≤ d + f
      · rw [if_pos hf, if_pos (by omega)]
        have hs := applyEvent_changes e s
        have ht := applyEvent_changes e' t
        have hst : SameCore (applyEvent e s) (applyEvent e' t) := by
          unfold applyEvent
          rw [hk.2.2.1, hk.2.2.2.1, hk.2.2.2.2]
          exact h.applyParam _ _ _
        obtain ⟨h1, h2⟩ := ih hst (EventsMatch.congr he hs ht)
        refine ⟨h1, ?_⟩
        unfold EventsMatch at *
        simpa only [eventOFS, eventPID, eventVAL, eventRMP, hs.EVQ, ht.EVQ] using h2
      · rw [if_neg hf, if_neg (by omega)]
        exact ⟨h, .cons hk he⟩

/-- A run of n frames, from frame d + f in one state and frame f in another: the same core, matching events
left over, the same output samples (44_engine.md R277 (5)). -/
theorem SameCore.renderFrames {s t : State} (h : SameCore s t) {d f n : Nat} {es es' : List Nat}
    (he : EventsMatch d s t es es') (hF : d + f + n ≤ s.params.MAX_FRAMES_HW)
    (hin : ∀ c k, c < s.fmt.C → f ≤ k → k < f + n → t.inSample c k = s.inSample c (d + k)) :
    SameCore (renderFrames n (d + f) es s).2 (renderFrames n f es' t).2 ∧
      EventsMatch d s t (renderFrames n (d + f) es s).1 (renderFrames n f es' t).1 ∧
      ∀ c k, c < s.fmt.C → f ≤ k → k < f + n →
        (renderFrames n f es' t).2.outSample c k = (renderFrames n (d + f) es s).2.outSample c (d + k) := by
  induction n generalizing f es es' s t with
  | zero => exact ⟨h, he, fun c k _ _ _ => by omega⟩
  | succ n ih =>
    simp only [Machine.renderFrames]
    obtain ⟨h1, he1⟩ := h.applyDue (f := f) he
    have cs := applyDue_changes (d + f) es s
    have ct := applyDue_changes f es' t
    generalize (Machine.applyDue (d + f) es s).2 = s1 at *
    generalize (Machine.applyDue (d + f) es s).1 = es1 at *
    generalize (Machine.applyDue f es' t).2 = t1 at *
    generalize (Machine.applyDue f es' t).1 = es1' at *
    obtain ⟨h2, ho⟩ := h1.renderFrame (f := d + f) (g := f) fun c hc => by
      rw [inSample_congr ct, inSample_congr cs]
      exact hin c f (by rw [← cs.fmt]; exact hc) (Nat.le_refl _) (by omega)
    have cs2 := cs.trans (renderFrame_changes (d + f) s1)
    have ct2 := ct.trans (renderFrame_changes f t1)
    have hfmt : (Machine.renderFrame (d + f) s1).fmt = s.fmt := cs2.fmt
    have hpar : (Machine.renderFrame (d + f) s1).params = s.params := cs2.params
    obtain ⟨h3, he3, ho3⟩ := ih (f := f + 1) h2 (he1.congr cs2 ct2) (by rw [hpar]; omega)
      fun c k hc h1 h2 => by
        rw [inSample_congr ct2, inSample_congr cs2]
        exact hin c k (by rw [← hfmt]; exact hc) (by omega) (by omega)
    rw [hfmt] at ho3
    have e1 : d + (f + 1) = d + f + 1 := by omega
    rw [e1] at h3 he3 ho3
    refine ⟨h3, ?_, fun c k hc hk1 hk2 => ?_⟩
    · unfold EventsMatch at *
      simpa only [eventOFS, eventPID, eventVAL, eventRMP, cs2.EVQ, ct2.EVQ] using he3
    · by_cases hk : k = f
      · subst hk
        have hs' := renderFrames_changes n (d + k + 1) es1 (Machine.renderFrame (d + k) s1)
        have ht' := renderFrames_changes n (k + 1) es1' (Machine.renderFrame k t1)
        have htM : (Machine.renderFrame k t1).params = s.params := h2.params.trans hpar
        unfold State.outSample
        rw [sampleIndex_congr hs', sampleIndex_congr ht', renderFrames_out, renderFrames_out]
        · exact ho c (by rw [cs.fmt]; exact hc)
        · intro c' g hc' h1 h2 heq
          have := (sampleIndex_inj (by rw [hpar]; omega) (by rw [hpar]; omega) heq).2
          omega
        · intro c' g hc' h1 h2 heq
          have := (sampleIndex_inj (by rw [htM]; omega) (by rw [htM]; omega) heq).2
          omega
      · exact ho3 c k hc (by omega) (by omega)

/-! ## Operand registers and events, carried past what does not read them -/

/-- The state with other words in OPA, OPB and EVQ. -/
def State.carrying (s : State) (a b : Word) (m : Memory) : State := { s with OPA := a, OPB := b, EVQ := m }

theorem retuneBank_carrying (v : NUM) (n : Word) (s : State) (a b : Word) (m : Memory) :
    retuneBank v n (s.carrying a b m) = (retuneBank v n s).carrying a b m := by
  have hp : (s.carrying a b m).params = s.params := rfl
  unfold retuneBank
  rw [hp]
  cases s.params.RATE_UPDATE_POLICY <;> rfl

theorem applyParam_carrying (p : Nat) (v : NUM) (n : Word) (s : State) (a b : Word) (m : Memory) :
    applyParam p v n (s.carrying a b m) = (applyParam p v n s).carrying a b m := by
  unfold applyParam
  split
  · rfl
  · rename_i id _
    cases id <;> try rfl
    change (if s.STATUS.CFGD then
      retuneBank v n (State.carrying (s.setParam .RATE (rpSet s.P.RATE v 0#32)) a b m)
      else State.carrying (s.setParam .RATE (rpSet s.P.RATE v 0#32)) a b m) = _
    rw [retuneBank_carrying]
    exact (apply_ite (State.carrying · a b m) _ _ _).symm

theorem sumTaps_carrying (c : Nat) (taps : List NUM) (acc : NUM) (s : State) (a b : Word) (m : Memory) :
    sumTaps c taps acc (s.carrying a b m) =
      ((sumTaps c taps acc s).1, (sumTaps c taps acc s).2.carrying a b m) := by
  induction taps generalizing acc s with
  | nil => rfl
  | cons x taps ih =>
    have hd : dlRead c x (s.carrying a b m) = ((dlRead c x s).1, (dlRead c x s).2.carrying a b m) := by
      change (if offsetInRange s.fmt.N x then _ else _) = _
      unfold dlRead
      split <;> rfl
    rw [sumTaps, hd, ih]
    rfl

theorem foldl_carrying {g : State → Nat → State} {a b : Word} {m : Memory}
    (hg : ∀ s c, g (s.carrying a b m) c = (g s c).carrying a b m) (cs : List Nat) (s : State) :
    cs.foldl g (s.carrying a b m) = (cs.foldl g s).carrying a b m := by
  induction cs generalizing s with
  | nil => rfl
  | cons c cs ih => rw [List.foldl_cons, hg, ih, List.foldl_cons]

theorem channelStep_carrying (f : Nat) (E O : List NUM) (wet dry : NUM) (s : State) (c : Nat) (a b : Word)
    (m : Memory) : channelStep f E O wet dry (s.carrying a b m) c =
      (channelStep f E O wet dry s c).carrying a b m := by
  have ht : tapMean c (if c % 2 = 1 then O else E) (s.carrying a b m) =
      ((tapMean c (if c % 2 = 1 then O else E) s).1,
        (tapMean c (if c % 2 = 1 then O else E) s).2.carrying a b m) := by
    unfold tapMean
    rw [sumTaps_carrying]
    rfl
  unfold channelStep
  rw [ht]
  rfl

/-- A frame reads and writes neither the operand registers nor the events. -/
theorem renderFrame_carrying (f : Nat) (s : State) (a b : Word) (m : Memory) :
    renderFrame f (s.carrying a b m) = (renderFrame f s).carrying a b m := by
  have hm : ∀ u : State, mixFrame f (u.carrying a b m) = (mixFrame f u).carrying a b m := fun u =>
    foldl_carrying (fun s c => channelStep_carrying f
      (tapSets u u.P.DELAY.value u.P.DEPTH.value u.P.odd90).1
      (tapSets u u.P.DELAY.value u.P.DEPTH.value u.P.odd90).2 u.P.WET.value u.P.DRY.value s c a b m)
      (List.range u.fmt.C) (advanceBank u)
  have hb : ∀ u : State, bypassFrame f (u.carrying a b m) = (bypassFrame f u).carrying a b m := fun u => by
    have hc : copyChannels f (List.range u.fmt.C) (u.carrying a b m) =
        (copyChannels f (List.range u.fmt.C) u).carrying a b m := foldl_carrying (fun _ _ => rfl) _ u
    change (if u.params.BYPASS_ADVANCES_LFO then advanceBank (copyChannels f (List.range u.fmt.C) _)
      else copyChannels f (List.range u.fmt.C) _) = _
    rw [hc]
    exact (apply_ite (State.carrying · a b m) (u.params.BYPASS_ADVANCES_LFO = true)
      (advanceBank (copyChannels f (List.range u.fmt.C) u)) (copyChannels f (List.range u.fmt.C) u)).symm
  rw [renderFrame_eq, renderFrame_eq]
  change (if tapBypass s.params s.P.frame.DELAY.value s.P.frame.DEPTH.value then
    bypassFrame f (State.carrying { s with P := s.P.frame } a b m)
    else mixFrame f (State.carrying { s with P := s.P.frame } a b m)) = _
  rw [hb, hm]
  split <;> rfl

/-- Event k of the memory m is event φ(k) of s, for the k of a list. -/
def EventsAt (φ : Nat → Nat) (m : Memory) (s : State) (es : List Nat) : Prop :=
  ∀ k ∈ es, ∀ i, i < 4 → m.read (4 * k + i) = s.EVQ.read (4 * φ k + i)

theorem EventsAt.congr {φ : Nat → Nat} {m : Memory} {s t : State} {es es' : List Nat}
    (h : EventsAt φ m s es) (hst : RenderChanges s t) (hs : ∀ k ∈ es', k ∈ es) : EventsAt φ m t es' :=
  fun k hk i hi => by rw [hst.EVQ]; exact h k (hs k hk) i hi

theorem applyEvent_carrying {φ : Nat → Nat} {m : Memory} {s : State} {k : Nat} {es : List Nat}
    (h : EventsAt φ m s es) (hk : k ∈ es) (a b : Word) :
    applyEvent k (s.carrying a b m) = (applyEvent (φ k) s).carrying a b m := by
  rw [applyEvent, applyParam_carrying]
  simp only [eventPID, eventVAL, eventRMP, State.carrying, h k hk 1 (by omega), h k hk 2 (by omega),
    h k hk 3 (by omega), applyEvent]

theorem applyEvents_carrying {φ : Nat → Nat} {m : Memory} {s : State} {es : List Nat}
    (h : EventsAt φ m s es) (a b : Word) :
    applyEvents es (s.carrying a b m) = (applyEvents (es.map φ) s).carrying a b m := by
  induction es generalizing s with
  | nil => rfl
  | cons k es ih =>
    have hk := applyEvent_carrying h (List.mem_cons_self ..) a b
    have := ih (h.congr (applyEvent_changes (φ k) s) fun j hj => List.mem_cons_of_mem _ hj)
    rw [← hk] at this
    exact this

theorem applyDue_carrying {φ : Nat → Nat} {m : Memory} (f : Nat) {s : State} {es : List Nat}
    (h : EventsAt φ m s es) (a b : Word) :
    (applyDue f es (s.carrying a b m)).2 = (applyDue f (es.map φ) s).2.carrying a b m ∧
      (applyDue f es (s.carrying a b m)).1.map φ = (applyDue f (es.map φ) s).1 := by
  induction es generalizing s with
  | nil => exact ⟨rfl, rfl⟩
  | cons k es ih =>
    have hO : eventOFS (s.carrying a b m) k = eventOFS s (φ k) :=
      congrArg BitVec.toNat (h k (List.mem_cons_self ..) 0 (by omega))
    simp only [applyDue, List.map_cons, hO]
    split
    · rw [applyEvent_carrying h (List.mem_cons_self ..)]
      exact ih (h.congr (applyEvent_changes (φ k) s) fun j hj => List.mem_cons_of_mem _ hj)
    · exact ⟨rfl, rfl⟩

theorem renderFrames_carrying {φ : Nat → Nat} {m : Memory} (n f : Nat) {s : State} {es : List Nat}
    (h : EventsAt φ m s es) (a b : Word) :
    (renderFrames n f es (s.carrying a b m)).2 = (renderFrames n f (es.map φ) s).2.carrying a b m ∧
      (renderFrames n f es (s.carrying a b m)).1.map φ = (renderFrames n f (es.map φ) s).1 ∧
      ∀ k ∈ (renderFrames n f es (s.carrying a b m)).1, k ∈ es := by
  induction n generalizing f es s with
  | zero => exact ⟨rfl, rfl, fun _ hk => hk⟩
  | succ n ih =>
    obtain ⟨h1, h2⟩ := applyDue_carrying f h a b
    have hsub := applyDue_subset f es (s.carrying a b m)
    have hc := (applyDue_changes f (es.map φ) s).trans (renderFrame_changes f _)
    obtain ⟨i1, i2, i3⟩ := ih (f + 1) (h.congr hc hsub)
    simp only [renderFrames]
    rw [h1, renderFrame_carrying, ← h2]
    exact ⟨i1, i2, fun k hk => hsub k (i3 k hk)⟩

/-- A whole RENDER over the events of a list: its frames, then the events left over (44_engine.md R272). -/
def renderList (F : Nat) (es : List Nat) (s : State) : State :=
  applyEvents (renderFrames F 0 es s).1 (renderFrames F 0 es s).2

theorem renderBody_eq (F K : Nat) (s : State) : renderBody F K s = renderList F (List.range K) s := rfl

/-- The same events in another event memory, under other numbers, do the same. -/
theorem renderList_carrying {φ : Nat → Nat} {m : Memory} (F : Nat) {s : State} {es : List Nat}
    (h : EventsAt φ m s es) (a b : Word) :
    renderList F es (s.carrying a b m) = (renderList F (es.map φ) s).carrying a b m := by
  obtain ⟨h1, h2, h3⟩ := renderFrames_carrying F 0 h a b
  have hc := renderFrames_changes F 0 (es.map φ) s
  unfold renderList
  rw [h1, applyEvents_carrying (h.congr hc h3), h2]

/-- An event due at once is applied before anything else (R272). -/
theorem renderList_due {F e : Nat} {es : List Nat} {s : State} (h : F = 0 ∨ eventOFS s e = 0) :
    renderList F (e :: es) s = renderList F es (applyEvent e s) := by
  cases F with
  | zero => rfl
  | succ n =>
    have h0 : eventOFS s e ≤ 0 := by omega
    simp only [renderList, renderFrames, applyDue, if_pos h0]

/-- An event past the last frame is applied after everything else (R272). -/
theorem renderList_late {F e : Nat} {es : List Nat} {s : State} (h : F ≤ eventOFS s e) :
    renderList F (es ++ [e]) s = applyEvent e (renderList F es s) := by
  unfold renderList
  rw [renderFrames_append es (later := [e]) fun k hk => by
    obtain rfl := List.mem_singleton.1 hk; omega]
  simp only [applyEvents, List.foldl_append, List.foldl_cons, List.foldl_nil]

/-! ## One frame, in full -/

/-- Taps inside the line: the sum is over the cubic reads, and no state changes (43_tap_compute.md R236). -/
theorem sumTaps_inside (c : Nat) {taps : List NUM} (acc : NUM) {s : State}
    (h : ∀ x ∈ taps, offsetInRange s.fmt.N x = true) :
    sumTaps c taps acc s =
      ((taps.map (lineRead s.params s.fmt.N (s.line c))).foldl NUM.add acc, s) := by
  induction taps generalizing acc with
  | nil => rfl
  | cons x taps ih =>
    rw [sumTaps, dlRead_inside c (h x (by simp)), ih _ fun y hy => h y (by simp [hy])]
    rfl

theorem tapMean_inside (c : Nat) {taps : List NUM} {s : State}
    (h : ∀ x ∈ taps, offsetInRange s.fmt.N x = true) :
    tapMean c taps s =
      (NUM.div ((taps.map (lineRead s.params s.fmt.N (s.line c))).foldl NUM.add NUM.zero)
        (toNUM s.params.T), s) := by
  simp only [tapMean, sumTaps_inside c NUM.zero h]

/-- What a pass over taps does to the state: E_RANGE is set if one of them is outside the line, and draws are
counted (43_tap_compute.md R236, 60_exceptions.md R314). -/
theorem sumTaps_state (c : Nat) (taps : List NUM) (acc : NUM) (s : State) :
    (sumTaps c taps acc s).2 = { s with
      STATUS := { s.STATUS with
        E_RANGE := s.STATUS.E_RANGE || taps.any fun x => !offsetInRange s.fmt.N x }
      draws := (sumTaps c taps acc s).2.draws } := by
  induction taps generalizing acc s with
  | nil => simp [sumTaps]
  | cons x taps ih =>
    rw [sumTaps, ih]
    cases h : offsetInRange s.fmt.N x
    · rw [dlRead_outside c h]
      simp [h, State.raise, Status.set, State.afterDraws]
    · rw [dlRead_inside c h]
      simp [h]

theorem channelStep_STATUS (f : Nat) (E O : List NUM) (wet dry : NUM) (s : State) (c : Nat) :
    (channelStep f E O wet dry s c).STATUS = { s.STATUS with
      E_RANGE := s.STATUS.E_RANGE ||
        (if c % 2 = 1 then O else E).any fun x => !offsetInRange s.fmt.N x } := by
  have h := congrArg State.STATUS (sumTaps_state c (if c % 2 = 1 then O else E) NUM.zero s)
  exact h

/-- The channels of a frame set E_RANGE exactly where a tap of one of them is outside its line. -/
theorem channels_STATUS (f : Nat) (E O : List NUM) (wet dry : NUM) (cs : List Nat) (s : State) :
    (cs.foldl (channelStep f E O wet dry) s).STATUS = { s.STATUS with
      E_RANGE := s.STATUS.E_RANGE ||
        cs.any fun c => (if c % 2 = 1 then O else E).any fun x => !offsetInRange s.fmt.N x } := by
  induction cs generalizing s with
  | nil => simp
  | cons c cs ih =>
    rw [List.foldl_cons, ih, channelStep_STATUS, (channelStep_changes f E O wet dry s c).fmt]
    simp [Bool.or_assoc]

theorem channelStep_line (f : Nat) (E O : List NUM) (wet dry : NUM) (s : State) (c d : Nat)
    (hd : d < s.lines.length) : (channelStep f E O wet dry s c).line d =
      if d = c then (s.line c).write s.fmt.N (s.inSample c f) else s.line d := by
  unfold State.line
  rw [channelStep_lines]
  split
  · rename_i h; subst h; exact getD_modify_same _ _ _ hd
  · rename_i h; exact getD_modify_other _ _ _ h

/-- The channels of a frame that come after channel d leave its line; its own step writes its sample. -/
theorem channels_line (f : Nat) (E O : List NUM) (wet dry : NUM) (cs : List Nat) (hn : cs.Nodup) (s : State)
    (d : Nat) (hd : d < s.lines.length) : (cs.foldl (channelStep f E O wet dry) s).line d =
      if d ∈ cs then (s.line d).write s.fmt.N (s.inSample d f) else s.line d := by
  induction cs generalizing s with
  | nil => simp
  | cons c cs ih =>
    obtain ⟨hc, hn⟩ := List.nodup_cons.1 hn
    have hch := channelStep_changes f E O wet dry s c
    rw [List.foldl_cons, ih hn _ (by rw [channelStep_lines]; simpa using hd), channelStep_line _ _ _ _ _ _ _ _ hd,
      hch.fmt, inSample_congr hch]
    by_cases h : d = c
    · subst h; simp [hc]
    · simp [h]

/-- A frame that is not bypassed writes each channel's sample into its line, once (R276). -/
theorem mixFrame_line (f : Nat) (s : State) {c : Nat} (hc : c < s.fmt.C) (hl : c < s.lines.length) :
    (mixFrame f s).line c = (s.line c).write s.fmt.N (s.inSample c f) := by
  unfold mixFrame frameTaps
  have h := channels_line f (tapSets s s.P.DELAY.value s.P.DEPTH.value s.P.odd90).1
    (tapSets s s.P.DELAY.value s.P.DEPTH.value s.P.odd90).2 s.P.WET.value s.P.DRY.value (List.range s.fmt.C)
    List.nodup_range (advanceBank s) c hl
  rw [if_pos (List.mem_range.2 hc)] at h
  exact h

/-- A bypassed frame touches no delay line (R275). -/
theorem copyChannels_eq (f : Nat) (cs : List Nat) (s : State) :
    copyChannels f cs s = { s with OUT := (copyChannels f cs s).OUT } := by
  have h : ∀ (cs : List Nat) (s : State), copyChannels f cs s = { s with OUT := (copyChannels f cs s).OUT } := by
    intro cs
    induction cs with
    | nil => exact fun _ => rfl
    | cons c cs ih =>
      intro s
      have := ih (s.writeOut c f (s.inSample c f))
      exact this
  exact h cs s

/-- A pass over channels leaves each channel's output as its own step wrote it. -/
theorem copyChannels_out (f : Nat) {n c : Nat} (hc : c < n) (s : State) :
    (copyChannels f (List.range n) s).outSample c f = s.inSample c f := by
  have key : ∀ (cs : List Nat) (s : State), c ∈ cs →
      (copyChannels f cs s).outSample c f = s.inSample c f := by
    intro cs
    induction cs with
    | nil => intro s h; cases h
    | cons d cs ih =>
      intro s h
      by_cases hm : c ∈ cs
      · have := ih (s.writeOut d f (s.inSample d f)) hm
        exact this
      · have hd : c = d := by simpa [hm] using h
        subst hd
        have := foldl_out (a := fun t c => t.writeOut c f (t.inSample c f)) (f := f)
          (fun s c => writeOut_changes s c f _) (fun s c j hj => writeOut_other s c f _ j hj) cs
          (s.writeOut c f (s.inSample c f)) hm
        refine this.trans ?_
        simp only [State.outSample, sampleIndex_congr (writeOut_changes _ _ _ _), writeOut_read, if_pos]
  exact key _ s (List.mem_range.2 hc)

/-! ## The parameter file through a frame and through events -/

theorem foldl_P {α : Type} {g : State → α → State} (hg : ∀ s a, (g s a).P = s.P) (as : List α) (s : State) :
    (as.foldl g s).P = s.P := by
  induction as generalizing s with
  | nil => rfl
  | cons a as ih => exact (ih _).trans (hg s a)

/-- A frame steps the five ramps of the parameter file, and nothing else of it (R273). -/
theorem renderFrame_P (f : Nat) (s : State) : (renderFrame f s).P = s.P.frame := by
  have hc := foldl_P (g := fun t c => t.writeOut c f (t.inSample c f)) (fun _ _ => rfl)
    (List.range s.fmt.C) { s with P := s.P.frame }
  rw [renderFrame_eq]
  split
  · unfold bypassFrame
    simp only
    split
    · exact hc
    · exact hc
  · exact foldl_P (fun _ _ => channelStep_P ..) _ _

theorem applyKnown_RATE {p : ParamId} (v : NUM) (n : Word) (s : State) (h : p ≠ .RATE) :
    (applyKnown p v n s).P.RATE = s.P.RATE := by
  cases p <;> first | exact absurd rfl h | rfl

/-- An event that does not name RATE leaves P[RATE] (R263). -/
theorem applyEvent_RATE {k : Nat} {s : State} (h : s.EVQ.read (4 * k + 1) ≠ 0#32) :
    (applyEvent k s).P.RATE = s.P.RATE := by
  unfold applyEvent applyParam
  split
  · rfl
  · rename_i p hp
    refine applyKnown_RATE _ _ _ fun hr => h (BitVec.eq_of_toNat_eq ?_)
    subst hr
    exact ParamId.ofNat?_some hp

end Sys2Proof.Machine
end

