-- ==== Sys2Proof/Laws/Commands.lean ====
section
/-!
SUPPORT. One lemma for each command and each way it can go: what `exec` answers, so that no proof unfolds the
checks again.
-/

namespace Sys2Proof.Machine

/-! ## The checks, as the state they leave -/

theorem raise_notcfg (s : State) :
    s.raise .E_NOTCFG = { s with STATUS := { s.STATUS with E_NOTCFG := true } } := rfl

theorem raise_sel (s : State) : s.raise .E_SEL = { s with STATUS := { s.STATUS with E_SEL := true } } := rfl

/-- A command that needs a format leaves E_NOTCFG and nothing else without one (60_exceptions.md R311); RENDER
havocs besides. -/
theorem exec_unconfigured {i : Instr} {s : State} (hi : i.needsFormat = true) (hr : i ≠ .render)
    (h : s.STATUS.CFGD = false) :
    exec i s = .next { s with STATUS := { s.STATUS with E_NOTCFG := true } } := by
  rw [← raise_notcfg]
  cases i
  case cfg => cases hi
  case setp => cases hi
  case getp => cases hi
  case render => exact absurd rfl hr
  case rdstat => cases hi
  case rpset => cases hi
  case rpfrm => cases hi
  case rpget => cases hi
  all_goals
    simp only [exec, execDlwr, execDlrd, execLfosf, execLfov, execLfoq, execLfoinc, execTaps,
      State.ifConfigured_false h]

/-- A selector that names no component leaves E_SEL and nothing else (60_exceptions.md R312). -/
theorem exec_badSelector {i : Instr} {s : State} (hi : i.badSelector s = true)
    (h : i.needsFormat = true → s.STATUS.CFGD = true) :
    exec i s = .next { s with STATUS := { s.STATUS with E_SEL := true } } := by
  rw [← raise_sel]
  cases i
  case dlwr c =>
    have hc : ¬ c < s.fmt.C := Nat.not_lt.2 (by simpa [Instr.badSelector] using hi)
    simp [exec, execDlwr, h rfl, hc]
  case dlrd c =>
    have hc : ¬ c < s.fmt.C := Nat.not_lt.2 (by simpa [Instr.badSelector] using hi)
    simp [exec, execDlrd, h rfl, hc]
  case lfosf k =>
    have hc : ¬ k < s.params.T := Nat.not_lt.2 (by simpa [Instr.badSelector] using hi)
    simp [exec, execLfosf, h rfl, hc]
  case lfov k =>
    have hc : ¬ k < s.params.T := Nat.not_lt.2 (by simpa [Instr.badSelector] using hi)
    simp [exec, execLfov, h rfl, hc]
  case lfoq k =>
    have hc : ¬ k < s.params.T := Nat.not_lt.2 (by simpa [Instr.badSelector] using hi)
    simp [exec, execLfoq, h rfl, hc]
  case lfoinc k =>
    have hc : ¬ k < s.params.T := Nat.not_lt.2 (by simpa [Instr.badSelector] using hi)
    simp [exec, execLfoinc, h rfl, hc]
  case rpset id => simp [exec, execRpset, ParamId.ofNat?_unknown (of_decide_eq_true hi)]
  case rpfrm id => simp [exec, execRpfrm, ParamId.ofNat?_unknown (of_decide_eq_true hi)]
  case rpget id => simp [exec, execRpget, ParamId.ofNat?_unknown (of_decide_eq_true hi)]
  all_goals cases hi

/-! ## The effects -/

theorem exec_dlwr {s : State} {c : Nat} (h : s.STATUS.CFGD = true) (hc : c < s.fmt.C) :
    exec (.dlwr c) s = .next (dlWrite c s.OPA s) := by
  simp [exec, execDlwr, h, hc, State.opaNum]

theorem exec_dlrd_inside {s : State} {c : Nat} (h : s.STATUS.CFGD = true) (hc : c < s.fmt.C)
    (hx : offsetInRange s.fmt.N s.OPA = true) :
    exec (.dlrd c) s = .next { s with RES := lineRead s.params s.fmt.N (s.line c) s.OPA } := by
  simp only [exec, execDlrd, State.ifConfigured_true h, State.opaNum, dlRead_inside c hx, hc, decide_true,
    State.ifSelects_true]
  rfl

theorem exec_dlrd_outside {s : State} {c : Nat} (h : s.STATUS.CFGD = true) (hc : c < s.fmt.C)
    (hx : offsetInRange s.fmt.N s.OPA = false) :
    exec (.dlrd c) s = .next { s with
      RES := Config.draw s.draws
      STATUS := { s.STATUS with E_RANGE := true }
      draws := s.draws + 1 } := by
  simp only [exec, execDlrd, State.ifConfigured_true h, State.opaNum, dlRead_outside c hx, hc, decide_true,
    State.ifSelects_true]
  rfl

theorem exec_lfosf {s : State} {i : Nat} (h : s.STATUS.CFGD = true) (hi : i < s.params.T) :
    exec (.lfosf i) s = .next (s.modifyOsc i (Osc.setFrequency s.fmt.FS s.OPA s.OPB)) := by
  simp [exec, execLfosf, h, hi, State.opaNum, State.opbRamp]

theorem exec_lfov {s : State} {i : Nat} (h : s.STATUS.CFGD = true) (hi : i < s.params.T) :
    exec (.lfov i) s = .next (s.setRES ((s.osc i).wave s.params)) := by
  simp [exec, execLfov, h, hi]

theorem exec_lfoq {s : State} {i : Nat} (h : s.STATUS.CFGD = true) (hi : i < s.params.T) :
    exec (.lfoq i) s = .next (s.setRES ((s.osc i).quad s.params)) := by
  simp [exec, execLfoq, h, hi]

theorem exec_lfoinc {s : State} {i : Nat} (h : s.STATUS.CFGD = true) (hi : i < s.params.T) :
    exec (.lfoinc i) s = .next (s.modifyOsc i Osc.increment) := by
  simp [exec, execLfoinc, h, hi]

theorem exec_rpset (s : State) (p : ParamId) :
    exec (.rpset p.toNat) s = .next (s.setParam p (rpSet (s.P.get p) s.OPA s.OPB)) := by
  simp [exec, execRpset, State.opaNum, State.opbRamp]

theorem exec_rpfrm (s : State) (p : ParamId) :
    exec (.rpfrm p.toNat) s =
      .next ((s.setParam p (rpFrame (s.P.get p))).setRES (rpFrame (s.P.get p)).value) := by
  simp [exec, execRpfrm]

theorem exec_rpget (s : State) (p : ParamId) :
    exec (.rpget p.toNat) s = .next (s.setRES (s.P.get p).value) := by
  simp [exec, execRpget, rpGet]

theorem exec_getp (s : State) (p : ParamId) :
    exec (.getp p.toNat) s = .next (s.setRES (s.P.get p).value) := by
  simp [exec, execGetp, rpGet]

theorem exec_getp_unknown (s : State) {id : Nat} (h : 5 < id) :
    exec (.getp id) s = .next { s with RES := 0#32 } := by
  simp only [exec, execGetp, ParamId.ofNat?_unknown h]
  rfl

theorem exec_setp (s : State) (p : ParamId) :
    exec (.setp p.toNat) s = .next (applyKnown p s.OPA s.OPB s) := by
  simp [exec, execSetp, applyParam, State.opaNum, State.opbRamp]

theorem exec_setp_unknown (s : State) {id : Nat} (h : 5 < id) : exec (.setp id) s = .next s := by
  simp only [exec, execSetp, applyParam, ParamId.ofNat?_unknown h]

theorem tapBypass_iff (p : Params) (dly dep : NUM) : tapBypass p dly dep = true ↔
    p.VARIANT = .FLANGE ∧ (NUM.eq dly NUM.zero = true ∨ NUM.eq dep NUM.zero = true) := by
  unfold tapBypass; split <;> simp_all

theorem exec_taps_bypass {s : State} (h : s.STATUS.CFGD = true)
    (hb : tapBypass s.params s.OPA s.OPB = true) : exec .taps s = .next { s with RES := 1#32 } := by
  simp only [exec, execTaps, State.ifConfigured_true h, storeTaps, State.opaNum, State.opbNum, hb, if_true]
  rfl

theorem exec_taps {s : State} (h : s.STATUS.CFGD = true) (hb : tapBypass s.params s.OPA s.OPB = false) :
    exec .taps s = .next { s with
      TAPE := writeTaps s.TAPE 0 (tapSets s s.OPA s.OPB s.opcFlag).1
      TAPO := writeTaps s.TAPO 0 (tapSets s s.OPA s.OPB s.opcFlag).2
      RES := 0#32 } := by
  simp [exec, execTaps, State.ifConfigured_true h, storeTaps, State.opaNum, State.opbNum, hb]

theorem exec_cfg_valid {s : State} (h : cfgValid s.params s.OPA.toNat s.OPB s.OPC.toNat s.OPD = true) :
    exec .cfg s = .next (configure s.OPA.toNat s.OPB s.OPC.toNat s.OPD s) := by
  simp only [exec, execCfg, State.opaU32, State.opbNum, State.opcU32, State.opdNum, h, if_true]

theorem exec_cfg_invalid {s : State} (h : cfgValid s.params s.OPA.toNat s.OPB s.OPC.toNat s.OPD = false) :
    exec .cfg s = .next { s with
      STATUS := { s.STATUS with CFGD := false, E_PRECOND := true }, L := [], lines := [] } := by
  simp only [exec, execCfg, State.opaU32, State.opbNum, State.opcU32, State.opdNum, h]
  rfl

theorem exec_render_inContract {s : State} (h : s.STATUS.CFGD = true)
    (hc : renderInContract s s.OPA.toNat s.OPB.toNat = true) :
    exec .render s = .next (renderBody s.OPA.toNat s.OPB.toNat s) := by
  simp only [exec, execRender, h, State.opaU32, State.opbU32, hc, if_true]

theorem exec_render_outOfContract {s : State} (h : s.STATUS.CFGD = true)
    (hc : renderInContract s s.OPA.toNat s.OPB.toNat = false) :
    exec .render s = .next (s.raise .E_PRECOND).havocOUT.havocP.havocL.havocLines := by
  simp only [exec, execRender, h, State.opaU32, State.opbU32, hc, if_true]
  rfl

theorem exec_render_unconfigured {s : State} (h : s.STATUS.CFGD = false) :
    exec .render s = .next (s.raise .E_NOTCFG).havocOUT.havocP := by
  simp only [exec, execRender, h]
  rfl

/-- RENDER's contract as 44_engine.md R270 words it. -/
theorem renderInContract_iff (s : State) (F K : Nat) : renderInContract s F K = true ↔
    F ≤ s.fmt.MAXF ∧ K ≤ s.params.MAX_EVENTS ∧
      ∀ k, 1 ≤ k → k < K → (s.EVQ.read (4 * (k - 1))).toNat ≤ (s.EVQ.read (4 * k)).toNat := by
  simp only [renderInContract, eventsSorted, eventOFS, Bool.and_eq_true, decide_eq_true_eq, List.all_eq_true,
    List.mem_range, and_assoc]
  refine and_congr_right fun _ => and_congr_right fun _ => ⟨fun h k h1 h2 => ?_, fun h k hk => ?_⟩
  · have := h (k - 1) (by omega)
    rw [show k - 1 + 1 = k by omega] at this
    exact of_decide_eq_true this
  · exact decide_eq_true (h (k + 1) (by omega) (by omega))

/-- SETP of event k's id, value and ramp does what RENDER's own `applyEvent(k)` does (R264, R267). -/
theorem exec_setp_event {s : State} (k : Nat) {m : Memory} (h : m = s.EVQ) :
    exec (.setp (m.read (4 * k + 1)).toNat) { s with OPA := m.read (4 * k + 2), OPB := m.read (4 * k + 3) } =
      .next { applyEvent k s with OPA := m.read (4 * k + 2), OPB := m.read (4 * k + 3) } := by
  subst h
  have hx := (applyEvent_changes k s).EVQ
  refine congrArg Host.Outcome.next ((applyParam_carrying _ _ _ s _ _ s.EVQ).trans ?_)
  change State.carrying (applyEvent k s) _ _ s.EVQ = _
  rw [State.carrying, ← hx]

/-- CFG's validity as R261 words it. -/
theorem cfgValid_iff (p : Params) (ch : Nat) (fs : NUM) (mf : Nat) (md : NUM) :
    cfgValid p ch fs mf md = true ↔
      1 ≤ ch ∧ ch ≤ p.MAX_CHANNELS ∧ NUM.isFinite fs = true ∧ NUM.lt NUM.zero fs = true ∧
      1 ≤ mf ∧ mf ≤ p.MAX_FRAMES_HW ∧ NUM.isFinite md = true ∧ NUM.lt NUM.zero md = true ∧
      capacity md fs ≤ p.MAX_DL_SAMPLES := by
  simp only [cfgValid, Bool.and_eq_true, decide_eq_true_eq, and_assoc]

/-- An offset is in range as 40_delay_line.md R143 words it. -/
theorem offsetInRange_iff (N : Nat) (x : NUM) : offsetInRange N x = true ↔
    NUM.isFinite x = true ∧ NUM.le NUM.zero x = true ∧ NUM.real x ≤ (N : ℚ) - 1 := by
  simp only [offsetInRange, Bool.and_eq_true, decide_eq_true_eq, and_assoc]
  refine and_congr_right fun _ => and_congr_right fun _ => ?_
  unfold NUM.real NUM.one149
  rw [div_le_iff₀ (by positivity)]
  exact_mod_cast Iff.rfl

/-- `floor` is the floor of the real value (00_scope.md R12). -/
theorem floor_eq (x : NUM) : NUM.floor x = ⌊NUM.real x⌋ := by
  unfold NUM.floor NUM.real NUM.one149
  have h := Rat.floor_intCast_div_natCast (NUM.units x) (2 ^ 149)
  push_cast at h ⊢
  exact h.symm

/-- The state a valid CFG leaves: its lines are fresh (R262). -/
theorem configure_line (ch : Nat) (fs : NUM) (mf : Nat) (md : NUM) (s : State) {c : Nat} (hc : c < ch) :
    (configure ch fs mf md s).line c = { WC := 0, cells := [] } := by
  simp [State.line, configure, List.getD, hc]

theorem configure_osc (ch : Nat) (fs : NUM) (mf : Nat) (md : NUM) (s : State) {i : Nat}
    (hi : i < s.params.T) : (configure ch fs mf md s).osc i = newOsc s.params fs s.P.RATE.value i :=
  buildBank_osc s.P.RATE.value _ hi

end Sys2Proof.Machine
end

