-- ==== Sys2Proof/Laws/Decode.lean ====
section
/-!
SUPPORT. The fields of a command word: a word is its three fields, and the word of a command has the fields
30_encoding.md R100 to R103 give it.
-/

namespace Sys2Proof

/-- A word from its three fields (R100). -/
def wordOf (op sel mbz : Nat) : Word := BitVec.ofNat 8 op ++ BitVec.ofNat 8 sel ++ BitVec.ofNat 16 mbz

theorem wordOf_toNat {op sel mbz : Nat} (ho : op < 256) (hs : sel < 256) (hm : mbz < 65536) :
    (wordOf op sel mbz).toNat = op * 2 ^ 24 + sel * 2 ^ 16 + mbz := by
  simp only [wordOf, BitVec.toNat_append, BitVec.toNat_ofNat]
  rw [Nat.mod_eq_of_lt (by omega), Nat.mod_eq_of_lt (by omega), Nat.mod_eq_of_lt (by omega),
    ← Nat.shiftLeft_add_eq_or_of_lt (by omega), ← Nat.shiftLeft_add_eq_or_of_lt (by omega),
    Nat.shiftLeft_eq, Nat.shiftLeft_eq]
  omega

theorem opcodeField_eq (w : Word) : opcodeField w = w.toNat / 2 ^ 24 := by
  have := w.isLt
  simp only [opcodeField, BitVec.extractLsb'_toNat, Nat.shiftRight_eq_div_pow]
  omega

theorem selField_eq (w : Word) : selField w = w.toNat / 2 ^ 16 % 256 := by
  simp only [selField, BitVec.extractLsb'_toNat, Nat.shiftRight_eq_div_pow]

theorem mbzField_eq (w : Word) : mbzField w = w.toNat % 65536 := by
  simp only [mbzField, BitVec.extractLsb'_toNat, Nat.shiftRight_eq_div_pow]
  omega

/-- A word is its three fields. -/
theorem wordOf_fields (w : Word) : wordOf (opcodeField w) (selField w) (mbzField w) = w := by
  have := w.isLt
  apply BitVec.eq_of_toNat_eq
  rw [opcodeField_eq, selField_eq, mbzField_eq, wordOf_toNat (by omega) (by omega) (by omega)]
  omega

theorem Instr.opcode_lt (i : Instr) : i.opcode < 256 := by cases i <;> simp [Instr.opcode]

theorem encode_eq (i : Instr) : encode i = wordOf i.opcode i.sel 0 := rfl

theorem encode_opcodeField (i : Instr) (h : i.WellFormed = true) : opcodeField (encode i) = i.opcode := by
  have hs : i.sel < 256 := of_decide_eq_true h
  have ho := i.opcode_lt
  rw [opcodeField_eq, encode_eq, wordOf_toNat ho hs (by norm_num)]
  omega

theorem encode_selField (i : Instr) (h : i.WellFormed = true) : selField (encode i) = i.sel := by
  have hs : i.sel < 256 := of_decide_eq_true h
  have ho := i.opcode_lt
  rw [selField_eq, encode_eq, wordOf_toNat ho hs (by norm_num)]
  omega

theorem encode_mbzField (i : Instr) (h : i.WellFormed = true) : mbzField (encode i) = 0 := by
  have hs : i.sel < 256 := of_decide_eq_true h
  have ho := i.opcode_lt
  rw [mbzField_eq, encode_eq, wordOf_toNat ho hs (by norm_num)]
  omega

/-- An OPCODE that has a row is one of the fifteen (R103). -/
theorem opcode_mem {op : Nat} (h : opcodeRow op ≠ none) :
    op ∈ [0x01, 0x02, 0x03, 0x04, 0x05, 0x10, 0x11, 0x20, 0x21, 0x22, 0x23, 0x30, 0x31, 0x32, 0x40] := by
  by_contra hn
  simp only [List.mem_cons, List.not_mem_nil, or_false, not_or] at hn
  obtain ⟨h1, h2, h3, h4, h5, h6, h7, h8, h9, h10, h11, h12, h13, h14, h15⟩ := hn
  apply h
  unfold opcodeRow
  rw [if_neg h1, if_neg h2, if_neg h3, if_neg h4, if_neg h5, if_neg h6, if_neg h7, if_neg h8, if_neg h9,
    if_neg h10, if_neg h11, if_neg h12, if_neg h13, if_neg h14, if_neg h15]

/-- What a row of the opcode map says of the command it gives (R103). -/
theorem opcodeRow_withSel {op : Nat} {f : Nat → Instr} (h : opcodeRow op = some (.withSel f)) (n : Nat) :
    (f n).opcode = op ∧ (f n).sel = n := by
  have hm := opcode_mem (op := op) (by rw [h]; simp)
  simp only [List.mem_cons, List.not_mem_nil, or_false] at hm
  rcases hm with rfl | rfl | rfl | rfl | rfl | rfl | rfl | rfl | rfl | rfl | rfl | rfl | rfl | rfl | rfl <;>
    (cases h; try exact ⟨rfl, rfl⟩)

theorem opcodeRow_plain {op : Nat} {i : Instr} (h : opcodeRow op = some (.plain i)) :
    i.opcode = op ∧ i.sel = 0 := by
  have hm := opcode_mem (op := op) (by rw [h]; simp)
  simp only [List.mem_cons, List.not_mem_nil, or_false] at hm
  rcases hm with rfl | rfl | rfl | rfl | rfl | rfl | rfl | rfl | rfl | rfl | rfl | rfl | rfl | rfl | rfl <;>
    (cases h; try exact ⟨rfl, rfl⟩)

end Sys2Proof
end

