-- ==== Sys2Proof/Laws/PerInstr.lean ====
section
/-!
SUPPORT. The per-instruction family EncodeFields: the word of a well-formed command has the fields
30_encoding.md R100 to R103 give it.
-/

namespace Sys2Proof.Laws.EncodeFields

/-- The word of a well-formed command carries its OPCODE in bits 31:24, its selector in bits 23:16 and zero in
bits 15:0. -/
def Statement (i : Instr) : Prop :=
  i.WellFormed = true →
    opcodeField (encode i) = i.opcode ∧ selField (encode i) = i.sel ∧ mbzField (encode i) = 0

theorem all (i : Instr) : Statement i :=
  fun h => ⟨encode_opcodeField i h, encode_selField i h, encode_mbzField i h⟩

theorem cfg : Statement .cfg := all _
theorem setp (id : Nat) : Statement (.setp id) := all _
theorem getp (id : Nat) : Statement (.getp id) := all _
theorem render : Statement .render := all _
theorem rdstat : Statement .rdstat := all _
theorem dlwr (channel : Nat) : Statement (.dlwr channel) := all _
theorem dlrd (channel : Nat) : Statement (.dlrd channel) := all _
theorem lfosf (osc : Nat) : Statement (.lfosf osc) := all _
theorem lfov (osc : Nat) : Statement (.lfov osc) := all _
theorem lfoq (osc : Nat) : Statement (.lfoq osc) := all _
theorem lfoinc (osc : Nat) : Statement (.lfoinc osc) := all _
theorem rpset (id : Nat) : Statement (.rpset id) := all _
theorem rpfrm (id : Nat) : Statement (.rpfrm id) := all _
theorem rpget (id : Nat) : Statement (.rpget id) := all _
theorem taps : Statement .taps := all _

end Sys2Proof.Laws.EncodeFields
end

