-- ==== Sys2Proof/Laws/Run.lean ====
section
/-!
SUPPORT. Runs of several commands: one step performs the first of them, a run peels off one step, and what n
RPFRM do to a ramp.
-/

namespace Sys2Proof.Machine

/-- A step from a list of commands performs the first, the others still to come (10_state.md R31). -/
theorem step_withCommands (s : State) {i : Instr} (cs : List Instr) (h : decode (encode i) = .ok i) :
    step (s.withCommands (i :: cs)) = exec i (s.withCommands cs) := by
  have e : step (s.withCommands (i :: cs)) = issue (encode i) (s.withCommands cs) := rfl
  rw [e, issue, h]

theorem run_succ {n : Nat} {s t : State} (h : step s = .next t) :
    Host.Core.run Sys2Proof.core (n + 1) s = Host.Core.run Sys2Proof.core n t := by
  have h' : Sys2Proof.core.step s = .next t := h
  simp only [Host.Core.run, h']

/-- k < n steps of a ramp over n frames add its step k times. -/
theorem rpFrame_iterate (t v st : NUM) (n : Word) {k : Nat} (h : k < n.toNat) :
    rpFrame^[k] ⟨v, t, st, n⟩ = ⟨(fun v => NUM.add v st)^[k] v, t, st, n - BitVec.ofNat 32 k⟩ := by
  induction k with
  | zero => simp
  | succ k ih =>
    rw [Function.iterate_succ_apply', ih (by omega), Function.iterate_succ_apply']
    have hn := n.isLt
    have e : (n - BitVec.ofNat 32 k).toNat = n.toNat - k := by
      rw [BitVec.toNat_sub]; simp; omega
    rw [rpFrame_more]
    · simp only [Ramp.mk.injEq, true_and]
      apply BitVec.eq_of_toNat_eq
      rw [BitVec.toNat_sub, e, BitVec.toNat_sub]; simp; omega
    · intro hc
      have := congrArg BitVec.toNat hc
      simp only at this
      rw [e] at this; simp at this; omega
    · intro hc
      have := congrArg BitVec.toNat hc
      simp only at this
      rw [e] at this; simp at this; omega

end Sys2Proof.Machine
end

