-- ==== Sys2Proof/Tests/Slice0.lean ====
section
/-!
SUPPORT. Tests: ill-formed commands refused, words written out from the encoding of 30_encoding.md, one-step
vectors of 95_test_vectors.md, and for each obligation with hypotheses a state and operands that meet them.
-/

namespace Sys2Proof.Tests

set_option Elab.async false

open Sys2Proof.Machine

/-! ## A small block -/

/-- FLANGE_RATE_MULT(i) = i + 1 (the parameters of 95_test_vectors.md). -/
def rateMults : Vector FiniteNum 7 :=
  #v[⟨false, 127, 0#23⟩, ⟨false, 128, 0#23⟩, ⟨false, 128, 0x400000#23⟩, ⟨false, 129, 0#23⟩,
    ⟨false, 129, 0x200000#23⟩, ⟨false, 129, 0x400000#23⟩, ⟨false, 129, 0x600000#23⟩]

/-- Two channels of four frames, sixteen delay words, four events, two chorus taps; SIN at the four quarter
cycles, correctly rounded (95_test_vectors.md section 2.3). -/
def block (v : Variant) : Params where
  VARIANT := v
  FLANGE_TAPS := .five
  FLANGE_RATE_MULT := rateMults
  chorusTapsLess1 := 1
  READ_BIAS := false
  RATE_UPDATE_POLICY := .RETUNE
  BYPASS_ADVANCES_LFO := false
  sinTable :=
    [(0x00000000#32, 0x00000000#32), (0x3FC90FDB#32, 0x3F800000#32), (0x40490FDB#32, 0xB3BBBD2E#32),
     (0x4096CBE4#32, 0xBF800000#32)]
  INIT_RATE := 0#32
  INIT_DEPTH := 0#32
  INIT_DELAY := 0#32
  INIT_DRY := 0#32
  INIT_WET := 0#32
  INIT_ODD90 := 0#32
  maxChannelsLess1 := 1
  maxFramesHwLess1 := 3
  maxDlSamplesLess1 := 15
  MAX_EVENTS := 4

/-- The block after reset. -/
def fresh (v : Variant) : State := State.resetFor (block v)

/-- The block after `CFG 2, 1000.0, 4, 4.0` (SPM = 1.0, N = 9). -/
def ready (v : Variant) : State := configure 2 0x447A0000#32 4 0x40800000#32 (fresh v)

/-- A state with its operand registers written. -/
def withOps (s : State) (a b : Word) (c d : Word := 0#32) : State :=
  { s with OPA := a, OPB := b, OPC := c, OPD := d }

/-- A number read off the next state. -/
def after {α : Type} (o : Host.Outcome State Fault Refusal) (f : State → α) : Option α :=
  match o with
  | .next s => some (f s)
  | .fault _ => none
  | .refused _ => none

/-- Two input channels of four samples: 1, 2, 3, 4 and −1, −2, −3, −4. -/
def input : Memory :=
  [(0, 0x3F800000#32), (1, 0x40000000#32), (2, 0x40400000#32), (3, 0x40800000#32), (4, 0xBF800000#32),
   (5, 0xC0000000#32), (6, 0xC0400000#32), (7, 0xC0800000#32)]

/-- The delay line of channel 0 after writes of 10.0, 20.0, 30.0 (program P4), channel 1 untouched. -/
def p4Lines : List Line :=
  [{ WC := 3, cells := [(0, 0x41200000#32), (1, 0x41A00000#32), (2, 0x41F00000#32)] },
   { WC := 0, cells := [] }]

/-- An oscillator at rest at phase p with increment v. -/
def oscAt (p v : NUM) : Osc := { phase := p, inc := Ramp.still v }

/-! ## Well-formedness -/

theorem test_wf_setp_255 : (Instr.setp 255).WellFormed = true := by decide
theorem test_wf_refuses_setp_256 : (Instr.setp 256).WellFormed = false := by decide
theorem test_wf_refuses_dlwr_256 : (Instr.dlwr 256).WellFormed = false := by decide
theorem test_wf_refuses_lfov_1000 : (Instr.lfov 1000).WellFormed = false := by decide

/-! ## Words written out from R100 and R103: OPCODE, SEL, sixteen zeros -/

theorem test_word_cfg : decode 0b00000001000000000000000000000000#32 = .ok .cfg := by decide
theorem test_word_setp : decode 0b00000010000000110000000000000000#32 = .ok (.setp 3) := by decide
theorem test_word_getp : decode 0b00000011000001100000000000000000#32 = .ok (.getp 6) := by decide
theorem test_word_render : decode 0b00000100000000000000000000000000#32 = .ok .render := by decide
theorem test_word_rdstat : decode 0b00000101000000000000000000000000#32 = .ok .rdstat := by decide
theorem test_word_dlwr : decode 0b00010000000000010000000000000000#32 = .ok (.dlwr 1) := by decide
theorem test_word_dlrd : decode 0b00010001100000000000000000000000#32 = .ok (.dlrd 128) := by decide
theorem test_word_lfosf : decode 0b00100000000000100000000000000000#32 = .ok (.lfosf 2) := by decide
theorem test_word_lfov : decode 0b00100001000000110000000000000000#32 = .ok (.lfov 3) := by decide
theorem test_word_lfoq : decode 0b00100010000001000000000000000000#32 = .ok (.lfoq 4) := by decide
theorem test_word_lfoinc : decode 0b00100011001100010000000000000000#32 = .ok (.lfoinc 49) := by decide
theorem test_word_rpset : decode 0b00110000000001010000000000000000#32 = .ok (.rpset 5) := by decide
theorem test_word_rpfrm : decode 0b00110001000000000000000000000000#32 = .ok (.rpfrm 0) := by decide
theorem test_word_rpget : decode 0b00110010111111110000000000000000#32 = .ok (.rpget 255) := by decide
theorem test_word_taps : decode 0b01000000000000000000000000000000#32 = .ok .taps := by decide

/-- Section 2.1: the illegal words of the table, each with its reason. -/
theorem test_illegal_words :
    decode 0x00000000#32 = .error .unknownOpcode ∧ decode 0x01010000#32 = .error .selNotZero ∧
    decode 0x02000001#32 = .error .mbzNotZero ∧ decode 0x06000000#32 = .error .unknownOpcode ∧
    decode 0x40010000#32 = .error .selNotZero ∧ decode 0xFF000000#32 = .error .unknownOpcode := by decide

theorem test_table_word : decodeTableWord 32 0x23050000 = some (.lfoinc 5) := by decide

/-! ## Arithmetic (00_scope.md R11, R12) -/

/-- 1 + 2^-24 is a tie and goes to the even 1.0; (1 + 2^-23) + 2^-24 is a tie and goes up. -/
theorem test_add_ties : NUM.add 0x3F800000#32 0x33800000#32 = 0x3F800000#32 ∧
    NUM.add 0x3F800001#32 0x33800000#32 = 0x3F800002#32 := by decide +kernel

/-- Half the smallest subnormal is a tie and goes to +0.0; the largest finite value doubled overflows. -/
theorem test_mul_edges : NUM.mul 0x00000001#32 0x3F000000#32 = 0x00000000#32 ∧
    NUM.mul 0x7F7FFFFF#32 0x40000000#32 = 0x7F800000#32 := by decide +kernel

theorem test_div_third : NUM.div 0x3F800000#32 0x40400000#32 = 0x3EAAAAAB#32 := by decide +kernel

/-- R11: x − x is +0.0, and −0.0 + −0.0 is −0.0. -/
theorem test_zero_signs : NUM.sub 0x40400000#32 0x40400000#32 = 0x00000000#32 ∧
    NUM.add 0x80000000#32 0x80000000#32 = 0x80000000#32 := by decide +kernel

/-- Section 2.3: wrap(−0.25), wrap(1.75), wrap(−1e−9). -/
theorem test_wrap : wrap 0xBE800000#32 = 0x3F400000#32 ∧ wrap 0x3FE00000#32 = 0x3F400000#32 ∧
    wrap 0xB089705F#32 = 0x00000000#32 := by decide +kernel

/-- Section 2.2: capacities of (48000.0, 20.0), (1000.0, 4.0), (44100.0, 7.3). -/
theorem test_capacity : capacity 0x41A00000#32 0x473B8000#32 = 1921 ∧
    capacity 0x40800000#32 0x447A0000#32 = 9 ∧ capacity 0x40E9999A#32 0x472C4400#32 = 645 := by
  decide +kernel

/-- Section 2.2: rows of the cubic's table. -/
theorem test_cr : cr 0x3F000000#32 0x00000000#32 0x3F800000#32 0x00000000#32 0x00000000#32 = 0x3F100000#32 ∧
    cr 0x3F400000#32 0x3F800000#32 0x40000000#32 0x40800000#32 0x41000000#32 = 0x40558000#32 ∧
    cr 0x00000000#32 0x3F800000#32 0x80000000#32 0x3F800000#32 0x3F800000#32 = 0x00000000#32 := by
  decide +kernel

/-- R147 (1) and I19: t = ±0.0 and b = −0.0 between a = 1.0 and c = 0.5 give +0.0, and b = 1.0 beside the largest
finite value is returned although R144's 2.0 × a overflows. -/
theorem test_cr_at_zero :
    cr 0x00000000#32 0x3F800000#32 0x80000000#32 0x3F000000#32 0x00000000#32 = 0x00000000#32 ∧
      cr 0x80000000#32 0x3F800000#32 0x80000000#32 0x3F000000#32 0x00000000#32 = 0x00000000#32 ∧
      cr 0x00000000#32 0x7F7FFFFF#32 0x3F800000#32 0x00000000#32 0x00000000#32 = 0x3F800000#32 := by
  decide +kernel

/-- Section 2.5: ten reads of 0.1 have mean one ulp above 0.1. -/
theorem test_mean : NUM.div ((List.replicate 10 0x3DCCCCCD#32).foldl NUM.add NUM.zero) (toNUM 10) =
    0x3DCCCCCE#32 := by decide +kernel

/-! ## One step of each command (95_test_vectors.md section 2) -/

theorem test_cfg_flange_increments :
    after (exec .cfg (withOps { fresh .FLANGE with P := { (fresh .FLANGE).P with RATE := Ramp.still 0x42C80000#32 } }
        1 0x447A0000#32 4 0x40800000#32)) (fun t => t.L.map fun o => o.inc.value) =
      some [0x3DCCCCCD#32, 0x3E4CCCCD#32, 0x3E99999A#32, 0x3ECCCCCD#32, 0x3F000000#32] := by decide +kernel
theorem test_cfg_zero_channels :
    after (exec .cfg (withOps (ready .CHORUS) 0 0x473B8000#32 4 0x41A00000#32))
      (fun t => (t.STATUS.word, t.L, t.lines)) = some (0x10#32, [], []) := by decide +kernel
theorem test_setp_depth :
    after (exec (.setp 1) (withOps (ready .CHORUS) 0x3F000000#32 0)) (fun t => t.P.DEPTH) =
      some (Ramp.still 0x3F000000#32) := by decide +kernel
theorem test_setp_odd90_ignores_the_ramp :
    after (exec (.setp 5) (withOps (ready .CHORUS) 0x3F800000#32 8)) (fun t => t.P.ODD90) =
      some (Ramp.still 0x3F800000#32) := by decide +kernel
theorem test_getp_unknown :
    after (exec (.getp 6) { ready .CHORUS with RES := 7#32 }) (fun t => (t.RES, t.STATUS.word)) =
      some (0#32, 1#32) := by decide +kernel
/-- P1 on two taps: a delay of two samples. -/
theorem test_render_two_sample_delay :
    after (exec .render (withOps { ready .CHORUS with
        IN := input
        P := { (ready .CHORUS).P with WET := Ramp.still 0x3F800000#32, DELAY := Ramp.still 0x40000000#32 } } 4 0))
      (fun t => ((List.range 4).map (t.outSample 1), t.cursor 1)) =
      some ([0#32, 0#32, 0xBF800000#32, 0xC0000000#32], 4) := by decide +kernel
/-- P3: two bypassed frames, then the events of frame 2 and the odd set on channel 1. -/
theorem test_render_flange_events :
    after (exec .render (withOps { ready .FLANGE with
        IN := input
        EVQ := [(0, 2#32), (1, 2#32), (2, 0x40000000#32), (4, 2#32), (5, 1#32), (6, 0x3F000000#32), (8, 2#32),
          (9, 5#32), (10, 0x3F800000#32)]
        P := { (ready .FLANGE).P with WET := Ramp.still 0x3F800000#32 } } 4 3))
      (fun t => ((List.range 4).map (t.outSample 1), t.line 1)) =
      some ([0xBF800000#32, 0xC0000000#32, 0#32, 0#32],
        { WC := 2, cells := [(0, 0xC0400000#32), (1, 0xC0800000#32)] }) := by decide +kernel
theorem test_rdstat :
    after (exec .rdstat { ready .CHORUS with STATUS := ⟨true, false, false, false, false, true⟩ }) (fun t => t.RES) =
      some 0x21#32 := by decide +kernel
theorem test_dlwr_wraps :
    after (exec (.dlwr 0) (withOps { ready .CHORUS with lines := [⟨8, []⟩, ⟨0, []⟩] } 0x40400000#32 0))
      (fun t => t.lines) = some [⟨0, [(8, 0x40400000#32)]⟩, ⟨0, []⟩] := by decide +kernel
theorem test_dlrd_between_samples :
    after (exec (.dlrd 0) (withOps { ready .CHORUS with lines := p4Lines } 0x3FC00000#32 0)) (fun t => t.RES) =
      some 0x41DC0000#32 := by decide +kernel
theorem test_dlrd_past_the_line :
    after (exec (.dlrd 0) (withOps (ready .CHORUS) 0x41100000#32 0)) (fun t => t.STATUS.word) =
      some 0x21#32 := by decide +kernel
theorem test_lfosf_ramp :
    after (exec (.lfosf 1) (withOps { ready .CHORUS with fmt := { (ready .CHORUS).fmt with FS := 0x473B8000#32 } }
        0x45960000#32 4)) (fun t => (t.osc 1).inc) =
      some ⟨0#32, 0x3DCCCCCD#32, 0x3CCCCCCD#32, 4#32⟩ := by decide +kernel
theorem test_lfov_quarter :
    after (exec (.lfov 0) { ready .CHORUS with L := [oscAt 0x3E800000#32 0, oscAt 0 0] }) (fun t => t.RES) =
      some 0x3F800000#32 := by decide +kernel
theorem test_lfoq_wraps :
    after (exec (.lfoq 1) { ready .CHORUS with L := [oscAt 0 0, oscAt 0x3F400000#32 0] }) (fun t => t.RES) =
      some 0x00000000#32 := by decide +kernel
theorem test_lfoinc_wraps :
    after (exec (.lfoinc 1) { ready .CHORUS with L := [oscAt 0 0, oscAt 0x3F400000#32 0x3E800000#32] })
      (fun t => (t.osc 1).phase) = some 0x00000000#32 := by decide +kernel
theorem test_rpset_thirds :
    after (exec (.rpset 3) (withOps (fresh .CHORUS) 0x3F800000#32 3)) (fun t => t.P.DRY) =
      some ⟨0#32, 0x3F800000#32, 0x3EAAAAAB#32, 3#32⟩ := by decide +kernel
theorem test_rpset_unknown :
    after (exec (.rpset 6) (withOps (fresh .CHORUS) 0x3F800000#32 0)) (fun t => t.STATUS.word) =
      some 0x8#32 := by decide +kernel
theorem test_rpfrm_second_third :
    after (exec (.rpfrm 3) { fresh .CHORUS with
        P := { (fresh .CHORUS).P with DRY := ⟨0x3EAAAAAB#32, 0x3F800000#32, 0x3EAAAAAB#32, 2#32⟩ } })
      (fun t => t.RES) = some 0x3F2AAAAB#32 := by decide +kernel
theorem test_rpget_before_the_step :
    after (exec (.rpget 4) { fresh .CHORUS with
        P := { (fresh .CHORUS).P with WET := ⟨0#32, 0x3F800000#32, 0x3F800000#32, 1#32⟩ } })
      (fun t => t.RES) = some 0x00000000#32 := by decide +kernel
/-- Section 2.5: FLANGE, delay 2.0, depth 1.0: the displacement is cut to 1.999. -/
theorem test_taps_flange_clamp :
    after (exec .taps (withOps { ready .FLANGE with L := List.replicate 5 (oscAt 0x3E800000#32 0) }
        0x40000000#32 0x3F800000#32)) (fun t => t.TAPE.read 0) =
      some 0x407FEF9E#32 := by decide +kernel
theorem test_taps_chorus_quadrature :
    after (exec .taps (withOps (ready .CHORUS) 0x40000000#32 0x3F000000#32 1))
      (fun t => (t.RES, t.TAPE.read 0, t.TAPO.read 0)) =
      some (0#32, 0x40000000#32, 0x40400000#32) := by decide +kernel

/-! ## The machine after reset, and the order of the checks -/

/-- Section 2.8: RENDER right after reset sets E_NOTCFG and goes on. -/
theorem test_render_after_reset :
    after (step (State.reset.withFetchWord 32 0x04000000)) (fun t => t.STATUS.word) = some 0x4#32 := by
  decide +kernel
/-- Section 2.7: DLWR 5 without a format sets E_NOTCFG only. -/
theorem test_notcfg_before_sel :
    after (step ((fresh .CHORUS).withFetchWord 32 0x10050000)) (fun t => t.STATUS.word) = some 0x4#32 := by
  decide +kernel
/-- Section 2.1: an illegal word sets E_ILL. -/
theorem test_illegal_sets_e_ill :
    after (step ((ready .CHORUS).withFetchWord 32 0x01010000)) (fun t => t.STATUS.word) = some 0x3#32 := by
  decide +kernel

/-! ## Witnesses: for each obligation with hypotheses, a state and operands that meet them together, clause by
clause at the values where the clauses begin and end -/

/-- The block of `ready` with READ_BIAS, policy and bypass policy at their other values. -/
def otherPolicies : Params :=
  { block .FLANGE with READ_BIAS := true, RATE_UPDATE_POLICY := .RECREATE, BYPASS_ADVANCES_LFO := true }

/-- A parameter set that is legal, at the edges of 00_scope.md R7. -/
def edgeSet (flange chorus channels : Nat) (m : NUM) : ParamSet where
  FLANGE_TAP_COUNT := flange
  CHORUS_TAP_COUNT := chorus
  MAX_CHANNELS := channels
  MAX_FRAMES_HW := 1
  MAX_DL_SAMPLES := 1
  FLANGE_RATE_MULT := Vector.replicate 7 m

/-- A ready block with two events, DELAY 2.0 at frame 0 and DEPTH 0.5 at frame 1. -/
def withEvents (s : State) : State :=
  { s with EVQ := [(1, 2#32), (2, 0x40000000#32), (4, 1#32), (5, 1#32), (6, 0x3F000000#32)] }

/-- A CHORUS block about to render F frames with the two events. -/
def rendering (F : Word) : State := withOps { withEvents (ready .CHORUS) with IN := input } F 2

/-- A CHORUS block about to render one frame at delay 2.0. -/
def oneFrame : State :=
  withOps { ready .CHORUS with P := { (ready .CHORUS).P with DELAY := Ramp.still 0x40000000#32 } } 1 0

/-- A FLANGE block about to render one frame, its delay one step from 0.0. -/
def landing (advances : Bool) : State :=
  withOps { ready .FLANGE with
    params := { block .FLANGE with BYPASS_ADVANCES_LFO := advances }
    P := { (ready .FLANGE).P with DELAY := ⟨0x3F800000#32, 0x00000000#32, 0xBF800000#32, 1#32⟩ } } 1 0

/-- The input of frames 1 and 2 moved up by one frame. -/
def laterInput : Memory := [(0, 0x40000000#32), (1, 0x40400000#32), (4, 0xC0000000#32), (5, 0xC0400000#32)]

/-- The event of frame 1 moved up by one frame. -/
def laterEvents : Memory := [(1, 1#32), (2, 0x3F000000#32)]

/-- Oscillators at phase 0.0 with increments 1 and 2^-24. -/
def cycling : State := { ready .CHORUS with L := [oscAt 0#32 0x3F800000#32, oscAt 0#32 0x33800000#32] }

theorem test_witness_DecodeOfEncode :
    (Instr.setp 0).WellFormed = true ∧ (Instr.setp 255).WellFormed = true ∧ Instr.taps.WellFormed = true := by
  decide

theorem test_witness_LegalWord : decode 0x11FF0000#32 = .ok (.dlrd 255) := by decide

/-- One word for each reason of R107, and one that is legal. -/
theorem test_witness_IllegalWords :
    (∀ i, decode 0x41000000#32 ≠ .ok i) ∧ (∀ i, decode 0x02000001#32 ≠ .ok i) ∧
      (∀ i, decode 0x40010000#32 ≠ .ok i) ∧ decode 0x40000000#32 = .ok .taps := by
  have h1 : decode 0x41000000#32 = .error .unknownOpcode := by decide
  have h2 : decode 0x02000001#32 = .error .mbzNotZero := by decide
  have h3 : decode 0x40010000#32 = .error .selNotZero := by decide
  exact ⟨by simp [h1], by simp [h2], by simp [h3], by decide⟩

theorem test_witness_StepPerforms : decode 0x05000000#32 = .ok .rdstat := by decide

/-- IN and OUT have eight words here, EVQ sixteen. -/
theorem test_witness_HostWrites :
    7 < (fresh .CHORUS).params.MAX_CHANNELS * (fresh .CHORUS).params.MAX_FRAMES_HW ∧
      (fresh .CHORUS).params.MAX_CHANNELS * (fresh .CHORUS).params.MAX_FRAMES_HW ≤ 8 ∧
      15 < 4 * (fresh .CHORUS).params.MAX_EVENTS ∧ 4 * (fresh .CHORUS).params.MAX_EVENTS ≤ 16 := by decide

/-- The last host-readable word of IN and of TAPE, and the first index past each. -/
theorem test_witness_HostReads :
    hostReadWord .IN 7 (rendering 1) = some 0xC0800000#32 ∧ hostReadWord .IN 8 (rendering 1) = none ∧
      hostReadWord .TAPE 49 { fresh .CHORUS with TAPE := [(49, 5#32)] } = some 5#32 ∧
      hostReadWord .TAPE 50 (fresh .CHORUS) = none := by decide

theorem test_witness_ResetStateWaits : (ready .CHORUS).inputs = [] := by decide

/-- Sets at the edges of R7 are accepted, and one past each edge is refused. -/
theorem test_witness_IllegalParameterSets :
    (Params.build (block .FLANGE) (edgeSet 5 1 1 0xFF7FFFFF#32)).isSome = true ∧
      (Params.build (block .CHORUS) (edgeSet 7 50 256 0x7F7FFFFF#32)).isSome = true ∧
      (Params.build (block .FLANGE) { edgeSet 5 1 1 0#32 with
        FLANGE_RATE_MULT := #v[0#32, 0#32, 0#32, 0#32, 0#32, 0x7F800000#32, 0#32] }).isSome = true ∧
      Params.build (block .FLANGE) (edgeSet 6 1 1 0#32) = none ∧
      Params.build (block .FLANGE) (edgeSet 5 0 1 0#32) = none ∧
      Params.build (block .FLANGE) (edgeSet 5 51 1 0#32) = none ∧
      Params.build (block .FLANGE) (edgeSet 5 1 257 0#32) = none ∧
      Params.build (block .FLANGE) (edgeSet 5 1 1 0x7F800000#32) = none := by decide +kernel

/-- Largest finite and smallest subnormal, a nonzero divisor, and sums on both sides of overflow. -/
theorem test_witness_Arithmetic :
    NUM.isFinite 0x7F7FFFFF#32 = true ∧ NUM.isFinite 0x00000001#32 = true ∧ NUM.isZero 0x00000001#32 = false ∧
      NUM.isFinite (NUM.add 0x7F7FFFFF#32 0x7F7FFFFF#32) = false ∧
      NUM.isFinite (NUM.add 0x7F7FFFFF#32 0x00000001#32) = true := by decide +kernel

/-- R11 by hand, an operand pair for each clause: 0.0 × −1.0, 1.0/−∞; 3.0 + −3.0 and −0.0 − +0.0; 1.0/−0.0; with
an infinity, ∞ + 1.0, −1.0 − ∞, ∞ + ∞, ∞ − −∞, ∞ × −1.0; the integers 2^24 and 2^24 + 1. -/
theorem test_witness_Signs :
    NUM.mul 0x00000000#32 0xBF800000#32 = 0x80000000#32 ∧ NUM.div 0x3F800000#32 0xFF800000#32 = 0x80000000#32 ∧
      NUM.add 0x40400000#32 0xC0400000#32 = 0x00000000#32 ∧ NUM.sub 0x80000000#32 0x00000000#32 = 0x80000000#32 ∧
      NUM.div 0x3F800000#32 0x80000000#32 = 0xFF800000#32 ∧ NUM.add 0x7F800000#32 0x3F800000#32 = 0x7F800000#32 ∧
      NUM.sub 0xBF800000#32 0x7F800000#32 = 0xFF800000#32 ∧ NUM.add 0x7F800000#32 0x7F800000#32 = 0x7F800000#32 ∧
      NUM.sub 0x7F800000#32 0xFF800000#32 = 0x7F800000#32 ∧ NUM.mul 0x7F800000#32 0xBF800000#32 = 0xFF800000#32 ∧
      toNUM (2 ^ 24) = 0x4B800000#32 ∧ toNUM (-(2 ^ 24) - 1) = 0xCB800000#32 := by decide +kernel

theorem test_witness_NaN :
    NUM.isNaN 0x7F800001#32 = true ∧ NUM.isInf 0x7F800000#32 = true ∧ NUM.isInf 0xFF800000#32 = true ∧
      NUM.neg 0x7F800000#32 ≠ NUM.neg 0xFF800000#32 ∧ NUM.isZero 0x80000000#32 = true := by decide

theorem test_witness_Comparisons : NUM.isFinite 0x80000000#32 = true ∧ NUM.isFinite 0x7F7FFFFF#32 = true := by
  decide

/-- −1e−9, whose wrap is the 1.0 made 0.0, and 1.75, where wrap is the exact fraction. -/
theorem test_witness_Wrap : NUM.isFinite 0xB089705F#32 = true ∧ NUM.isFinite 0x3FE00000#32 = true ∧
    0 ≤ NUM.units 0x3FE00000#32 ∧ NUM.eq (NUM.sub 0xB089705F#32 (toNUM (-1))) 0x3F800000#32 = true := by
  decide +kernel

theorem test_witness_Capacity :
    NUM.isFinite 0x40800000#32 = true ∧ NUM.isFinite 0x447A0000#32 = true ∧
      NUM.lt NUM.zero 0x40800000#32 = true ∧ NUM.lt NUM.zero 0x447A0000#32 = true := by decide

/-- The first and the last cursor of nine, and the slots R141 and R146 give offsets −1, 0 and 8. -/
theorem test_witness_Slot : 0 < 9 ∧ 8 < 9 ∧ slot (block .CHORUS) 9 0 0 = 0 ∧
    slot (block .CHORUS) 9 0 8 = 1 ∧ slot (block .CHORUS) 9 8 (-1) = 0 := by decide

/-- Each clause: t = 0.0 among finite points with b = −0.0 and with b = 1.0 and a finite inner sum (a = 0.0,
c = 3.0, d = 0.0); the smallest t; a point that is infinite. -/
theorem test_witness_Cubic :
    NUM.isZero 0x00000000#32 = true ∧ NUM.isFinite 0x80000000#32 = true ∧ NUM.isFinite 0x3F800000#32 = true ∧
      NUM.isFinite 0x40400000#32 = true ∧ NUM.isZero 0x00000001#32 = false ∧ NUM.isFinite 0x7F800000#32 = false ∧
      NUM.isFinite (NUM.add (NUM.sub 0x40400000#32 0#32) (NUM.mul 0#32 (NUM.add
        (NUM.sub (NUM.add (NUM.sub (NUM.mul 0x40000000#32 0#32) (NUM.mul 0x40A00000#32 0x3F800000#32))
          (NUM.mul 0x40800000#32 0x40400000#32)) 0#32)
        (NUM.mul 0#32 (NUM.add (NUM.mul 0x40400000#32 (NUM.sub 0x3F800000#32 0x40400000#32))
          (NUM.sub 0#32 0#32)))))) = true := by decide +kernel

/-- Operands at the bounds of R261 are valid (N = 9 of 16 words), and one past a bound is not. -/
theorem test_witness_Cfg :
    cfgValid (block .CHORUS) 1 0x447A0000#32 1 0x40800000#32 = true ∧
      cfgValid (block .CHORUS) 2 0x447A0000#32 4 0x40F00000#32 = true ∧
      cfgValid (block .CHORUS) 0 0x447A0000#32 1 0x40800000#32 = false ∧
      cfgValid (block .CHORUS) 3 0x447A0000#32 1 0x40800000#32 = false ∧
      cfgValid (block .CHORUS) 2 0x80000000#32 4 0x40800000#32 = false ∧
      cfgValid (block .CHORUS) 2 0x447A0000#32 5 0x40800000#32 = false ∧
      cfgValid (block .CHORUS) 2 0x447A0000#32 4 0x7F800000#32 = false ∧
      cfgValid (block .CHORUS) 2 0x447A0000#32 4 0x41000000#32 = false := by decide +kernel

/-- Without and with a format; both update policies; the first unknown id is 6. -/
theorem test_witness_Setp :
    (fresh .FLANGE).STATUS.CFGD = false ∧ (ready .FLANGE).STATUS.CFGD = true ∧
      (ready .FLANGE).params.RATE_UPDATE_POLICY = .RETUNE ∧ otherPolicies.RATE_UPDATE_POLICY = .RECREATE ∧
      4 < (ready .FLANGE).params.T ∧ ParamId.ofNat? 5 = some .ODD90 ∧ ParamId.ofNat? 6 = none := by
  decide +kernel

theorem test_witness_ready :
    (fresh .FLANGE).Inv ∧ (fresh .CHORUS).Inv ∧ (ready .FLANGE).Inv ∧ (ready .CHORUS).Inv ∧
      (fresh .CHORUS).STATUS.CFGD = false ∧ (ready .FLANGE).STATUS.CFGD = true ∧
      (ready .CHORUS).STATUS.CFGD = true := by
  refine ⟨⟨?_, ?_⟩, ⟨?_, ?_⟩, ⟨?_, ?_⟩, ⟨?_, ?_⟩, ?_⟩ <;> decide +kernel

/-- Channels 0 and 1 exist, 2 does not (DLWR, DLRD). -/
theorem test_witness_Dlwr : 1 < (ready .CHORUS).fmt.C ∧ (ready .CHORUS).fmt.C ≤ 2 := by decide +kernel

/-- Offsets −0.0 and N − 1 = 8.0 are inside, −2^-149 and the binary32 after 8.0 are not. -/
theorem test_witness_Dlrd :
    offsetInRange 9 0x80000000#32 = true ∧ offsetInRange 9 0x41000000#32 = true ∧
      offsetInRange 9 0x80000001#32 = false ∧ offsetInRange 9 0x41000001#32 = false := by decide +kernel

/-- Oscillators 0 and 1 exist, 2 does not (LFOSF, LFOV, LFOQ, LFOINC). -/
theorem test_witness_Lfo : 1 < (ready .CHORUS).params.T ∧ (ready .CHORUS).params.T ≤ 2 := by decide +kernel

/-- A state LFOV can answer from as LFOQ does at phase 0.75. -/
theorem test_witness_Lfoq :
    (({ ready .CHORUS with L := [oscAt 0x00000000#32 0, oscAt 0 0] } : State).osc 0).phase =
      wrap (NUM.add (({ ready .CHORUS with L := [oscAt 0x3F400000#32 0, oscAt 0 0] } : State).osc 0).phase
        0x3E800000#32) := by decide +kernel

/-- RPSET, RPFRM, RPGET: a parameter at rest, one step from its target, and two. -/
theorem test_witness_Rpfrm :
    (Ramp.still 0#32).remaining = 0#32 ∧ (rpSet (Ramp.still 0#32) 0x3F800000#32 1#32).remaining.toNat = 1 ∧
      2 ≤ (rpSet (Ramp.still 0#32) 0x3F800000#32 2#32).remaining.toNat ∧ 5 < 6 := by decide +kernel

/-- TAPS bypasses at delay −0.0 on FLANGE, and does not on CHORUS. -/
theorem test_witness_Taps :
    tapBypass (block .FLANGE) 0x80000000#32 0x3F800000#32 = true ∧
      tapBypass (block .FLANGE) 0x3F800000#32 0x3F800000#32 = false ∧
      tapBypass (block .CHORUS) 0#32 0#32 = false := by decide

/-- F = MAXF is in contract and F = MAXF + 1 is not; K = MAX_EVENTS + 1 is not; the events of `withEvents` are
sorted, in the other order they would not be. -/
theorem test_witness_RenderContract :
    renderInContract (ready .CHORUS) 4 4 = true ∧ renderInContract (ready .CHORUS) 5 0 = false ∧
      renderInContract (ready .CHORUS) 0 5 = false ∧ renderInContract (withEvents (ready .CHORUS)) 2 2 = true ∧
      renderInContract { ready .CHORUS with EVQ := [(0, 1#32)] } 2 2 = false := by decide +kernel

/-- The premises of RenderInContractCompletes and RenderWritesTheInputIntoTheLines, at F = MAXF with two
events. -/
theorem test_witness_RenderInContract :
    (rendering 4).Inv ∧ (rendering 4).STATUS.CFGD = true ∧ (rendering 4).params.VARIANT = .CHORUS ∧
      (rendering 4).OPA.toNat ≤ (rendering 4).fmt.MAXF ∧
      (rendering 4).OPB.toNat ≤ (rendering 4).params.MAX_EVENTS ∧
      renderInContract (rendering 4) (rendering 4).OPA.toNat (rendering 4).OPB.toNat = true ∧
      (∀ k, 1 ≤ k → k < 2 →
        ((rendering 4).EVQ.read (4 * (k - 1))).toNat ≤ ((rendering 4).EVQ.read (4 * k)).toNat) ∧
      ∀ k, k < 2 → (rendering 4).EVQ.read (4 * k + 1) ≠ 0#32 :=
  ⟨⟨by decide +kernel, by decide +kernel⟩, by decide +kernel, by decide +kernel, by decide +kernel,
    by decide +kernel, by decide +kernel, ((renderInContract_iff (rendering 4) 2 2).1 (by decide +kernel)).2.2,
    by decide +kernel⟩

/-- No events, and two. -/
theorem test_witness_RenderOfNoFrames :
    (rendering 0).STATUS.CFGD = true ∧ (rendering 0).OPA = 0#32 ∧ (rendering 0).OPB.toNat = 2 ∧
      renderInContract (rendering 0) 0 2 = true ∧ (withOps (ready .CHORUS) 0 0).STATUS.CFGD = true ∧
      (withOps (ready .CHORUS) 0 0).OPA = 0#32 ∧ renderInContract (withOps (ready .CHORUS) 0 0) 0 0 = true := by
  decide +kernel

/-- R272 by hand: DELAY is set to 2.0 and DEPTH to 0.5 by the two events of a RENDER of no frames. -/
theorem test_render_no_frames :
    after (exec .render (rendering 0)) (fun t => (t.P.DELAY.value, t.P.DEPTH.value)) =
      some (0x40000000#32, 0x3F000000#32) := by decide +kernel

/-- Two events, the first at frame 0 of three frames, or of no frames. -/
theorem test_witness_DueEvent :
    (rendering 3).STATUS.CFGD = true ∧ (rendering 3).OPB.toNat = 1 + 1 ∧
      renderInContract (rendering 3) (rendering 3).OPA.toNat (1 + 1) = true ∧
      (rendering 3).EVQ.read 0 = 0#32 ∧ (rendering 0).OPA = 0#32 ∧
      ∀ j, j < 4 * 1 → Memory.read [(0, 1#32), (1, 1#32), (2, 0x3F000000#32)] j =
        (rendering 3).EVQ.read (4 + j) := by decide +kernel

/-- The second event at frame 1 of one frame, just past the last. -/
theorem test_witness_LateEvent :
    (rendering 1).STATUS.CFGD = true ∧ (rendering 1).OPB.toNat = 1 + 1 ∧
      renderInContract (rendering 1) (rendering 1).OPA.toNat (1 + 1) = true ∧
      (rendering 1).OPA.toNat ≤ ((rendering 1).EVQ.read (4 * 1)).toNat := by decide +kernel

/-- Delay at rest at 0.0, and depth at rest at −0.0. -/
theorem test_witness_Bypass :
    (withOps (ready .FLANGE) 4 0).Inv ∧ (withOps (ready .FLANGE) 4 0).STATUS.CFGD = true ∧
      (ready .FLANGE).params.VARIANT = .FLANGE ∧
      (withOps (ready .FLANGE) 4 0).OPA.toNat ≤ (ready .FLANGE).fmt.MAXF ∧
      (withOps (ready .FLANGE) 4 0).OPB = 0#32 ∧ (ready .FLANGE).P.DELAY.remaining = 0#32 ∧
      NUM.eq (ready .FLANGE).P.DELAY.value NUM.zero = true ∧
      (Ramp.still 0x80000000#32).remaining = 0#32 ∧
      NUM.eq (Ramp.still 0x80000000#32).value NUM.zero = true :=
  ⟨⟨by decide +kernel, by decide +kernel⟩, by decide +kernel⟩

/-- A FLANGE frame in which the delay's ramp reaches 0.0 by its last step, under both bypass policies. -/
theorem test_witness_OneBypassedFrame (b : Bool) :
    (landing b).Inv ∧ (landing b).STATUS.CFGD = true ∧ (landing b).OPA = 1#32 ∧ (landing b).OPB = 0#32 ∧
      (landing b).params.VARIANT = .FLANGE ∧ NUM.eq (landing b).P.DELAY.value NUM.zero = false ∧
      NUM.eq (rpFrame (landing b).P.DELAY).value NUM.zero = true ∧
      (landing b).params.BYPASS_ADVANCES_LFO = b := by
  cases b <;> exact ⟨⟨by decide +kernel, by decide +kernel⟩, by decide +kernel⟩

/-- One CHORUS frame at delay 2.0: both taps of both sets are 2.0, inside the line. -/
theorem test_witness_OneFrame_taps :
    (List.range oneFrame.params.T).map
          (evenTap oneFrame (rpFrame oneFrame.P.DELAY).value (rpFrame oneFrame.P.DEPTH).value) ++
        (List.range oneFrame.params.T).map
          (oddTap oneFrame (rpFrame oneFrame.P.DELAY).value (rpFrame oneFrame.P.DEPTH).value
            (NUM.le 0x3F000000#32 (rpFrame oneFrame.P.ODD90).value)) =
      List.replicate 4 0x40000000#32 := by decide +kernel

theorem test_witness_OneFrame :
    oneFrame.Inv ∧ oneFrame.STATUS.CFGD = true ∧ oneFrame.OPA = 1#32 ∧ oneFrame.OPB = 0#32 ∧
      tapBypass oneFrame.params (rpFrame oneFrame.P.DELAY).value (rpFrame oneFrame.P.DEPTH).value = false ∧
      oneFrame.fmt.N = 9 ∧ offsetInRange 9 0x40000000#32 = true ∧ offsetInRange 9 0x41080000#32 = false :=
  ⟨⟨by decide +kernel, by decide +kernel⟩, by decide +kernel⟩

/-- R314: taps at 8.5, past N − 1, set E_RANGE, and the input is written all the same. -/
theorem test_render_out_of_range_tap :
    after (exec .render { oneFrame with
        IN := input
        P := { oneFrame.P with DELAY := Ramp.still 0x41080000#32 } }) (fun t => (t.STATUS.word, t.lineWord 1 0)) =
      some (0x21#32, 0xBF800000#32) := by decide +kernel

/-- Three frames with events at 0 and 1, cut after frame 0. -/
theorem test_witness_Splits :
    (rendering 3).Inv ∧ (rendering 3).STATUS.CFGD = true ∧ (rendering 3).OPA.toNat = 1 + 2 ∧
      (rendering 3).OPB.toNat = 1 + 1 ∧ renderInContract (rendering 3) (1 + 2) (1 + 1) = true ∧
      (∀ k, k < 1 → eventOFS (rendering 3) k < 1) ∧
      (∀ k, k < 1 + 1 → 1 ≤ k → 1 ≤ eventOFS (rendering 3) k ∧ eventOFS (rendering 3) k < 1 + 2) ∧
      (∀ c, c < (rendering 3).fmt.C → ∀ f, f < 2 →
        laterInput.read (c * (rendering 3).params.MAX_FRAMES_HW + f) = (rendering 3).inSample c (1 + f)) ∧
      ∀ k, k < 1 → (laterEvents.read (4 * k)).toNat = eventOFS (rendering 3) (1 + k) - 1 ∧
        laterEvents.read (4 * k + 1) = (rendering 3).EVQ.read (4 * (1 + k) + 1) ∧
        laterEvents.read (4 * k + 2) = (rendering 3).EVQ.read (4 * (1 + k) + 2) ∧
        laterEvents.read (4 * k + 3) = (rendering 3).EVQ.read (4 * (1 + k) + 3) :=
  ⟨⟨by decide +kernel, by decide +kernel⟩, by decide +kernel⟩

/-- The event at frame 1 (K' = 1, f0 = 1) is the only one after the first. -/
theorem test_witness_EventsDoNotReach :
    (rendering 3).Inv ∧ (rendering 3).STATUS.CFGD = true ∧
      renderInContract (rendering 3) (rendering 3).OPA.toNat (rendering 3).OPB.toNat = true ∧
      1 ≤ (rendering 3).OPB.toNat ∧
      ∀ k, k < (rendering 3).OPB.toNat → 1 ≤ k → 1 ≤ eventOFS (rendering 3) k :=
  ⟨⟨by decide +kernel, by decide +kernel⟩, by decide +kernel⟩

/-- A command of the state without a format, and RENDER with one, answer next states (NoCommandReadsOut,
CfgdSaysTheLastCfgWasValid, EachErrorBitIsSetExactlyWhen, EachStateElementHasItsWriters). -/
theorem test_witness_Next :
    (∃ t, exec .render (fresh .CHORUS) = .next t) ∧ (∃ t, exec .cfg (ready .CHORUS) = .next t) ∧
      (∃ t, exec .render (rendering 4) = .next t) :=
  ⟨⟨_, rfl⟩, ⟨_, rfl⟩, ⟨_, rfl⟩⟩

/-- DLRD of channel 1 in a line of nine words: at N − 1 = 8.0 E_RANGE stays 0, at the next NUM it is set, and
for the channel 2 that is absent it stays 0. -/
theorem test_witness_ERange :
    after (exec (.dlrd 1) (withOps (ready .CHORUS) 0x41000000#32 0)) (fun t => t.STATUS.E_RANGE) = some false ∧
      after (exec (.dlrd 1) (withOps (ready .CHORUS) 0x41000001#32 0)) (fun t => t.STATUS.E_RANGE) = some true ∧
      after (exec (.dlrd 2) (withOps (ready .CHORUS) 0x41000001#32 0)) (fun t => t.STATUS.E_RANGE) =
        some false := by decide +kernel

/-- A step from a state with a sticky bit set, whose access to come is no reset. -/
theorem test_witness_Sticky :
    let s := { fresh .CHORUS with
      STATUS := ⟨false, false, true, false, false, false⟩, inputs := [.writeReg .CMD 0x05000000#32] }
    (∃ t, step s = .next t) ∧ (∀ rest, s.inputs ≠ .reset :: rest) ∧ s.STATUS.has .E_NOTCFG = true :=
  ⟨⟨_, rfl⟩, fun _ h => HostAccess.noConfusion (List.cons.inj h).1, rfl⟩

/-- TAPS without a format sets E_NOTCFG anew. -/
theorem test_witness_OneError :
    Err.E_NOTCFG ≠ .E_RANGE ∧ (fresh .CHORUS).STATUS.has .E_NOTCFG = false ∧
      after (exec .taps (fresh .CHORUS)) (fun t => t.STATUS.has .E_NOTCFG) = some true := by decide +kernel

theorem test_witness_Ramps : 1 ≤ (withOps (fresh .CHORUS) 0x3F800000#32 1).OPB.toNat ∧
    1 < (withOps (fresh .CHORUS) 0x3F800000#32 2).OPB.toNat := by decide

/-- The increments 1 (j = 0) and 2^-24 (j = 24) at phase 0.0. -/
theorem test_witness_FullCycle :
    cycling.Inv ∧ cycling.STATUS.CFGD = true ∧ 1 < cycling.params.T ∧ (cycling.osc 1).phase = 0#32 ∧
      (cycling.osc 0).inc.remaining = 0#32 ∧ (cycling.osc 1).inc.remaining = 0#32 ∧
      (cycling.osc 0).inc.value = BitVec.ofNat 32 ((127 - 0) * 2 ^ 23) ∧
      (cycling.osc 1).inc.value = BitVec.ofNat 32 ((127 - 24) * 2 ^ 23) :=
  ⟨⟨by decide +kernel, by decide +kernel⟩, by decide +kernel⟩

/-- −0.0 and the largest finite value, written to a line that holds finite samples. -/
theorem test_witness_WrittenSample :
    (withOps { ready .CHORUS with lines := p4Lines } 0x80000000#32 0).Inv ∧
      ({ ready .CHORUS with lines := p4Lines } : State).STATUS.CFGD = true ∧ 0 < (ready .CHORUS).fmt.C ∧
      (∀ j, j < 9 → NUM.isFinite (({ ready .CHORUS with lines := p4Lines } : State).lineWord 0 j) = true) ∧
      (ready .CHORUS).fmt.N = 9 ∧ NUM.isFinite 0x80000000#32 = true ∧ NUM.isFinite 0x7F7FFFFF#32 = true :=
  ⟨⟨by decide +kernel, by decide +kernel⟩, by decide +kernel⟩

theorem test_witness_ReadsAfterCfg :
    let s := withOps (fresh .CHORUS) 2 0x447A0000#32 4 0x40800000#32
    cfgValid s.params s.OPA.toNat s.OPB s.OPC.toNat s.OPD = true ∧
      after (exec .cfg s) (fun t => decide (1 < t.fmt.C) && offsetInRange t.fmt.N 0x41000000#32) = some true := by
  decide +kernel

/-- A sound state with settled ramps and phases, and a step of it. -/
theorem test_witness_Invariants :
    (rendering 4).Inv ∧ (rendering 4).Settled ∧
      ∃ t, step { rendering 4 with inputs := [issueOf .render] } = .next t :=
  ⟨⟨by decide +kernel, by decide +kernel⟩, ⟨fun _ _ => by decide +kernel, fun _ => by decide +kernel⟩, ⟨_, rfl⟩⟩

end Sys2Proof.Tests
end

section
/-!
PROOFS, 00_scope.md R11. The one rounding function returns the binary32 value nearest to any exact value, ties to
even, and each operation on finite operands is one such rounding.
-/

namespace Sys2Proof.Machine

/-! ## Real values and the rounding of an exact value -/

theorem NUM.real_mul_units (x : NUM) :
    NUM.real x * 2 ^ 149 = if NUM.neg x then -(magOf (NUM.magBits x) : ℚ) else (magOf (NUM.magBits x) : ℚ) := by
  rw [NUM.real, div_mul_cancel₀ _ (by positivity), NUM.units_eq]
  split <;> push_cast <;> rfl

theorem NUM.abs_real_mul_units (x : NUM) : |NUM.real x| * 2 ^ 149 = magOf (NUM.magBits x) := by
  have h := congrArg abs (NUM.real_mul_units x)
  rw [abs_mul, abs_of_pos (a := (2 : ℚ) ^ 149) (by positivity)] at h
  rw [h]
  split <;> simp

theorem NUM.real_eq_zero (x : NUM) : NUM.real x = 0 ↔ NUM.isZero x = true := by
  rw [← NUM.units_eq_zero, NUM.real, div_eq_zero_iff]
  simp

/-- Below infinity the cut of `roundBits` does nothing. -/
theorem NUM.roundBits_of_lt {num den : Nat} (h : NUM.roundBits num den < 0x7F800000) :
    NUM.roundBits num den = roundScale num den * 2 ^ 23 + roundSig num den := by
  rw [NUM.roundBits_eq] at h ⊢
  omega

theorem NUM.roundBits_zero {den : Nat} (hd : 0 < den) : NUM.roundBits 0 den = 0 := by
  have h := NUM.roundBits_exact (b := 0) (by norm_num) hd
  rwa [magOf_zero, zero_mul] at h

/-- An exact zero is packed as rounding would return it. -/
theorem NUM.pack_zero_eq_round (neg : Bool) : NUM.pack neg 0 = NUM.round neg 0 1 := by
  rw [NUM.round, NUM.roundBits_zero one_pos]

section Round

/-! The exact value `e` is ± num/den units of 2^-149, and a rounding of it has the sign `neg`. -/

variable {neg : Bool} {num den : Nat} {e : ℚ} (hd : 0 < den)
  (he : e * 2 ^ 149 * den = if neg then -(num : ℚ) else num)

include he in
theorem abs_exact_eq : |e| * 2 ^ 149 * den = num := by
  have h := congrArg abs he
  rw [abs_mul, abs_mul, abs_of_pos (a := (2 : ℚ) ^ 149) (by positivity), Nat.abs_cast] at h
  rw [h]
  split <;> simp

include he in
/-- A NUM is at least as far from the exact value as its magnitude is from the exact magnitude. -/
theorem magOf_sub_le_real_sub (y : NUM) :
    ((|(magOf (NUM.magBits y) : ℤ) * den - num| : ℤ) : ℚ) ≤ |NUM.real y - e| * (2 ^ 149 * den) := by
  have hM : (0 : ℚ) ≤ 2 ^ 149 * den := by positivity
  calc ((|(magOf (NUM.magBits y) : ℤ) * den - num| : ℤ) : ℚ)
      = |(|NUM.real y| - |e|) * (2 ^ 149 * den)| := by
        push_cast
        rw [← NUM.abs_real_mul_units, ← abs_exact_eq he]
        congr 1; ring
    _ = |(|NUM.real y| - |e|)| * (2 ^ 149 * den) := by rw [abs_mul, abs_of_nonneg hM]
    _ ≤ |NUM.real y - e| * (2 ^ 149 * den) := mul_le_mul_of_nonneg_right (abs_abs_sub_abs_le _ _) hM

include he in
/-- The rounded value is as far from the exact value as its magnitude is from the exact magnitude. -/
theorem real_round_sub :
    |NUM.real (NUM.round neg num den) - e| * (2 ^ 149 * den) =
      ((|(magOf (NUM.roundBits num den) : ℤ) * den - num| : ℤ) : ℚ) := by
  have hM : (0 : ℚ) ≤ 2 ^ 149 * den := by positivity
  have hz := NUM.real_mul_units (NUM.round neg num den)
  rw [NUM.round_neg, NUM.round_magBits] at hz
  have hdiff : (NUM.real (NUM.round neg num den) - e) * (2 ^ 149 * den) =
      (if neg then -(magOf (NUM.roundBits num den) : ℚ) else magOf (NUM.roundBits num den)) * den -
        if neg then -(num : ℚ) else num := by
    rw [← hz, ← he]; ring
  rw [← abs_of_nonneg hM, ← abs_mul, hdiff]
  push_cast
  cases neg
  · rfl
  · rw [← abs_neg]
    congr 1
    simp only [if_true]
    ring

include hd he in
/-- Rounding overflows where R11 says so: 33554431 × 2^252 units are 2^128 − 2^103. -/
theorem round_not_finite_iff :
    NUM.isFinite (NUM.round neg num den) = false ↔ (2 : ℚ) ^ 128 - 2 ^ 103 ≤ |e| := by
  have hle := NUM.roundBits_le num den
  have hM : (0 : ℚ) < 2 ^ 149 * den := by positivity
  have hinf : NUM.isFinite (NUM.round neg num den) = false ↔ NUM.roundBits num den = 0x7F800000 := by
    rw [← Bool.not_eq_true, NUM.isFinite_iff, NUM.round_magBits]; omega
  have hcut : ((2 : ℚ) ^ 128 - 2 ^ 103) * (2 ^ 149 * den) = ((33554431 * 2 ^ 252 * den : ℕ) : ℚ) := by
    push_cast; ring
  rw [hinf, NUM.roundBits_overflow num hd, ← mul_le_mul_iff_left₀ hM, ← mul_assoc |e|, abs_exact_eq he, hcut,
    Nat.cast_le]

include hd he in
/-- An infinity that rounding returns has the sign of the exact value. -/
theorem round_overflow_sign (h : NUM.isFinite (NUM.round neg num den) = false) :
    NUM.isInf (NUM.round neg num den) = true ∧ (NUM.neg (NUM.round neg num den) = true ↔ e < 0) := by
  have hpos : 0 < |e| := lt_of_lt_of_le (by norm_num) ((round_not_finite_iff hd he).1 h)
  have hle := NUM.roundBits_le num den
  refine ⟨?_, ?_⟩
  · rw [← Bool.not_eq_true, NUM.isFinite_iff, NUM.round_magBits] at h
    rw [NUM.isInf_iff, NUM.round_magBits]
    omega
  · have hM : (0 : ℚ) < 2 ^ 149 * den := by positivity
    rw [NUM.round_neg]
    rw [mul_assoc] at he
    cases neg
    · have : 0 ≤ e := nonneg_of_mul_nonneg_left (he ▸ Nat.cast_nonneg num) hM
      simpa using this
    · have : e ≤ 0 := nonpos_of_mul_nonpos_left (he ▸ neg_nonpos.2 (Nat.cast_nonneg num)) hM
      simpa using lt_of_le_of_ne this (abs_pos.1 hpos)

include hd he in
/-- No NUM is nearer to the exact value than the rounded one. -/
theorem round_real_nearest (hfin : NUM.roundBits num den < 0x7F800000) (y : NUM) :
    |NUM.real (NUM.round neg num den) - e| ≤ |NUM.real y - e| := by
  have hM : (0 : ℚ) < 2 ^ 149 * den := by positivity
  have hn := round_nearest num hd (NUM.magBits y)
  rw [← NUM.roundBits_of_lt hfin] at hn
  refine le_of_mul_le_mul_right ?_ hM
  rw [real_round_sub he]
  exact (Int.cast_le.2 hn).trans (magOf_sub_le_real_sub he y)

include hd he in
/-- Where another value is as near, the rounded one has an even fraction. The other one has other magnitude bits,
or it is the negative of the rounded one, and then both are zero. -/
theorem round_real_tie (hfin : NUM.roundBits num den < 0x7F800000) {y : NUM}
    (ht : |NUM.real (NUM.round neg num den) - e| = |NUM.real y - e|)
    (hne : NUM.real y ≠ NUM.real (NUM.round neg num den)) :
    NUM.fracField (NUM.round neg num den) % 2 = 0 := by
  have hB := NUM.roundBits_of_lt hfin
  have hn := round_nearest num hd (NUM.magBits y)
  rw [← hB] at hn
  have hle := magOf_sub_le_real_sub he y
  rw [← ht, real_round_sub he, Int.cast_le] at hle
  have hbits : NUM.magBits y ≠ NUM.roundBits num den := by
    intro hy
    have habs : |NUM.real y| = |NUM.real (NUM.round neg num den)| := by
      refine mul_right_cancel₀ (b := (2 : ℚ) ^ 149) (by positivity) ?_
      rw [NUM.abs_real_mul_units, NUM.abs_real_mul_units, NUM.round_magBits, hy]
    have hyz : NUM.real y = -NUM.real (NUM.round neg num den) := (abs_eq_abs.1 habs).resolve_left hne
    have hz : NUM.real (NUM.round neg num den) = 0 := by
      rw [hyz] at ht
      rcases abs_eq_abs.1 ht with h | h
      · linarith
      · have h0 : e = 0 := by linarith
        have hnum := abs_exact_eq he
        rw [h0, abs_zero, zero_mul, zero_mul, eq_comm, Nat.cast_eq_zero] at hnum
        rw [NUM.real_eq_zero, NUM.isZero_iff, NUM.round_magBits, hnum, NUM.roundBits_zero hd]
    exact hne (by rw [hyz, hz, neg_zero])
  have heven := round_tie num hd (b := NUM.magBits y) (by rwa [← hB]) (by rw [← hB]; exact le_antisymm hn hle)
  rw [NUM.fracField_eq, NUM.round_magBits]
  omega

include hd he in
/-- The one rounding function rounds to nearest, ties to even (R11). -/
theorem NUM.round_isNearestEven : NUM.IsNearestEven (NUM.round neg num den) e := by
  refine ⟨round_not_finite_iff hd he, round_overflow_sign hd he, fun hf y _ => ?_⟩
  rw [NUM.isFinite_iff, NUM.round_magBits] at hf
  exact ⟨round_real_nearest hd he hf y, round_real_tie hd he hf⟩

end Round

/-! ## The operations -/

/-- An integer number of units is its magnitude with its sign. -/
theorem cast_eq_signed_natAbs (z : ℤ) :
    (z : ℚ) = if decide (z < 0) then -(z.natAbs : ℚ) else (z.natAbs : ℚ) := by
  rw [Nat.cast_natAbs]
  by_cases hz : z < 0
  · simp [hz, abs_of_neg hz]
  · simp [hz, abs_of_nonneg (not_lt.1 hz)]

/-- A sum of units, a zero sum of either sign included, is rounded to nearest even. -/
theorem sum_isNearestEven (s : Bool) (z : ℤ) :
    NUM.IsNearestEven (if z = 0 then NUM.pack s 0 else NUM.round (decide (z < 0)) z.natAbs 1) (z / 2 ^ 149) := by
  split
  · rename_i hz
    rw [NUM.pack_zero_eq_round, hz]
    exact NUM.round_isNearestEven one_pos (by simp)
  · refine NUM.round_isNearestEven one_pos ?_
    rw [div_mul_cancel₀ _ (by positivity), Nat.cast_one, mul_one]
    exact cast_eq_signed_natAbs z

/-- The sign of a product or quotient of signed values. -/
theorem signed_op_signed {f : ℚ → ℚ → ℚ} (hl : ∀ x y, f (-x) y = -f x y) (hr : ∀ x y, f x (-y) = -f x y)
    (s t : Bool) (x y : ℚ) :
    f (if s then -x else x) (if t then -y else y) = if s != t then -f x y else f x y := by
  cases s <;> cases t <;> simp [hl, hr]

theorem NUM.real_eq (x : NUM) :
    NUM.real x = if NUM.neg x then -(NUM.mag x / 2 ^ 149 : ℚ) else (NUM.mag x / 2 ^ 149 : ℚ) := by
  rw [NUM.real, NUM.units]
  split <;> push_cast <;> ring

theorem cast_one149 : (NUM.one149 : ℚ) = 2 ^ 149 := by norm_num [NUM.one149]

section Operations

variable {a b : NUM} (ha : NUM.isFinite a = true) (hb : NUM.isFinite b = true)
include ha hb

theorem NUM.add_isNearestEven : NUM.IsNearestEven (NUM.add a b) (NUM.real a + NUM.real b) := by
  rw [NUM.add_finite ha hb, NUM.real, NUM.real, ← add_div, ← Int.cast_add]
  exact sum_isNearestEven _ _

theorem NUM.sub_isNearestEven : NUM.IsNearestEven (NUM.sub a b) (NUM.real a - NUM.real b) := by
  rw [NUM.sub_finite ha hb, NUM.real, NUM.real, ← sub_div, ← Int.cast_sub]
  exact sum_isNearestEven _ _

theorem NUM.mul_isNearestEven : NUM.IsNearestEven (NUM.mul a b) (NUM.real a * NUM.real b) := by
  rw [NUM.mul_finite ha hb]
  refine NUM.round_isNearestEven one149_pos ?_
  rw [NUM.real_eq, NUM.real_eq, signed_op_signed neg_mul mul_neg, cast_one149, Nat.cast_mul]
  split
  · field_simp
  · field_simp

theorem NUM.div_isNearestEven (hz : NUM.isZero b = false) :
    NUM.IsNearestEven (NUM.div a b) (NUM.real a / NUM.real b) := by
  have hmag : 0 < NUM.mag b := by
    rw [Nat.pos_iff_ne_zero, NUM.mag_eq, ne_eq, magOf_eq_zero, ← NUM.isZero_iff, hz]
    decide
  have hmag' : (NUM.mag b : ℚ) ≠ 0 := by exact_mod_cast hmag.ne'
  rw [NUM.div_finite ha hb hz]
  refine NUM.round_isNearestEven hmag ?_
  rw [NUM.real_eq, NUM.real_eq, signed_op_signed (fun x y => neg_div y x) (fun x y => div_neg x), Nat.cast_mul,
    cast_one149]
  split
  · field_simp
  · field_simp

end Operations

/-- Settles O12: addition and subtraction round an integer number of units, multiplication and division a ratio
of magnitudes, and the one rounding function rounds to nearest even. -/
theorem arithmeticRoundsToNearestEven : Obligations.ArithmeticRoundsToNearestEven := fun _ _ ha hb =>
  ⟨NUM.add_isNearestEven ha hb, NUM.sub_isNearestEven ha hb, NUM.mul_isNearestEven ha hb,
    NUM.div_isNearestEven ha hb⟩

end Sys2Proof.Machine
end

section
/-!
PROOFS, R11. Comparisons by sign and magnitude bits are those of the real values; the operations that give a NaN.
-/

namespace Sys2Proof.Machine

/-! ## Comparisons -/

/-- The order by sign and magnitude bits is the order of the units, since the magnitude rises with its bits. -/
theorem NUM.key_lt_iff (a b : NUM) : NUM.key a < NUM.key b ↔ NUM.units a < NUM.units b := by
  have hza := magOf_eq_zero (b := NUM.magBits a)
  have hzb := magOf_eq_zero (b := NUM.magBits b)
  have hab := magOf_strictMono.lt_iff_lt (a := NUM.magBits a) (b := NUM.magBits b)
  have hba := magOf_strictMono.lt_iff_lt (a := NUM.magBits b) (b := NUM.magBits a)
  rw [NUM.units_eq, NUM.units_eq, NUM.key, NUM.key]
  cases NUM.neg a <;> cases NUM.neg b <;> simp only [if_true, Bool.false_eq_true, if_false] <;> omega

theorem NUM.key_lt_iff_real (a b : NUM) : NUM.key a < NUM.key b ↔ NUM.real a < NUM.real b := by
  rw [NUM.key_lt_iff, NUM.real, NUM.real, div_lt_div_iff_of_pos_right (by positivity), Int.cast_lt]

theorem NUM.key_le_iff_real (a b : NUM) : NUM.key a ≤ NUM.key b ↔ NUM.real a ≤ NUM.real b := by
  rw [← not_lt, ← not_lt, NUM.key_lt_iff_real]

theorem NUM.key_eq_iff_real (a b : NUM) : NUM.key a = NUM.key b ↔ NUM.real a = NUM.real b := by
  rw [le_antisymm_iff, le_antisymm_iff, NUM.key_le_iff_real, NUM.key_le_iff_real]

/-- Settles O14: the order of the NUMs by sign and magnitude bits is the order of their real values. -/
theorem comparisonsAreThoseOfTheRealValues : Obligations.ComparisonsAreThoseOfTheRealValues := by
  intro a b ha hb
  have hna := NUM.isNaN_of_finite ha
  have hnb := NUM.isNaN_of_finite hb
  rw [NUM.lt_iff_finite hna hnb, NUM.le_iff_finite hna hnb, NUM.eq_iff_finite hna hnb]
  exact ⟨NUM.key_lt_iff_real a b, NUM.key_le_iff_real a b, NUM.key_eq_iff_real a b⟩

/-! ## Classes of NUMs -/

theorem NUM.isNaN_of_inf {x : NUM} (h : NUM.isInf x = true) : NUM.isNaN x = false := by
  rw [NUM.isInf_iff] at h
  rw [Bool.eq_false_iff, ne_eq, NUM.isNaN_iff]; omega

theorem NUM.isZero_of_inf {x : NUM} (h : NUM.isInf x = true) : NUM.isZero x = false := by
  rw [NUM.isInf_iff] at h
  rw [Bool.eq_false_iff, ne_eq, NUM.isZero_iff]; omega

theorem NUM.isFinite_of_zero {x : NUM} (h : NUM.isZero x = true) : NUM.isFinite x = true := by
  rw [NUM.isZero_iff] at h
  rw [NUM.isFinite_iff]; omega

/-! ## NaN results -/

section NaNOperand

variable {a b : NUM} (h : NUM.isNaN a = true ∨ NUM.isNaN b = true)
include h

/-- An arithmetic operation with a NaN operand is the NaN it names. -/
theorem NUM.arith_nan : NUM.add a b = NUM.nan .add a b ∧ NUM.sub a b = NUM.nan .sub a b ∧
    NUM.mul a b = NUM.nan .mul a b ∧ NUM.div a b = NUM.nan .div a b := by
  have h' : (NUM.isNaN a || NUM.isNaN b) = true := by rwa [Bool.or_eq_true]
  exact ⟨if_pos h', if_pos h', if_pos h', if_pos h'⟩

theorem NUM.compare_nan : NUM.lt a b = false ∧ NUM.le a b = false ∧ NUM.eq a b = false := by
  rcases h with h | h <;> simp [NUM.lt, NUM.le, NUM.eq, h]

end NaNOperand

/-- Infinities of opposite sign have no sum. -/
theorem NUM.addCore_inf_opposite {op : FpOp} {a b : NUM} (c : NUM) (ha : NUM.isInf a = true)
    (hb : NUM.isInf b = true) (hs : NUM.neg a ≠ NUM.neg b) : NUM.addCore op a b c = NUM.nan op a c := by
  rw [NUM.addCore, if_pos ha, if_pos ⟨hb, hs⟩]

/-- Without a NaN operand a sum is `addCore` of the operands. -/
theorem NUM.add_eq_core {a b : NUM} (ha : NUM.isNaN a = false) (hb : NUM.isNaN b = false) :
    NUM.add a b = NUM.addCore .add a b b := by simp [NUM.add, ha, hb]

/-- Without a NaN operand a difference is `addCore` with the second operand's sign inverted. -/
theorem NUM.sub_eq_core {a b : NUM} (ha : NUM.isNaN a = false) (hb : NUM.isNaN b = false) :
    NUM.sub a b = NUM.addCore .sub a (NUM.flipSign b) b := by simp [NUM.sub, ha, hb]

theorem NUM.add_inf_opposite {a b : NUM} (ha : NUM.isInf a = true) (hb : NUM.isInf b = true)
    (hs : NUM.neg a ≠ NUM.neg b) : NUM.add a b = NUM.nan .add a b := by
  rw [NUM.add_eq_core (NUM.isNaN_of_inf ha) (NUM.isNaN_of_inf hb), NUM.addCore_inf_opposite b ha hb hs]

theorem NUM.sub_inf_same {a b : NUM} (ha : NUM.isInf a = true) (hb : NUM.isInf b = true)
    (hs : NUM.neg a = NUM.neg b) : NUM.sub a b = NUM.nan .sub a b := by
  rw [NUM.sub_eq_core (NUM.isNaN_of_inf ha) (NUM.isNaN_of_inf hb),
    NUM.addCore_inf_opposite b ha (by rwa [NUM.isInf_flipSign]) (by simp [hs])]

theorem NUM.div_inf_inf {a b : NUM} (ha : NUM.isInf a = true) (hb : NUM.isInf b = true) :
    NUM.div a b = NUM.nan .div a b := by
  simp [NUM.div, NUM.isNaN_of_inf ha, NUM.isNaN_of_inf hb, ha, hb]

/-- The product of an infinity and another operand that is no NaN. -/
theorem NUM.mul_inf {a b : NUM} (hi : NUM.isInf a = true ∨ NUM.isInf b = true) (ha : NUM.isNaN a = false)
    (hb : NUM.isNaN b = false) :
    NUM.mul a b = if NUM.isZero a || NUM.isZero b then NUM.nan .mul a b
      else NUM.pack (NUM.neg a != NUM.neg b) 0x7F800000 := by
  simp [NUM.mul, ha, hb, hi]

/-- The quotient of a finite operand by a zero. -/
theorem NUM.div_zero {a b : NUM} (ha : NUM.isFinite a = true) (hb : NUM.isZero b = true) :
    NUM.div a b = if NUM.isZero a then NUM.nan .div a b
      else NUM.pack (NUM.neg a != NUM.neg b) 0x7F800000 := by
  have hbf := NUM.isFinite_of_zero hb
  simp [NUM.div, NUM.isNaN_of_finite ha, NUM.isNaN_of_finite hbf, NUM.isInf_of_finite ha,
    NUM.isInf_of_finite hbf, hb]

/-- 0 × ∞, in either order. -/
theorem NUM.isNaN_mul_inf_zero {a b : NUM} (ha : NUM.isInf a = true) (hb : NUM.isZero b = true) :
    NUM.isNaN (NUM.mul a b) = true ∧ NUM.isNaN (NUM.mul b a) = true := by
  have hna := NUM.isNaN_of_inf ha
  have hnb := NUM.isNaN_of_finite (NUM.isFinite_of_zero hb)
  rw [NUM.mul_inf (.inl ha) hna hnb, NUM.mul_inf (.inr ha) hnb hna, hb, Bool.or_true, Bool.true_or]
  exact ⟨NUM.isNaN_nan .., NUM.isNaN_nan ..⟩

theorem NUM.eq_of_isZero {a b : NUM} (ha : NUM.isZero a = true) (hb : NUM.isZero b = true) :
    NUM.eq a b = true := by
  rw [NUM.eq_iff_finite (NUM.isNaN_of_finite (NUM.isFinite_of_zero ha))
    (NUM.isNaN_of_finite (NUM.isFinite_of_zero hb)), NUM.key_eq_iff_real, (NUM.real_eq_zero a).2 ha,
    (NUM.real_eq_zero b).2 hb]

/-- Settles O13, one law for each invalid operation. -/
theorem naNResultsAndComparisons : Obligations.NaNResultsAndComparisons := by
  intro a b
  refine ⟨fun h => ?_, fun ha hb => ⟨?_, fun hs => ?_, fun hs => ?_⟩, NUM.isNaN_mul_inf_zero,
    fun ha hb => ⟨?_, NUM.eq_of_isZero ha hb⟩⟩
  · obtain ⟨hadd, hsub, hmul, hdiv⟩ := NUM.arith_nan h
    rw [hadd, hsub, hmul, hdiv]
    exact ⟨NUM.isNaN_nan .., NUM.isNaN_nan .., NUM.isNaN_nan .., NUM.isNaN_nan .., NUM.compare_nan h⟩
  · rw [NUM.div_inf_inf ha hb, NUM.isNaN_nan]
  · rw [NUM.sub_inf_same ha hb hs, NUM.isNaN_nan]
  · rw [NUM.add_inf_opposite ha hb hs, NUM.isNaN_nan]
  · rw [NUM.div_zero (NUM.isFinite_of_zero ha) hb, if_pos ha, NUM.isNaN_nan]

end Sys2Proof.Machine
end

section
/-!
PROOFS, R11 and R12. floor, wrap, toNUM, and the results of operations that rounding does not settle.
-/

namespace Sys2Proof.Machine

/-! ## floor and wrap -/

/-- The units of a value at or above zero, −0.0 included, are its magnitude. -/
theorem NUM.units_of_nonneg {x : NUM} (h : 0 ≤ NUM.units x) : NUM.units x = magOf (NUM.magBits x) := by
  rw [NUM.units_eq] at h ⊢
  split at h
  · rw [if_pos ‹_›]; omega
  · rw [if_neg ‹_›]

/-- At or above zero, x − toNUM(floor x) is the exact fraction of x, and below 1.0. -/
theorem sub_floor_exact {x : NUM} (hx : NUM.isFinite x = true) (h0 : 0 ≤ NUM.units x) :
    NUM.magBits (NUM.sub x (toNUM (NUM.floor x))) < 0x3F800000 ∧
      NUM.units (NUM.sub x (toNUM (NUM.floor x))) = NUM.units x - NUM.floor x * NUM.one149 := by
  obtain ⟨hf, hu⟩ := toNUM_floor hx
  obtain ⟨k, hk, hmod⟩ := exists_magOf_fract (NUM.magBits x)
  have hfract : NUM.units x - NUM.floor x * NUM.one149 = magOf k := by
    rw [hmod, NUM.floor, NUM.units_of_nonneg h0, mul_comm, Int.natCast_emod, Int.emod_def]
  have hround := NUM.roundBits_exact (b := k) (den := 1) (by omega) one_pos
  rw [mul_one] at hround
  rw [NUM.sub_finite hx hf, hu, hfract]
  split
  · rename_i hz
    rw [NUM.units_eq, NUM.pack_magBits _ (by norm_num), magOf_zero, hz]
    exact ⟨by norm_num, by simp⟩
  · rw [NUM.units_eq, NUM.round_magBits, NUM.round_neg, Int.natAbs_natCast, hround]
    exact ⟨hk, by simp⟩

/-- A magnitude below 1.0 is not 1.0. -/
theorem NUM.eq_one_of_lt {x : NUM} (h : NUM.magBits x < 0x3F800000) : NUM.eq x NUM.one = false := by
  have hfin : NUM.isFinite x = true := by rw [NUM.isFinite_iff]; omega
  have hkey : NUM.key NUM.one = 0x3F800000 := by decide
  rw [Bool.eq_false_iff, ne_eq, NUM.eq_iff_finite (NUM.isNaN_of_finite hfin) (by decide), hkey, NUM.key]
  split <;> omega

theorem wrap_real_of_nonneg {x : NUM} (hx : NUM.isFinite x = true) (h0 : 0 ≤ NUM.real x) :
    NUM.real (wrap x) = NUM.real x - ⌊NUM.real x⌋ := by
  have hu : 0 ≤ NUM.units x := by
    rwa [NUM.real, le_div_iff₀ (by positivity), zero_mul, Int.cast_nonneg_iff] at h0
  obtain ⟨hlt, hexact⟩ := sub_floor_exact hx hu
  rw [wrap_finite hx, NUM.eq_one_of_lt hlt, if_neg Bool.false_ne_true, ← floor_eq, NUM.real, NUM.real, hexact]
  push_cast
  rw [cast_one149, sub_div, mul_div_cancel_right₀ _ (by positivity)]

/-- Settles O15: the floor and the range of wrap are laws of the model, and for x ≥ 0 the subtraction is exact. -/
theorem wrapLiesInOneCycle : Obligations.WrapLiesInOneCycle := by
  intro x hx
  refine ⟨floor_eq x, wrap_inCycle x, ?_, wrap_real_of_nonneg hx⟩
  rw [wrap_finite hx, floor_eq]
  rfl

/-! ## toNUM -/

theorem toNUM_isNearestEven (n : ℤ) : NUM.IsNearestEven (toNUM n) n := by
  refine NUM.round_isNearestEven one_pos ?_
  rw [Nat.cast_one, mul_one, Nat.cast_mul, cast_one149, ← neg_mul, ← ite_mul, ← cast_eq_signed_natAbs]

/-- The integers up to 2^24 in magnitude convert exactly. -/
theorem toNUM_exact {n : ℤ} (h : |n| ≤ 2 ^ 24) : NUM.isFinite (toNUM n) = true ∧ NUM.real (toNUM n) = n := by
  obtain ⟨b, hb, hmag⟩ := exists_magOf_int (k := n.natAbs) (by rw [Int.abs_eq_natAbs] at h; omega)
  rw [NUM.isFinite_iff, toNUM_magBits hb.le hmag, NUM.real, toNUM_units hb.le hmag]
  refine ⟨hb, ?_⟩
  push_cast
  rw [cast_one149, mul_div_cancel_right₀ _ (by positivity)]

theorem toNUM_zero : toNUM 0 = 0x00000000#32 := by
  rw [toNUM, Int.natAbs_zero, zero_mul, ← NUM.pack_zero_eq_round]
  decide

/-! ## Signs of products and quotients -/

/-- A product is the NaN of its operands, or has the sign R11 gives it. -/
theorem NUM.mul_cases (a b : NUM) : NUM.mul a b = NUM.nan .mul a b ∨
    ∃ bits < 2 ^ 31, NUM.mul a b = NUM.pack (NUM.neg a != NUM.neg b) bits := by
  unfold NUM.mul
  simp only
  split
  · exact .inl rfl
  · split
    · split
      · exact .inl rfl
      · exact .inr ⟨0x7F800000, by norm_num, rfl⟩
    · exact .inr ⟨_, NUM.roundBits_lt _ _, rfl⟩

/-- A quotient is the NaN of its operands, or has the sign R11 gives it. -/
theorem NUM.div_cases (a b : NUM) : NUM.div a b = NUM.nan .div a b ∨
    ∃ bits < 2 ^ 31, NUM.div a b = NUM.pack (NUM.neg a != NUM.neg b) bits := by
  unfold NUM.div
  simp only
  split
  · exact .inl rfl
  · split
    · split
      · exact .inl rfl
      · exact .inr ⟨0x7F800000, by norm_num, rfl⟩
    · split
      · exact .inr ⟨0, by norm_num, rfl⟩
      · split
        · split
          · exact .inl rfl
          · exact .inr ⟨0x7F800000, by norm_num, rfl⟩
        · exact .inr ⟨_, NUM.roundBits_lt _ _, rfl⟩

theorem NUM.neg_of_nan_or_pack {x a b : NUM} {op : FpOp} {s : Bool}
    (h : x = NUM.nan op a b ∨ ∃ bits < 2 ^ 31, x = NUM.pack s bits) (hx : NUM.isNaN x = false) :
    NUM.neg x = s := by
  rcases h with rfl | ⟨bits, hbits, rfl⟩
  · rw [NUM.isNaN_nan] at hx
    contradiction
  · exact NUM.pack_neg s hbits

/-! ## Exact zeros -/

theorem NUM.pack_zero_eq (s : Bool) : NUM.pack s 0 = if s then 0x80000000#32 else 0x00000000#32 := by
  cases s
  · rfl
  · rfl

section Finite

variable {a b : NUM} (ha : NUM.isFinite a = true) (hb : NUM.isFinite b = true)
include ha hb

theorem NUM.add_eq_zero (h : NUM.real a + NUM.real b = 0) :
    NUM.add a b = if NUM.neg a = true ∧ NUM.neg b = true then 0x80000000#32 else 0x00000000#32 := by
  have hu : NUM.units a + NUM.units b = 0 := by
    rw [NUM.real, NUM.real, ← add_div, div_eq_zero_iff, or_iff_left (by positivity)] at h
    exact_mod_cast h
  rw [NUM.add_finite ha hb, if_pos hu, NUM.pack_zero_eq]
  simp only [Bool.and_eq_true]

theorem NUM.sub_eq_zero (h : NUM.real a - NUM.real b = 0) :
    NUM.sub a b = if NUM.neg a = true ∧ NUM.neg b = false then 0x80000000#32 else 0x00000000#32 := by
  have hu : NUM.units a - NUM.units b = 0 := by
    rw [NUM.real, NUM.real, ← sub_div, div_eq_zero_iff, or_iff_left (by positivity)] at h
    exact_mod_cast h
  rw [NUM.sub_finite ha hb, if_pos hu, NUM.pack_zero_eq]
  simp only [Bool.and_eq_true, Bool.not_eq_true']

end Finite

/-! ## Infinite operands -/

theorem NUM.isInf_pack (s : Bool) : NUM.isInf (NUM.pack s 0x7F800000) = true := by
  rw [NUM.isInf_iff, NUM.pack_magBits _ (by norm_num)]

theorem NUM.addCore_inf_left {op : FpOp} {a b : NUM} (c : NUM) (ha : NUM.isInf a = true)
    (hb : NUM.isInf b = true → NUM.neg a = NUM.neg b) : NUM.addCore op a b c = a := by
  rw [NUM.addCore, if_pos ha, if_neg fun ⟨hinf, hne⟩ => hne (hb hinf)]

theorem NUM.addCore_inf_right {op : FpOp} {a b : NUM} (c : NUM) (ha : NUM.isInf a = false)
    (hb : NUM.isInf b = true) : NUM.addCore op a b c = b := by
  rw [NUM.addCore, if_neg (by simp [ha]), if_pos hb]

section Infinite

variable {a b : NUM} (ha : NUM.isInf a = true)
include ha

theorem NUM.add_inf_left (hb : NUM.isNaN b = false) (hs : NUM.isInf b = true → NUM.neg a = NUM.neg b) :
    NUM.add a b = a := by
  rw [NUM.add_eq_core (NUM.isNaN_of_inf ha) hb, NUM.addCore_inf_left b ha hs]

theorem NUM.sub_inf_left (hb : NUM.isNaN b = false) (hs : NUM.isInf b = true → NUM.neg a ≠ NUM.neg b) :
    NUM.sub a b = a := by
  rw [NUM.sub_eq_core (NUM.isNaN_of_inf ha) hb, NUM.addCore_inf_left b ha]
  rw [NUM.isInf_flipSign, NUM.neg_flipSign]
  exact fun h => Bool.eq_not.2 (hs h)

theorem NUM.add_inf_right (hb : NUM.isFinite b = true) : NUM.add b a = a := by
  rw [NUM.add_eq_core (NUM.isNaN_of_finite hb) (NUM.isNaN_of_inf ha),
    NUM.addCore_inf_right a (NUM.isInf_of_finite hb) ha]

theorem NUM.sub_inf_right (hb : NUM.isFinite b = true) : NUM.sub b a = NUM.flipSign a := by
  rw [NUM.sub_eq_core (NUM.isNaN_of_finite hb) (NUM.isNaN_of_inf ha),
    NUM.addCore_inf_right a (NUM.isInf_of_finite hb) (by rwa [NUM.isInf_flipSign])]

theorem NUM.div_inf_left (hb : NUM.isFinite b = true) :
    NUM.div a b = NUM.pack (NUM.neg a != NUM.neg b) 0x7F800000 := by
  simp [NUM.div, NUM.isNaN_of_inf ha, NUM.isNaN_of_finite hb, ha, NUM.isInf_of_finite hb]

theorem NUM.div_inf_right (hb : NUM.isFinite b = true) :
    NUM.div b a = NUM.pack (NUM.neg b != NUM.neg a) 0 := by
  simp [NUM.div, NUM.isNaN_of_inf ha, NUM.isNaN_of_finite hb, ha, NUM.isInf_of_finite hb]

/-- An infinity with a finite operand: every result R11 gives. -/
theorem NUM.inf_finite (hb : NUM.isFinite b = true) :
    NUM.add a b = a ∧ NUM.add b a = a ∧ NUM.sub a b = a ∧
      NUM.isInf (NUM.sub b a) = true ∧ NUM.neg (NUM.sub b a) = !NUM.neg a ∧
      NUM.isInf (NUM.div a b) = true ∧ NUM.isZero (NUM.div b a) = true := by
  have hnan := NUM.isNaN_of_finite hb
  have hinf : NUM.isInf b ≠ true := by simp [NUM.isInf_of_finite hb]
  rw [NUM.sub_inf_right ha hb, NUM.isInf_flipSign, NUM.neg_flipSign, NUM.div_inf_left ha hb, NUM.isInf_pack,
    NUM.div_inf_right ha hb, NUM.isZero_iff, NUM.pack_magBits _ (by norm_num)]
  exact ⟨NUM.add_inf_left ha hnan fun h => absurd h hinf, NUM.add_inf_right ha hb,
    NUM.sub_inf_left ha hnan fun h => absurd h hinf, ha, rfl, rfl, rfl⟩

theorem NUM.isInf_mul_inf (hb : NUM.isNaN b = false) (hz : NUM.isZero b = false) :
    NUM.isInf (NUM.mul a b) = true ∧ NUM.isInf (NUM.mul b a) = true := by
  have hna := NUM.isNaN_of_inf ha
  have hza := NUM.isZero_of_inf ha
  rw [NUM.mul_inf (.inl ha) hna hb, NUM.mul_inf (.inr ha) hb hna, hz, hza, Bool.or_false]
  exact ⟨NUM.isInf_pack _, NUM.isInf_pack _⟩

end Infinite

/-- Settles O57, one law for each kind of result that rounding does not settle. -/
theorem signsInfinitiesAndIntegers : Obligations.SignsInfinitiesAndIntegers := by
  refine ⟨fun a b => ⟨NUM.neg_of_nan_or_pack (NUM.mul_cases a b), NUM.neg_of_nan_or_pack (NUM.div_cases a b),
    fun ha hb => ⟨NUM.add_eq_zero ha hb, NUM.sub_eq_zero ha hb, fun hza hzb => ?_⟩,
    fun ha => ⟨NUM.inf_finite ha, fun hb hs => ?_, fun hb hs => ?_, NUM.isInf_mul_inf ha⟩⟩,
    fun n => ⟨toNUM_isNearestEven n, toNUM_exact⟩, toNUM_zero⟩
  · rw [NUM.div_zero ha hzb, hza]
    exact NUM.isInf_pack _
  · exact NUM.add_inf_left ha (NUM.isNaN_of_inf hb) fun _ => hs
  · exact NUM.sub_inf_left ha (NUM.isNaN_of_inf hb) fun _ => hs

end Sys2Proof.Machine
end

section
/-!
PROOFS, R6 and R7. Which parameter sets the model builds a block with, and which block that is.
-/

namespace Sys2Proof.Machine

/-! ## Legality of parameter sets -/

/-- A finite NUM is what its fields name. -/
theorem finiteNum_ofNum (x : NUM) (h : x.toNat / 2 ^ 23 % 256 < 255) : finiteNum (FiniteNum.ofNum x h) = x := by
  have hsign : x.getLsbD 31 = NUM.neg x := by
    rw [BitVec.getLsbD, Nat.testBit_eq_decide_div_mod_eq, NUM.neg]
    have := NUM.toNat_lt x
    exact decide_eq_decide.2 (by omega)
  have hbits : x.toNat / 2 ^ 23 % 256 * 2 ^ 23 + x.toNat % 2 ^ 23 = NUM.magBits x := by
    rw [NUM.magBits]; omega
  rw [finiteNum, FiniteNum.ofNum, hsign, BitVec.toNat_ofNat, hbits, NUM.pack_self]

theorem all?_isSome_iff (v : Vector NUM 7) :
    (FiniteNum.all? v).isSome = true ↔ ∀ i : Fin 7, NUM.isFinite v[i] = true := by
  have hfin : ∀ x : NUM, NUM.isFinite x = true ↔ x.toNat / 2 ^ 23 % 256 < 255 := fun x => by
    rw [NUM.isFinite, NUM.expField, bne_iff_ne]; omega
  simp only [hfin, FiniteNum.all?]
  split
  · exact iff_of_true rfl ‹_›
  · exact iff_of_false Bool.false_ne_true ‹_›

theorem all?_eq_some {v : Vector NUM 7} {w : Vector FiniteNum 7} (h : FiniteNum.all? v = some w) (i : Fin 7) :
    finiteNum w[i] = v[i] := by
  rw [FiniteNum.all?] at h
  split at h
  · obtain rfl := Option.some.inj h
    simp [finiteNum_ofNum]
  · contradiction

theorem usedMults_get (r : ParamSet) (i : Fin 7) :
    r.usedMults[i] = if i.val < r.FLANGE_TAP_COUNT then r.FLANGE_RATE_MULT[i] else 0#32 := by
  simp [ParamSet.usedMults]

theorem usedMults_finite_iff (r : ParamSet) : (FiniteNum.all? r.usedMults).isSome = true ↔
    ∀ i : Fin 7, i.val < r.FLANGE_TAP_COUNT → NUM.isFinite r.FLANGE_RATE_MULT[i] = true := by
  rw [all?_isSome_iff]
  refine forall_congr' fun i => ?_
  rw [usedMults_get]
  split
  · exact ⟨fun h _ => h, fun h => h ‹_›⟩
  · exact ⟨fun _ h => absurd h ‹_›, fun _ => rfl⟩

/-- What R7, with the sizes of R6, asks of a parameter set. -/
structure LegalParamSet (r : ParamSet) : Prop where
  flangeTaps : r.FLANGE_TAP_COUNT = 5 ∨ r.FLANGE_TAP_COUNT = 7
  chorusTaps : 1 ≤ r.CHORUS_TAP_COUNT ∧ r.CHORUS_TAP_COUNT ≤ 50
  channels : 1 ≤ r.MAX_CHANNELS ∧ r.MAX_CHANNELS ≤ 256
  mults : ∀ i : Fin 7, i.val < r.FLANGE_TAP_COUNT → NUM.isFinite r.FLANGE_RATE_MULT[i] = true
  frames : 1 ≤ r.MAX_FRAMES_HW
  samples : 1 ≤ r.MAX_DL_SAMPLES

theorem not_legalParamSet_iff (r : ParamSet) : ¬ LegalParamSet r ↔
    (r.FLANGE_TAP_COUNT ≠ 5 ∧ r.FLANGE_TAP_COUNT ≠ 7) ∨ r.CHORUS_TAP_COUNT < 1 ∨ 50 < r.CHORUS_TAP_COUNT ∨
      r.MAX_CHANNELS < 1 ∨ 256 < r.MAX_CHANNELS ∨
      (∃ i : Fin 7, i.val < r.FLANGE_TAP_COUNT ∧ NUM.isFinite r.FLANGE_RATE_MULT[i] = false) ∨
      r.MAX_FRAMES_HW < 1 ∨ r.MAX_DL_SAMPLES < 1 := by
  have hmult : (∃ i : Fin 7, i.val < r.FLANGE_TAP_COUNT ∧ NUM.isFinite r.FLANGE_RATE_MULT[i] = false) ↔
      ¬ ∀ i : Fin 7, i.val < r.FLANGE_TAP_COUNT → NUM.isFinite r.FLANGE_RATE_MULT[i] = true := by
    simp only [not_forall, exists_prop, Bool.not_eq_true]
  rw [hmult]
  constructor
  · intro h
    by_contra hno
    simp only [not_or, not_not, not_lt] at hno
    obtain ⟨hflange, hc1, hc50, hm1, hm256, hmults, hframes, hsamples⟩ := hno
    exact h ⟨by omega, ⟨hc1, hc50⟩, ⟨hm1, hm256⟩, hmults, hframes, hsamples⟩
  · rintro h ⟨hflange, hchorus, hchannels, hmults, hframes, hsamples⟩
    simp only [eq_true hmults, not_true_eq_false, false_or] at h
    omega

/-- Everything `Params.build` can do: it takes a legal set, whose numbers stand in the block it builds. -/
theorem build_some {p q : Params} {r : ParamSet} (h : Params.build p r = some q) :
    LegalParamSet r ∧ q.VARIANT = p.VARIANT ∧
      q.FLANGE_TAPS = (if r.FLANGE_TAP_COUNT = 5 then .five else .seven) ∧
      FiniteNum.all? r.usedMults = some q.FLANGE_RATE_MULT ∧
      q.chorusTapsLess1.val = r.CHORUS_TAP_COUNT - 1 ∧ q.maxChannelsLess1.val = r.MAX_CHANNELS - 1 ∧
      q.maxFramesHwLess1 = r.MAX_FRAMES_HW - 1 ∧ q.maxDlSamplesLess1 = r.MAX_DL_SAMPLES - 1 := by
  unfold Params.build at h
  split at h
  · contradiction
  · rename_i mult hmult
    by_cases hc : r.CHORUS_TAP_COUNT - 1 < 50
    · rw [dif_pos hc] at h
      by_cases hm : r.MAX_CHANNELS - 1 < 256
      · rw [dif_pos hm] at h
        obtain ⟨⟨hflange, hchorus, hchannels, hframes, hsamples⟩, hq⟩ := Option.ite_none_right_eq_some.1 h
        obtain rfl := Option.some.inj hq
        have hmults := (usedMults_finite_iff r).1 (by rw [hmult]; rfl)
        have hlegal : LegalParamSet r :=
          ⟨hflange, ⟨hchorus, by omega⟩, ⟨hchannels, by omega⟩, hmults, hframes, hsamples⟩
        exact ⟨hlegal, rfl, rfl, hmult, rfl, rfl, rfl, rfl⟩
      · simp [hm] at h
    · simp [hc] at h

theorem build_isSome_of_legal (p : Params) {r : ParamSet} (h : LegalParamSet r) :
    (Params.build p r).isSome = true := by
  obtain ⟨hflange, ⟨hc1, hc50⟩, ⟨hm1, hm256⟩, hmults, hframes, hsamples⟩ := h
  obtain ⟨mult, hmult⟩ := Option.isSome_iff_exists.1 ((usedMults_finite_iff r).2 hmults)
  have hc : r.CHORUS_TAP_COUNT - 1 < 50 := by omega
  have hm : r.MAX_CHANNELS - 1 < 256 := by omega
  simp [Params.build, hmult, hc, hm, hflange, hc1, hm1, hframes, hsamples]

theorem build_eq_none_iff (p : Params) (r : ParamSet) : Params.build p r = none ↔ ¬ LegalParamSet r := by
  rw [← Option.not_isSome_iff_eq_none, not_iff_not]
  refine ⟨fun h => ?_, build_isSome_of_legal p⟩
  obtain ⟨q, hq⟩ := Option.isSome_iff_exists.1 h
  exact (build_some hq).1

/-- Settles O11: `Params.build` refuses what is not legal, and a legal set's counts and multipliers are those of the
block. -/
theorem illegalParameterSetsAreRefused : Obligations.IllegalParameterSetsAreRefused := by
  intro p r
  refine ⟨(build_eq_none_iff p r).trans (not_legalParamSet_iff r), fun q hq => ?_⟩
  obtain ⟨hlegal, hvariant, hflange, hmult, hchorus, hchannels, hframes, hsamples⟩ := build_some hq
  obtain ⟨hftaps, ⟨hc1, -⟩, ⟨hm1, -⟩, -, hf1, hs1⟩ := hlegal
  refine ⟨?_, hvariant, ?_, ?_, ?_, fun i hi => ?_⟩
  · rw [Params.T, hflange]
    cases q.VARIANT
    · rcases hftaps with h5 | h7
      · simp [h5]
      · simp [h7]
    · simp only [hchorus]; omega
  · rw [Params.MAX_CHANNELS, hchannels]; omega
  · rw [Params.MAX_FRAMES_HW, hframes]; omega
  · rw [Params.MAX_DL_SAMPLES, hsamples]; omega
  · have hget := all?_eq_some hmult i
    rw [usedMults_get, if_pos hi] at hget
    rw [← hget, rateMult]
    simp

end Sys2Proof.Machine
end

section
/-!
PROOFS, SUPPORT. What a command can leave and what a host access can leave: one inversion lemma for `exec`, one for
`step`.
-/

namespace Sys2Proof.Machine

/-! ## What a command leaves -/

/-- The states a command can leave, each with the checks that lead to it (60_exceptions.md R317). -/
inductive CommandEffect (s : State) : Instr → State → Prop
  | unconfigured {i : Instr} (hi : i.needsFormat = true) (hr : i ≠ .render) (hc : s.STATUS.CFGD = false) :
      CommandEffect s i (s.raise .E_NOTCFG)
  | badSelector {i : Instr} (hi : i.badSelector s = true) (hc : i.needsFormat = true → s.STATUS.CFGD = true) :
      CommandEffect s i (s.raise .E_SEL)
  /-- a result and nothing else; its value is in the command's own lemma (exec_getp, exec_lfov, …) -/
  | answer {i : Instr} (v : Word) (hi : i.writesRES = true) (hs : i.badSelector s = false)
      (hc : i.needsFormat = true → s.STATUS.CFGD = true)
      (hx : ∀ c, i = .dlrd c → offsetInRange s.fmt.N s.OPA = true) : CommandEffect s i (s.setRES v)
  | readOutside {c : Nat} (hc : s.STATUS.CFGD = true) (hn : c < s.fmt.C)
      (hx : offsetInRange s.fmt.N s.OPA = false) :
      CommandEffect s (.dlrd c) (((s.raise .E_RANGE).afterDraws 1).setRES s.nextDraw)
  | storeTaps (hc : s.STATUS.CFGD = true) (hb : tapBypass s.params s.OPA s.OPB = false) :
      CommandEffect s .taps { s with
        TAPE := writeTaps s.TAPE 0 (tapSets s s.OPA s.OPB s.opcFlag).1
        TAPO := writeTaps s.TAPO 0 (tapSets s s.OPA s.OPB s.opcFlag).2
        RES := 0#32 }
  | configure (hv : cfgValid s.params s.OPA.toNat s.OPB s.OPC.toNat s.OPD = true) :
      CommandEffect s .cfg (configure s.OPA.toNat s.OPB s.OPC.toNat s.OPD s)
  | deconfigure (hv : cfgValid s.params s.OPA.toNat s.OPB s.OPC.toNat s.OPD = false) :
      CommandEffect s .cfg (deconfigure s)
  | applyParam (id : Nat) : CommandEffect s (.setp id) (applyParam id s.OPA s.OPB s)
  | setRamp (p : ParamId) :
      CommandEffect s (.rpset p.toNat) (s.setParam p (rpSet (s.P.get p) s.OPA s.OPB))
  | stepRamp (p : ParamId) : CommandEffect s (.rpfrm p.toNat)
      ((s.setParam p (rpFrame (s.P.get p))).setRES (rpFrame (s.P.get p)).value)
  | writeSample {c : Nat} (hc : s.STATUS.CFGD = true) (hn : c < s.fmt.C) :
      CommandEffect s (.dlwr c) (dlWrite c s.OPA s)
  | setFrequency {k : Nat} (hc : s.STATUS.CFGD = true) (hk : k < s.params.T) :
      CommandEffect s (.lfosf k) (s.modifyOsc k (Osc.setFrequency s.fmt.FS s.OPA s.OPB))
  | increment {k : Nat} (hc : s.STATUS.CFGD = true) (hk : k < s.params.T) :
      CommandEffect s (.lfoinc k) (s.modifyOsc k Osc.increment)
  | render (hc : s.STATUS.CFGD = true) (hr : renderInContract s s.OPA.toNat s.OPB.toNat = true) :
      CommandEffect s .render (renderBody s.OPA.toNat s.OPB.toNat s)
  | renderOutOfContract (hc : s.STATUS.CFGD = true)
      (hr : renderInContract s s.OPA.toNat s.OPB.toNat = false) :
      CommandEffect s .render (s.raise .E_PRECOND).havocOUT.havocP.havocL.havocLines
  | renderUnconfigured (hc : s.STATUS.CFGD = false) :
      CommandEffect s .render (s.raise .E_NOTCFG).havocOUT.havocP

/-- A parameter id up to 5 is a known one (30_encoding.md R106). -/
theorem ParamId.exists_toNat {id : Nat} (h : ¬ 5 < id) : ∃ p : ParamId, id = p.toNat := by
  cases hp : ParamId.ofNat? id with
  | none => exact absurd (ParamId.ofNat?_eq_none.1 hp) h
  | some p => exact ⟨p, ParamId.ofNat?_some hp⟩

/-- A command whose checks pass answers its own effect. -/
theorem exec_effect_of_checks {i : Instr} {s : State} (hs : i.badSelector s = false)
    (hc : i.needsFormat = true → s.STATUS.CFGD = true) : ∃ t, exec i s = .next t ∧ CommandEffect s i t := by
  have hsel : ∀ {n k : Nat}, decide (n ≤ k) = false → k < n := by simp
  have hid : ∀ {id : Nat}, decide (5 < id) = false → ∃ p : ParamId, id = p.toNat :=
    fun h => ParamId.exists_toNat (of_decide_eq_false h)
  cases i with
  | cfg =>
    cases hv : cfgValid s.params s.OPA.toNat s.OPB s.OPC.toNat s.OPD
    · exact ⟨_, exec_cfg_invalid hv, .deconfigure hv⟩
    · exact ⟨_, exec_cfg_valid hv, .configure hv⟩
  | setp id => exact ⟨_, rfl, .applyParam id⟩
  | getp id =>
    by_cases h : 5 < id
    · exact ⟨_, exec_getp_unknown s h, .answer 0#32 rfl hs hc (by simp)⟩
    · obtain ⟨p, rfl⟩ := ParamId.exists_toNat h
      exact ⟨_, exec_getp s p, .answer _ rfl hs hc (by simp)⟩
  | render =>
    cases hr : renderInContract s s.OPA.toNat s.OPB.toNat
    · exact ⟨_, exec_render_outOfContract (hc rfl) hr, .renderOutOfContract (hc rfl) hr⟩
    · exact ⟨_, exec_render_inContract (hc rfl) hr, .render (hc rfl) hr⟩
  | rdstat => exact ⟨_, rfl, .answer _ rfl hs hc (by simp)⟩
  | dlwr c => exact ⟨_, exec_dlwr (hc rfl) (hsel hs), .writeSample (hc rfl) (hsel hs)⟩
  | dlrd c =>
    cases hx : offsetInRange s.fmt.N s.OPA
    · exact ⟨_, exec_dlrd_outside (hc rfl) (hsel hs) hx, .readOutside (hc rfl) (hsel hs) hx⟩
    · exact ⟨_, exec_dlrd_inside (hc rfl) (hsel hs) hx, .answer _ rfl hs hc fun _ _ => hx⟩
  | lfosf k => exact ⟨_, exec_lfosf (hc rfl) (hsel hs), .setFrequency (hc rfl) (hsel hs)⟩
  | lfov k => exact ⟨_, exec_lfov (hc rfl) (hsel hs), .answer _ rfl hs hc (by simp)⟩
  | lfoq k => exact ⟨_, exec_lfoq (hc rfl) (hsel hs), .answer _ rfl hs hc (by simp)⟩
  | lfoinc k => exact ⟨_, exec_lfoinc (hc rfl) (hsel hs), .increment (hc rfl) (hsel hs)⟩
  | rpset id =>
    obtain ⟨p, rfl⟩ := hid hs
    exact ⟨_, exec_rpset s p, .setRamp p⟩
  | rpfrm id =>
    obtain ⟨p, rfl⟩ := hid hs
    exact ⟨_, exec_rpfrm s p, .stepRamp p⟩
  | rpget id =>
    obtain ⟨p, rfl⟩ := hid hs
    exact ⟨_, exec_rpget s p, .answer _ rfl hs hc (by simp)⟩
  | taps =>
    cases hb : tapBypass s.params s.OPA s.OPB
    · exact ⟨_, exec_taps (hc rfl) hb, .storeTaps (hc rfl) hb⟩
    · exact ⟨_, exec_taps_bypass (hc rfl) hb, .answer 1#32 rfl hs hc (by simp)⟩

/-- Every command completes (60_exceptions.md R318), with one of its effects. -/
theorem exec_effect (i : Instr) (s : State) : ∃ t, exec i s = .next t ∧ CommandEffect s i t := by
  by_cases hf : i.needsFormat = true → s.STATUS.CFGD = true
  · cases hs : i.badSelector s
    · exact exec_effect_of_checks hs hf
    · exact ⟨_, exec_badSelector hs hf, .badSelector hs hf⟩
  · obtain ⟨hi, hn⟩ := Classical.not_imp.1 hf
    have hc : s.STATUS.CFGD = false := Bool.eq_false_iff.2 hn
    by_cases hr : i = .render
    · subst hr
      exact ⟨_, exec_render_unconfigured hc, .renderUnconfigured hc⟩
    · exact ⟨_, exec_unconfigured hi hr hc, .unconfigured hi hr hc⟩

theorem effect_of_exec {i : Instr} {s t : State} (h : exec i s = .next t) : CommandEffect s i t := by
  obtain ⟨u, hu, he⟩ := exec_effect i s
  rw [h] at hu
  cases hu
  exact he

/-! ## What a host access leaves -/

/-- The states a host access can leave (20_memory.md R72, R80). -/
inductive AccessEffect (s : State) : HostAccess → State → Prop
  | command {w : Word} {i : Instr} {t : State} (hw : decode w = .ok i) (h : CommandEffect s i t) :
      AccessEffect s (.writeReg .CMD w) t
  | illegal {w : Word} {why : Illegal} (hw : decode w = .error why) :
      AccessEffect s (.writeReg .CMD w) (s.raise .E_ILL)
  | writeOPA (v : Word) : AccessEffect s (.writeReg .OPA v) { s with OPA := v }
  | writeOPB (v : Word) : AccessEffect s (.writeReg .OPB v) { s with OPB := v }
  | writeOPC (v : Word) : AccessEffect s (.writeReg .OPC v) { s with OPC := v }
  | writeOPD (v : Word) : AccessEffect s (.writeReg .OPD v) { s with OPD := v }
  | writeIN {i : Nat} (v : Word) (hi : i < s.sampleWords) :
      AccessEffect s (.writeWord .IN i v) { s with IN := s.IN.write i v }
  | writeOUT {i : Nat} (v : Word) (hi : i < s.sampleWords) :
      AccessEffect s (.writeWord .OUT i v) { s with OUT := s.OUT.write i v }
  | writeEVQ {i : Nat} (v : Word) (hi : i < s.eventWords) :
      AccessEffect s (.writeWord .EVQ i v) { s with EVQ := s.EVQ.write i v }
  | reset : AccessEffect s .reset (hardwareReset s)

theorem issue_effect {w : Word} {s t : State} (h : issue w s = .next t) :
    AccessEffect s (.writeReg .CMD w) t := by
  unfold issue at h
  split at h
  · rename_i i hw
    exact .command hw (effect_of_exec h)
  · rename_i why hw
    cases h
    exact .illegal hw

theorem hostWriteOperand_effect {r : HostReg} {v : Word} {s t : State}
    (h : hostWriteOperand r v s = .next t) : AccessEffect s (.writeReg r v) t := by
  cases r with
  | OPA => cases h; exact .writeOPA v
  | OPB => cases h; exact .writeOPB v
  | OPC => cases h; exact .writeOPC v
  | OPD => cases h; exact .writeOPD v
  | CMD | RES | STATUS => cases h

theorem hostWriteWord_effect {space : Space} {i : Nat} {v : Word} {s t : State}
    (h : hostWriteWord space i v s = .next t) : AccessEffect s (.writeWord space i v) t := by
  have bounded : ∀ {n : Nat} {u : State},
      (if i < n then Host.Outcome.next u else .fault Fault.noSuchWord : Host.Outcome State Fault Refusal) =
        .next t → i < n ∧ u = t := by
    intro n u h
    split at h
    · rename_i hi; cases h; exact ⟨hi, rfl⟩
    · cases h
  cases space with
  | IN => obtain ⟨hi, rfl⟩ := bounded h; exact .writeIN v hi
  | OUT => obtain ⟨hi, rfl⟩ := bounded h; exact .writeOUT v hi
  | EVQ => obtain ⟨hi, rfl⟩ := bounded h; exact .writeEVQ v hi
  | TAPE | TAPO | DL => cases h

theorem perform_effect {a : HostAccess} {s t : State} (h : perform a s = .next t) : AccessEffect s a t := by
  cases a with
  | writeReg r v =>
    cases r with
    | CMD => exact issue_effect h
    | OPA | OPB | OPC | OPD | RES | STATUS => exact hostWriteOperand_effect h
  | writeWord space i v => exact hostWriteWord_effect h
  | reset => cases h; exact .reset

/-- A step waits, or performs the oldest host access to come (70_reset_and_hazards.md R341, 20_memory.md R80). -/
theorem step_effect {s t : State} (h : step s = .next t) :
    (s.inputs = [] ∧ t = s) ∨
      ∃ a rest, s.inputs = a :: rest ∧ AccessEffect { s with inputs := rest } a t := by
  unfold step at h
  split at h
  · rename_i hin
    cases h
    exact .inl ⟨hin, rfl⟩
  · rename_i a rest hin
    exact .inr ⟨a, rest, hin, perform_effect h⟩

/-! ## Setting a parameter -/

/-- Setting a parameter writes the parameter file and, for RATE, the bank (44_engine.md R263). -/
theorem applyParam_eq (p : Nat) (v : NUM) (n : Word) (s : State) :
    applyParam p v n s = { s with P := (applyParam p v n s).P, L := (applyParam p v n s).L } := by
  have hbank : ∀ u : State, retuneBank v n u = { u with L := (retuneBank v n u).L } := by
    intro u
    unfold retuneBank
    split <;> rfl
  unfold applyParam
  split
  · rfl
  · rename_i id _
    cases id with
    | RATE =>
      simp only [applyKnown]
      split
      · rw [hbank]; rfl
      · rfl
    | DEPTH | DELAY | DRY | WET | ODD90 => rfl

/-- Without a format there is no bank to retune. -/
theorem applyParam_L_of_unconfigured (p : Nat) (v : NUM) (n : Word) {s : State} (h : s.STATUS.CFGD = false) :
    (applyParam p v n s).L = s.L := by
  unfold applyParam
  split
  · rfl
  · rename_i id _
    cases id with
    | RATE => simp [applyKnown, h]
    | DEPTH | DELAY | DRY | WET | ODD90 => rfl

end Sys2Proof.Machine
end

section
/-!
PROOFS, 10_state.md. The invariant every step keeps, the sticky bits, CFGD, and which command writes which state.
-/

namespace Sys2Proof.Machine

/-! ## Each operation keeps the invariant -/

theorem State.Inv.raise {s : State} (h : s.Inv) (e : Err) : (s.raise e).Inv := by
  refine ⟨h.1, fun hc => h.2.1 ?_, fun hc => h.2.2 ?_⟩
  · rwa [State.raise_STATUS, Status.set_CFGD] at hc
  · rwa [State.raise_STATUS, Status.set_CFGD] at hc

theorem State.Inv.havocOUT {s : State} (h : s.Inv) : s.havocOUT.Inv := by
  obtain ⟨⟨hIN, -, hrest⟩, hfmt⟩ := h
  exact ⟨⟨hIN, ⟨Memory.drawn_wf _ _, Memory.drawn_within _ _⟩, hrest⟩, hfmt⟩

/-- On a configured machine the format part of the invariant is its second half. -/
theorem State.formatSound_of_configured {s : State} (hc : s.STATUS.CFGD = true)
    (h : Format.sound s.params s.fmt ∧ s.L.length = s.params.T ∧ s.lines.length = s.fmt.C ∧
      ∀ l ∈ s.lines, Line.sound s.fmt.N l) : s.formatSound :=
  ⟨fun hn => Bool.noConfusion (hn.symm.trans hc), fun _ => h⟩

/-- A bank of T oscillators, whatever they hold, is a sound one. -/
theorem State.Inv.withBank {s : State} (h : s.Inv) (hc : s.STATUS.CFGD = true) {L : List Osc}
    (hL : L.length = s.params.T) : State.Inv { s with L := L } := by
  obtain ⟨hmem, -, hfmt⟩ := h
  obtain ⟨hsound, -, hlines⟩ := hfmt hc
  exact ⟨hmem, State.formatSound_of_configured hc ⟨hsound, hL, hlines⟩⟩

/-- C sound delay lines, whatever they hold, are sound ones. -/
theorem State.Inv.withLines {s : State} (h : s.Inv) (hc : s.STATUS.CFGD = true) {ls : List Line}
    (hlen : ls.length = s.fmt.C) (hls : ∀ l ∈ ls, Line.sound s.fmt.N l) : State.Inv { s with lines := ls } := by
  obtain ⟨hmem, -, hfmt⟩ := h
  obtain ⟨hsound, hL, -⟩ := hfmt hc
  exact ⟨hmem, State.formatSound_of_configured hc ⟨hsound, hL, hlen, hls⟩⟩

theorem Format.sound.N_pos {p : Params} {m : Format} (h : Format.sound p m) : 0 < m.N := by
  obtain ⟨-, -, -, -, -, -, -, -, -, hN, -⟩ := h
  rw [hN]
  exact capacity_pos _ _

theorem State.Inv.havocL {s : State} (h : s.Inv) (hc : s.STATUS.CFGD = true) : s.havocL.Inv :=
  h.withBank hc s.havocL_length

theorem State.Inv.havocLines {s : State} (h : s.Inv) (hc : s.STATUS.CFGD = true) : s.havocLines.Inv :=
  h.withLines hc s.havocLines_length (s.havocLines_sound (h.2.2 hc).1.N_pos)

theorem State.Inv.modifyOsc {s : State} (h : s.Inv) (hc : s.STATUS.CFGD = true) (i : Nat) (f : Osc → Osc) :
    (s.modifyOsc i f).Inv :=
  h.withBank hc (by rw [List.length_modify]; exact (h.2.2 hc).2.1)

theorem State.Inv.dlWrite {s : State} (h : s.Inv) (hc : s.STATUS.CFGD = true) (c : Nat) (x : NUM) :
    (dlWrite c x s).Inv := by
  obtain ⟨-, -, hcount, hlines⟩ := h.2.2 hc
  exact h.withLines hc (by rw [List.length_modify, hcount]) (modify_sound hlines c x)

/-- A TAPS result fits TAPE and TAPO, since T is at most 50 (20_memory.md R70). -/
theorem State.Inv.withTaps {s : State} (h : s.Inv) {E O : List NUM} (hE : E.length ≤ tapWords)
    (hO : O.length ≤ tapWords) (v : Word) :
    State.Inv { s with TAPE := writeTaps s.TAPE 0 E, TAPO := writeTaps s.TAPO 0 O, RES := v } := by
  obtain ⟨⟨hIN, hOUT, hEVQ, ⟨hEw, hEn⟩, hOw, hOn⟩, hfmt⟩ := h
  exact ⟨⟨hIN, hOUT, hEVQ, ⟨writeTaps_wf hEw _ _, writeTaps_within hEn (by omega)⟩,
    writeTaps_wf hOw _ _, writeTaps_within hOn (by omega)⟩, hfmt⟩

theorem tapSets_length (s : State) (dlyMs dep : NUM) (o90 : Bool) :
    (tapSets s dlyMs dep o90).1.length ≤ tapWords ∧ (tapSets s dlyMs dep o90).2.length ≤ tapWords := by
  have hT : s.params.T ≤ tapWords := Params.T_le s.params
  simpa [tapSets] using hT

theorem State.Inv.configure {s : State} (h : s.Inv) {ch : Nat} {fs : NUM} {mf : Nat} {md : NUM}
    (hv : cfgValid s.params ch fs mf md = true) : (configure ch fs mf md s).Inv := by
  obtain ⟨h1, h2, h3, h4, h5, h6, h7, h8, hN⟩ := (cfgValid_iff _ _ _ _ _).1 hv
  have hlines : ∀ l ∈ List.replicate ch ({ WC := 0, cells := [] } : Line), Line.sound (capacity md fs) l :=
    fun l hl => (List.eq_of_mem_replicate hl) ▸ Line.fresh_sound (capacity_pos md fs)
  exact ⟨h.1, State.formatSound_of_configured rfl
    ⟨⟨h1, h2, h3, h4, h5, h6, h7, h8, rfl, rfl, hN⟩, buildBank_length _ _, List.length_replicate, hlines⟩⟩

theorem State.Inv.deconfigure {s : State} (h : s.Inv) : (deconfigure s).Inv :=
  ⟨h.1, fun _ => ⟨rfl, rfl⟩, Bool.noConfusion⟩

theorem State.Inv.applyParam {s : State} (h : s.Inv) (p : Nat) (v : NUM) (n : Word) :
    (applyParam p v n s).Inv := by
  cases hc : s.STATUS.CFGD
  · rw [applyParam_eq, applyParam_L_of_unconfigured p v n hc]
    exact h
  · exact (applyParam_sound p v n (h.renderSound hc)).inv h (applyParam_changes p v n s) hc

theorem State.Inv.renderBody {s : State} (h : s.Inv) (hc : s.STATUS.CFGD = true) {F K : Nat}
    (hr : renderInContract s F K = true) : (renderBody F K s).Inv := by
  have hsound := h.renderSound hc
  obtain ⟨-, -, -, -, -, hmax, -⟩ := hsound.format
  have hF := ((renderInContract_iff s F K).1 hr).1
  exact (renderBody_sound hsound (hF.trans hmax)).inv h (renderBody_changes F K s) hc

theorem State.Inv.hardwareReset {s : State} (h : s.Inv) : (hardwareReset s).Inv := by
  obtain ⟨⟨hIN, hOUT, hEVQ, -⟩, -⟩ := h
  have hnil : Memory.wf [] ∧ Memory.within tapWords [] := ⟨Memory.wf_nil, by simp [Memory.within]⟩
  exact ⟨⟨hIN, hOUT, hEVQ, hnil, hnil⟩, fun _ => ⟨rfl, rfl⟩, Bool.noConfusion⟩

theorem Memory.write_sound {n : Nat} {m : Memory} (h : Memory.wf m ∧ Memory.within n m) {i : Nat} (hi : i < n)
    (v : Word) : Memory.wf (m.write i v) ∧ Memory.within n (m.write i v) :=
  ⟨Memory.write_wf h.1 i v, Memory.write_within h.2 hi v⟩

theorem CommandEffect.inv {i : Instr} {s t : State} (he : CommandEffect s i t) (h : s.Inv) : t.Inv := by
  cases he with
  | unconfigured | badSelector => exact h.raise _
  | answer | setRamp | stepRamp => exact h
  | readOutside => exact h.raise .E_RANGE
  | storeTaps => exact h.withTaps (tapSets_length ..).1 (tapSets_length ..).2 _
  | configure hv => exact h.configure hv
  | deconfigure => exact h.deconfigure
  | applyParam => exact h.applyParam _ _ _
  | writeSample hc => exact h.dlWrite hc _ _
  | setFrequency hc | increment hc => exact h.modifyOsc hc _ _
  | render hc hr => exact h.renderBody hc hr
  | renderOutOfContract hc =>
    have hP : (s.raise .E_PRECOND).havocOUT.havocP.Inv := (h.raise .E_PRECOND).havocOUT
    exact (hP.havocL hc).havocLines hc
  | renderUnconfigured => exact (h.raise .E_NOTCFG).havocOUT

theorem AccessEffect.inv {a : HostAccess} {s t : State} (he : AccessEffect s a t) (h : s.Inv) : t.Inv := by
  cases he with
  | command _ hx => exact hx.inv h
  | illegal => exact h.raise _
  | writeOPA | writeOPB | writeOPC | writeOPD => exact h
  | writeIN v hi =>
    obtain ⟨⟨hIN, hrest⟩, hfmt⟩ := h
    exact ⟨⟨Memory.write_sound hIN hi v, hrest⟩, hfmt⟩
  | writeOUT v hi =>
    obtain ⟨⟨hIN, hOUT, hrest⟩, hfmt⟩ := h
    exact ⟨⟨hIN, Memory.write_sound hOUT hi v, hrest⟩, hfmt⟩
  | writeEVQ v hi =>
    obtain ⟨⟨hIN, hOUT, hEVQ, hrest⟩, hfmt⟩ := h
    exact ⟨⟨hIN, hOUT, Memory.write_sound hEVQ hi v, hrest⟩, hfmt⟩
  | reset => exact h.hardwareReset

/-- Settles O53: a step waits or performs one host access, and each effect of an access keeps the invariant. -/
theorem stepKeepsTheInvariant : Obligations.StepKeepsTheInvariant := by
  intro s t h hstep
  rcases step_effect hstep with ⟨-, rfl⟩ | ⟨a, rest, -, he⟩
  · exact h
  · exact he.inv h

/-! ## STATUS -/

theorem Status.has_set_of_has {st : Status} {e : Err} (e' : Err) (h : st.has e = true) :
    (st.set e').has e = true := by
  rw [Status.has_set, h, Bool.or_true]

theorem Status.has_withCFGD (st : Status) (b : Bool) (e : Err) :
    ({ st with CFGD := b } : Status).has e = st.has e := by
  cases e <;> rfl

/-- Rendering can set E_RANGE and touches no other bit. -/
theorem RenderChanges.has {s t : State} (h : RenderChanges s t) {e : Err} (he : s.STATUS.has e = true) :
    t.STATUS.has e = true := by
  cases e with
  | E_RANGE => exact h.2 he
  | E_ILL | E_NOTCFG | E_SEL | E_PRECOND => rw [h.1]; exact he

/-- No command clears a sticky bit, CFG included (R36). -/
theorem CommandEffect.has {i : Instr} {s t : State} (hx : CommandEffect s i t) {e : Err}
    (he : s.STATUS.has e = true) : t.STATUS.has e = true := by
  cases hx with
  | unconfigured | badSelector | readOutside | renderOutOfContract | renderUnconfigured =>
    exact Status.has_set_of_has _ he
  | configure => exact (Status.has_withCFGD _ _ _).trans he
  | deconfigure => exact (Status.has_withCFGD _ _ _).trans (Status.has_set_of_has _ he)
  | applyParam => exact (applyParam_changes _ _ _ _).has he
  | render => exact (renderBody_changes _ _ _).has he
  | answer | storeTaps | setRamp | stepRamp | writeSample | setFrequency | increment => exact he

theorem AccessEffect.has {a : HostAccess} {s t : State} (hx : AccessEffect s a t) (ha : a ≠ .reset) {e : Err}
    (he : s.STATUS.has e = true) : t.STATUS.has e = true := by
  cases hx with
  | command _ hx => exact hx.has he
  | illegal => exact Status.has_set_of_has _ he
  | writeOPA | writeOPB | writeOPC | writeOPD | writeIN | writeOUT | writeEVQ => exact he
  | reset => exact absurd rfl ha

/-- Settles O42: every effect but hardware reset's keeps each sticky bit, and `raise` is one update of STATUS. -/
theorem stickyBitsStaySetUntilReset : Obligations.StickyBitsStaySetUntilReset := by
  refine ⟨fun s t hstep hreset e he => ?_, fun s e => ?_⟩
  · rcases step_effect hstep with ⟨-, rfl⟩ | ⟨a, rest, hin, hx⟩
    · exact he
    · exact hx.has (by rintro rfl; exact hreset rest hin) he
  · refine ⟨rfl, by simp [Status.has_set], Status.set_CFGD _ _, fun e' hne => ?_⟩
    simp [Status.has_set, hne.symm]

/-- CFG alone changes CFGD (R37). -/
theorem CommandEffect.CFGD {i : Instr} {s t : State} (hx : CommandEffect s i t) (hi : i ≠ .cfg) :
    t.STATUS.CFGD = s.STATUS.CFGD := by
  cases hx with
  | unconfigured | badSelector | readOutside | renderOutOfContract | renderUnconfigured =>
    exact Status.set_CFGD _ _
  | configure | deconfigure => exact absurd rfl hi
  | applyParam => exact (applyParam_changes _ _ _ _).CFGD
  | render => exact (renderBody_changes _ _ _).CFGD
  | answer | storeTaps | setRamp | stepRamp | writeSample | setFrequency | increment => rfl

/-- Settles O43: of the effects only CFG's two write CFGD, and the valid one alone writes 1. -/
theorem cfgdSaysTheLastCfgWasValid : Obligations.CfgdSaysTheLastCfgWasValid := by
  intro i s t h
  refine ⟨(effect_of_exec h).CFGD, ?_⟩
  rintro rfl
  cases hv : cfgValid s.params s.OPA.toNat s.OPB s.OPC.toNat s.OPD
  · rw [exec_cfg_invalid hv] at h
    cases h
    simp
  · rw [exec_cfg_valid hv] at h
    cases h
    simp [configure]

/-! ## Which command writes which state -/

/-- `t` has the operand registers, the host's memories, the parameters and the accesses to come of `s`. -/
def KeepsHostState (s t : State) : Prop :=
  t.OPA = s.OPA ∧ t.OPB = s.OPB ∧ t.OPC = s.OPC ∧ t.OPD = s.OPD ∧ t.IN = s.IN ∧ t.EVQ = s.EVQ ∧
    t.params = s.params ∧ t.inputs = s.inputs

theorem KeepsHostState.refl (s : State) : KeepsHostState s s := ⟨rfl, rfl, rfl, rfl, rfl, rfl, rfl, rfl⟩

theorem RenderChanges.keepsHostState {s t : State} (h : RenderChanges s t) : KeepsHostState s t := by
  rw [h.1]
  exact KeepsHostState.refl s

theorem CommandEffect.keepsHostState {i : Instr} {s t : State} (hx : CommandEffect s i t) :
    KeepsHostState s t := by
  cases hx with
  | applyParam => exact (applyParam_changes _ _ _ _).keepsHostState
  | render => exact (renderBody_changes _ _ _).keepsHostState
  | _ => exact KeepsHostState.refl s

/-- Settles O46: every command has an effect, and none of the effects writes what is the host's. -/
theorem commandsCompleteAndKeepTheHostsState : Obligations.CommandsCompleteAndKeepTheHostsState := by
  intro i s
  obtain ⟨t, ht, hx⟩ := exec_effect i s
  exact ⟨t, ht, hx.keepsHostState⟩

section Writers

variable {i : Instr} {s t : State} (hx : CommandEffect s i t)
include hx

/-- RES is written by the commands with a result (R33). -/
theorem CommandEffect.RES (hi : i.writesRES = false) : t.RES = s.RES := by
  cases hx with
  | answer v hv => rw [hi] at hv; cases hv
  | readOutside | storeTaps | stepRamp => cases hi
  | applyParam => rw [(applyParam_changes _ _ _ _).1]
  | render => rw [(renderBody_changes _ _ _).1]
  | _ => rfl

/-- The format is written by CFG (R38). -/
theorem CommandEffect.fmt (hi : i ≠ .cfg) : t.fmt = s.fmt := by
  cases hx with
  | configure => exact absurd rfl hi
  | applyParam => exact (applyParam_changes _ _ _ _).fmt
  | render => exact (renderBody_changes _ _ _).fmt
  | _ => rfl

/-- The tap memories are written by TAPS (20_memory.md R70). -/
theorem CommandEffect.tapMemories (hi : i ≠ .taps) : t.TAPE = s.TAPE ∧ t.TAPO = s.TAPO := by
  cases hx with
  | storeTaps => exact absurd rfl hi
  | applyParam => rw [(applyParam_changes _ _ _ _).1]; exact ⟨rfl, rfl⟩
  | render => rw [(renderBody_changes _ _ _).1]; exact ⟨rfl, rfl⟩
  | _ => exact ⟨rfl, rfl⟩

/-- OUT is written by RENDER (20_memory.md R70). -/
theorem CommandEffect.OUT (hi : i ≠ .render) : t.OUT = s.OUT := by
  cases hx with
  | render | renderOutOfContract | renderUnconfigured => exact absurd rfl hi
  | applyParam => exact applyParam_OUT _ _ _ _
  | _ => rfl

/-- The delay lines are written by CFG, DLWR and RENDER (R45). -/
theorem CommandEffect.lines (hcfg : i ≠ .cfg) (hrender : i ≠ .render) (hdlwr : ∀ c, i ≠ .dlwr c) :
    t.lines = s.lines := by
  cases hx with
  | configure | deconfigure => exact absurd rfl hcfg
  | render | renderOutOfContract => exact absurd rfl hrender
  | writeSample => exact absurd rfl (hdlwr _)
  | applyParam => rw [applyParam_eq]
  | _ => rfl

/-- The bank is written by CFG, SETP, LFOSF, LFOINC and RENDER (R45). -/
theorem CommandEffect.L (hcfg : i ≠ .cfg) (hrender : i ≠ .render) (hsetp : ∀ p, i ≠ .setp p)
    (hlfosf : ∀ k, i ≠ .lfosf k) (hlfoinc : ∀ k, i ≠ .lfoinc k) : t.L = s.L := by
  cases hx with
  | configure | deconfigure => exact absurd rfl hcfg
  | render | renderOutOfContract => exact absurd rfl hrender
  | applyParam => exact absurd rfl (hsetp _)
  | setFrequency => exact absurd rfl (hlfosf _)
  | increment => exact absurd rfl (hlfoinc _)
  | _ => rfl

/-- The parameter file is written by SETP, RPSET, RPFRM and RENDER (R45). -/
theorem CommandEffect.P (hrender : i ≠ .render) (hsetp : ∀ p, i ≠ .setp p) (hrpset : ∀ p, i ≠ .rpset p)
    (hrpfrm : ∀ p, i ≠ .rpfrm p) : t.P = s.P := by
  cases hx with
  | render | renderOutOfContract | renderUnconfigured => exact absurd rfl hrender
  | applyParam => exact absurd rfl (hsetp _)
  | setRamp => exact absurd rfl (hrpset _)
  | stepRamp => exact absurd rfl (hrpfrm _)
  | _ => rfl

end Writers

/-- Settles O47, one lemma for each element. -/
theorem eachStateElementHasItsWriters : Obligations.EachStateElementHasItsWriters := by
  intro i s t h
  have hx := effect_of_exec h
  exact ⟨hx.RES, hx.fmt, hx.tapMemories, hx.OUT, hx.lines, hx.L, hx.P⟩

/-! ## The host's register accesses -/

/-- Settles O6: a write of CMD is issued, and issuing a legal word performs the command it decodes to. -/
theorem stepPerformsTheIssuedCommand : Obligations.StepPerformsTheIssuedCommand := by
  intro s w i rest hw
  change issue w { s with inputs := rest } = _
  rw [issue, hw]

/-- Settles O7: each access of a register other than CMD is one arm of `hostWriteOperand` or `hostReadReg`. -/
theorem hostWritesOperandRegistersOnly : Obligations.HostWritesOperandRegistersOnly := fun _ _ _ =>
  ⟨rfl, rfl, rfl, rfl, rfl, rfl, rfl, rfl, rfl, rfl, rfl, rfl, rfl⟩

end Sys2Proof.Machine
end

section
/-!
PROOFS, 20_memory.md. The host's writes and reads of memory words; and no command reads OUT: two runs that start
with different words in OUT keep everything else equal.
-/

namespace Sys2Proof.Machine

/-! ## The host's memory accesses -/

/-- A written word inside a space of n words reads back. -/
theorem Memory.host_read_write {n i : Nat} (hi : i < n) (m : Memory) (v : Word) :
    (if i < n then some ((m.write i v).read i) else none) = some v := by
  rw [if_pos hi, Memory.read_write_same]

/-- Settles O8: each space is one arm of `hostWriteWord` and of `hostReadWord`, bounded by the size of the space. -/
theorem hostWritesInOutAndEvqOnly : Obligations.HostWritesInOutAndEvqOnly := by
  intro s i v rest
  refine ⟨fun hi => ⟨?_, ?_⟩, fun hi => ⟨if_neg (Nat.not_lt.2 hi), if_neg (Nat.not_lt.2 hi)⟩, fun hi => ?_,
    fun hi => if_neg (Nat.not_lt.2 hi), rfl, rfl, rfl, rfl, rfl, rfl, rfl, rfl, rfl⟩
  · exact ⟨{ s with inputs := rest, IN := s.IN.write i v }, if_pos hi, rfl, s.IN.host_read_write hi v,
      fun _ hj => s.IN.read_write_other v hj⟩
  · exact ⟨{ s with inputs := rest, OUT := s.OUT.write i v }, if_pos hi, rfl, s.OUT.host_read_write hi v,
      fun _ hj => s.OUT.read_write_other v hj⟩
  · exact ⟨{ s with inputs := rest, EVQ := s.EVQ.write i v }, if_pos hi, rfl, s.EVQ.host_read_write hi v,
      fun _ hj => s.EVQ.read_write_other v hj⟩

/-! ## Two runs apart in OUT -/

/-- `t` is `s` but for OUT; and of two runs that began with the words `m` and `m'` in OUT, each word of OUT is left
by both or has the same value in both. -/
structure OutApart (m m' : Memory) (s t : State) : Prop where
  rest : t = { s with OUT := t.OUT }
  words : ∀ j, (s.OUT.read j = m.read j ∧ t.OUT.read j = m'.read j) ∨ t.OUT.read j = s.OUT.read j

/-- Runs that have left OUT as it was. -/
theorem OutApart.left {m m' : Memory} {s t : State} (hs : s.OUT = m) (ht : t = { s with OUT := m' }) :
    OutApart m m' s t := by
  subst hs ht
  exact ⟨rfl, fun _ => .inl ⟨rfl, rfl⟩⟩

/-- Runs that have met, as after a havoc of OUT. -/
theorem OutApart.met (m m' : Memory) (s : State) : OutApart m m' s s := ⟨rfl, fun _ => .inr rfl⟩

section Pairs

variable {m m' : Memory} {s t : State} (h : OutApart m m' s t)
include h

theorem OutApart.sameCore : SameCore s t := by
  rw [h.rest]
  exact ⟨rfl, rfl, rfl, rfl, rfl, rfl, rfl⟩

theorem OutApart.EVQ : t.EVQ = s.EVQ := by rw [h.rest]

theorem OutApart.inSample (c f : Nat) : t.inSample c f = s.inSample c f := by
  rw [h.rest]
  rfl

theorem OutApart.eventOFS (k : Nat) : eventOFS t k = eventOFS s k := by rw [Machine.eventOFS, h.EVQ]; rfl

/-- An operation that changes what rendering may, from the core alone, and that leaves or equalises each word of
OUT, keeps the runs apart in OUT only. -/
theorem OutApart.operation {s' t' : State} (hs : RenderChanges s s') (ht : RenderChanges t t')
    (hcore : SameCore s' t')
    (hwords : ∀ j, (s'.OUT.read j = s.OUT.read j ∧ t'.OUT.read j = t.OUT.read j) ∨
      t'.OUT.read j = s'.OUT.read j) : OutApart m m' s' t' := by
  refine ⟨?_, fun j => ?_⟩
  · rw [ht.1, hs.1, hcore.P, hcore.L, hcore.lines, hcore.STATUS, hcore.draws, h.rest]
  · rcases hwords j with ⟨hs', ht'⟩ | heq
    · rw [hs', ht']
      exact h.words j
    · exact .inr heq

theorem OutApart.leavingOUT {s' t' : State} (hs : RenderChanges s s') (ht : RenderChanges t t')
    (hcore : SameCore s' t') (hsO : s'.OUT = s.OUT) (htO : t'.OUT = t.OUT) : OutApart m m' s' t' :=
  h.operation hs ht hcore fun _ => .inl ⟨by rw [hsO], by rw [htO]⟩

theorem OutApart.raise (e : Err) : OutApart m m' (s.raise e) (t.raise e) := by
  refine ⟨?_, h.words⟩
  rw [h.rest]
  rfl

theorem OutApart.setRES (v : Word) : OutApart m m' (s.setRES v) (t.setRES v) := by
  refine ⟨?_, h.words⟩
  rw [h.rest]
  rfl

theorem OutApart.ifConfigured {b b' : State} (hb : OutApart m m' b b') :
    OutApart m m' (s.ifConfigured b) (t.ifConfigured b') := by
  unfold State.ifConfigured
  rw [h.sameCore.STATUS]
  split
  · exact hb
  · exact h.raise .E_NOTCFG

theorem OutApart.ifSelects {b b' : State} (ok : Bool) (hb : OutApart m m' b b') :
    OutApart m m' (s.ifSelects ok b) (t.ifSelects ok b') := by
  cases ok
  · exact h.raise .E_SEL
  · exact hb

/-- The two checks before a test-port command read STATUS and the selector. -/
theorem OutApart.checks {b b' : State} (ok : Bool) (hb : OutApart m m' b b') :
    OutApart m m' (s.ifConfigured (s.ifSelects ok b)) (t.ifConfigured (t.ifSelects ok b')) :=
  h.ifConfigured (h.ifSelects ok hb)

theorem OutApart.applyParam (p : Nat) (v : NUM) (n : Word) :
    OutApart m m' (applyParam p v n s) (applyParam p v n t) :=
  h.leavingOUT (applyParam_changes ..) (applyParam_changes ..) (h.sameCore.applyParam p v n)
    (applyParam_OUT ..) (applyParam_OUT ..)

/-- DLRD's read: the same value, and states apart in OUT only. -/
theorem OutApart.dlRead (c : Nat) (x : NUM) :
    OutApart m m' ((dlRead c x s).2.setRES (dlRead c x s).1) ((dlRead c x t).2.setRES (dlRead c x t).1) := by
  obtain ⟨hvalue, hcore⟩ := h.sameCore.dlRead c x
  rw [hvalue]
  exact (h.leavingOUT (dlRead_changes c x s) (dlRead_changes c x t) hcore (by rw [dlRead_state])
    (by rw [dlRead_state])).setRES _

/-! ## RENDER -/

theorem OutApart.applyEvent (k : Nat) : OutApart m m' (applyEvent k s) (applyEvent k t) := by
  unfold Machine.applyEvent eventPID eventVAL eventRMP
  rw [h.EVQ]
  exact h.applyParam _ _ _

/-- A frame writes the same samples in both runs, and no other word of OUT. -/
theorem OutApart.renderFrame (f : Nat) : OutApart m m' (renderFrame f s) (renderFrame f t) := by
  obtain ⟨hcore, hsamples⟩ := h.sameCore.renderFrame (f := f) (g := f) fun c _ => h.inSample c f
  refine h.operation (renderFrame_changes f s) (renderFrame_changes f t) hcore fun j => ?_
  by_cases hj : ∃ c, c < s.fmt.C ∧ j = s.sampleIndex c f
  · obtain ⟨c, hc, rfl⟩ := hj
    have hsample := hsamples c hc
    simp only [State.outSample, State.sampleIndex, hcore.params, (renderFrame_changes f s).params] at hsample
    exact .inr hsample
  · have hother : ∀ c, c < s.fmt.C → j ≠ s.sampleIndex c f := fun c hc hjc => hj ⟨c, hc, hjc⟩
    refine .inl ⟨renderFrame_outOnly f s j hother, renderFrame_outOnly f t j ?_⟩
    simpa only [State.sampleIndex, h.sameCore.params, h.sameCore.fmt] using hother

end Pairs

section Runs

variable {m m' : Memory} {s t : State}

theorem OutApart.applyEvents (es : List Nat) (h : OutApart m m' s t) :
    OutApart m m' (applyEvents es s) (applyEvents es t) := by
  induction es generalizing s t with
  | nil => exact h
  | cons k es ih => exact ih (h.applyEvent k)

theorem OutApart.applyDue (f : Nat) (es : List Nat) (h : OutApart m m' s t) :
    (applyDue f es t).1 = (applyDue f es s).1 ∧
      OutApart m m' (applyDue f es s).2 (applyDue f es t).2 := by
  induction es generalizing s t with
  | nil => exact ⟨rfl, h⟩
  | cons k es ih =>
    simp only [Machine.applyDue, h.eventOFS]
    split
    · exact ih (h.applyEvent k)
    · exact ⟨rfl, h⟩

theorem OutApart.renderFrames (n f : Nat) (es : List Nat) (h : OutApart m m' s t) :
    (renderFrames n f es t).1 = (renderFrames n f es s).1 ∧
      OutApart m m' (renderFrames n f es s).2 (renderFrames n f es t).2 := by
  induction n generalizing f es s t with
  | zero => exact ⟨rfl, h⟩
  | succ n ih =>
    obtain ⟨hleft, hdue⟩ := h.applyDue f es
    simp only [Machine.renderFrames, hleft]
    exact ih (f + 1) _ (hdue.renderFrame f)

theorem OutApart.renderBody (F K : Nat) (h : OutApart m m' s t) :
    OutApart m m' (renderBody F K s) (renderBody F K t) := by
  obtain ⟨hleft, hframes⟩ := h.renderFrames F 0 (List.range K)
  simp only [Machine.renderBody, hleft]
  exact hframes.applyEvents _

end Runs

/-! ## The commands -/

theorem storeTaps_outApart (s : State) (m : Memory) (dlyMs dep : NUM) (o90 : Bool) :
    OutApart s.OUT m (storeTaps dlyMs dep o90 s) (storeTaps dlyMs dep o90 { s with OUT := m }) := by
  unfold storeTaps
  cases tapBypass s.params dlyMs dep <;> exact .left rfl rfl

/-- A command from a state and from the same state with `m` in OUT: RENDER alone writes OUT, and it havocs it or
writes it frame by frame. -/
theorem exec_outApart (i : Instr) (s : State) (m : Memory) :
    ∃ t t', exec i s = .next t ∧ exec i { s with OUT := m } = .next t' ∧ OutApart s.OUT m t t' := by
  have hstart : OutApart s.OUT m s { s with OUT := m } := .left rfl rfl
  cases i with
  | cfg =>
    cases hv : cfgValid s.params s.OPA.toNat s.OPB s.OPC.toNat s.OPD
    · exact ⟨_, _, exec_cfg_invalid hv, exec_cfg_invalid (s := { s with OUT := m }) hv, .left rfl rfl⟩
    · exact ⟨_, _, exec_cfg_valid hv, exec_cfg_valid (s := { s with OUT := m }) hv, .left rfl rfl⟩
  | setp id => exact ⟨_, _, rfl, rfl, hstart.applyParam id s.OPA s.OPB⟩
  | render =>
    cases hc : s.STATUS.CFGD
    · exact ⟨_, _, exec_render_unconfigured hc, exec_render_unconfigured (s := { s with OUT := m }) hc,
        .met _ _ _⟩
    · cases hr : renderInContract s s.OPA.toNat s.OPB.toNat
      · exact ⟨_, _, exec_render_outOfContract hc hr,
          exec_render_outOfContract (s := { s with OUT := m }) hc hr, .met _ _ _⟩
      · exact ⟨_, _, exec_render_inContract hc hr,
          exec_render_inContract (s := { s with OUT := m }) hc hr, hstart.renderBody _ _⟩
  | rdstat => exact ⟨_, _, rfl, rfl, hstart.setRES _⟩
  | getp id | rpset id | rpfrm id | rpget id =>
    refine ⟨_, _, rfl, rfl, ?_⟩
    cases ParamId.ofNat? id <;> exact .left rfl rfl
  | dlrd c => exact ⟨_, _, rfl, rfl, hstart.checks _ (hstart.dlRead c s.OPA)⟩
  | dlwr _ | lfosf _ | lfov _ | lfoq _ | lfoinc _ => exact ⟨_, _, rfl, rfl, hstart.checks _ (.left rfl rfl)⟩
  | taps => exact ⟨_, _, rfl, rfl, hstart.ifConfigured (storeTaps_outApart s m _ _ _)⟩

/-- Settles O41: the two runs end apart in OUT only, and there each word is left by both or the same in both. -/
theorem noCommandReadsOut : Obligations.NoCommandReadsOut := by
  intro i s m t h
  obtain ⟨u, t', hu, ht', hapart⟩ := exec_outApart i s m
  rw [h] at hu
  cases hu
  exact ⟨t', ht', hapart.rest, fun j _ => hapart.words j⟩

end Sys2Proof.Machine
end

section
/-!
PROOFS, 30_encoding.md. The words the decoder accepts, by their three fields; which words are illegal, and what a step
does with one; the words the assembler writes.
-/

namespace Sys2Proof

/-! ## What decodes -/

/-- The row of a command's own OPCODE is that command, or takes its selector to it (R103). -/
theorem opcodeRow_opcode (i : Instr) :
    (opcodeRow i.opcode = some (.plain i) ∧ i.sel = 0) ∨
      ∃ f, opcodeRow i.opcode = some (.withSel f) ∧ f i.sel = i := by
  cases i with
  | cfg | render | rdstat | taps => exact .inl ⟨rfl, rfl⟩
  | setp _ | getp _ | dlwr _ | dlrd _ | lfosf _ | lfov _ | lfoq _ | lfoinc _ | rpset _ | rpfrm _ | rpget _ =>
    exact .inr ⟨_, rfl, rfl⟩

/-- A word decodes to the command whose OPCODE and selector are its fields, if its MBZ field is zero (R109). -/
theorem decode_eq_ok_iff {w : Word} {i : Instr} :
    decode w = .ok i ↔ mbzField w = 0 ∧ opcodeField w = i.opcode ∧ selField w = i.sel := by
  constructor
  · intro h
    unfold decode at h
    split at h
    · cases h
    · rename_i hm
      refine ⟨not_not.1 hm, ?_⟩
      split at h
      · cases h
      · rename_i f hrow
        cases h
        obtain ⟨hop, hsel⟩ := opcodeRow_withSel hrow (selField w)
        exact ⟨hop.symm, hsel.symm⟩
      · rename_i j hrow
        split at h
        · cases h
        · rename_i hs
          cases h
          obtain ⟨hop, hsel⟩ := opcodeRow_plain hrow
          exact ⟨hop.symm, (not_not.1 hs).trans hsel.symm⟩
  · rintro ⟨hm, hop, hsel⟩
    rcases opcodeRow_opcode i with ⟨hrow, h0⟩ | ⟨f, hrow, hf⟩
    · simp [decode, hm, hop, hrow, hsel, h0]
    · simp [decode, hm, hop, hrow, hsel, hf]

theorem selField_lt (w : Word) : selField w < 256 := (w.extractLsb' 16 8).isLt

theorem mbzField_lt (w : Word) : mbzField w < 65536 := (w.extractLsb' 0 16).isLt

/-! ## Which words are illegal -/

/-- The fifteen OPCODEs (R103). -/
abbrev opcodes : List Nat :=
  [0x01, 0x02, 0x03, 0x04, 0x05, 0x10, 0x11, 0x20, 0x21, 0x22, 0x23, 0x30, 0x31, 0x32, 0x40]

/-- The OPCODEs of the commands without a selector: CFG, RENDER, RDSTAT, TAPS (R101, R107 (c)). -/
abbrev plainOpcodes : List Nat := [0x01, 0x04, 0x05, 0x40]

theorem opcodeRow_isSome : ∀ op ∈ opcodes, (opcodeRow op).isSome = true := by decide

/-- The OPCODE and SEL of some command: an OPCODE of the fifteen, and SEL 0 where there is no selector
(R101, R103). -/
theorem exists_opcode_sel_iff {op sel : Nat} :
    (∃ i : Instr, i.opcode = op ∧ i.sel = sel) ↔
      op ∈ opcodes ∧ (op ∈ plainOpcodes → sel = 0) := by
  constructor
  · rintro ⟨i, rfl, rfl⟩
    constructor
    · cases i <;> simp [Instr.opcode]
    · intro hplain
      cases i with
      | cfg | render | rdstat | taps => rfl
      | _ => simp [Instr.opcode] at hplain
  · rintro ⟨hop, hsel⟩
    obtain ⟨row, hrow⟩ := Option.isSome_iff_exists.1 (opcodeRow_isSome op hop)
    cases row with
    | withSel f => exact ⟨f sel, opcodeRow_withSel hrow sel⟩
    | plain i =>
      obtain ⟨rfl, hi⟩ := opcodeRow_plain hrow
      have hplain : i.opcode ∈ plainOpcodes := by
        cases i with
        | cfg | render | rdstat | taps => decide
        | _ => cases hrow
      exact ⟨i, rfl, hi.trans (hsel hplain).symm⟩

/-- The top byte of a word is its OPCODE (R100). -/
theorem shiftRight_24_toNat (w : Word) : (w >>> 24).toNat = opcodeField w := by
  rw [BitVec.toNat_ushiftRight, Nat.shiftRight_eq_div_pow, opcodeField_eq]

/-- A mask with a word's three fields keeps the masked fields (R100). -/
theorem and_mask (w : Word) (op sel : BitVec 8) (mbz : BitVec 16) :
    w &&& (op ++ sel ++ mbz : Word) =
      ((BitVec.ofNat 8 (opcodeField w) &&& op) ++ (BitVec.ofNat 8 (selField w) &&& sel) ++
        (BitVec.ofNat 16 (mbzField w) &&& mbz) : Word) := by
  conv_lhs => rw [← wordOf_fields w]
  exact BitVec.and_append.trans (congrArg (· ++ _) BitVec.and_append)

/-- The low half of a word is its MBZ field (R100). -/
theorem and_mbzMask (w : Word) : w &&& 0xFFFF#32 = wordOf 0 0 (mbzField w) := by
  have h := and_mask w 0#8 0#8 (BitVec.allOnes 16)
  rwa [BitVec.and_zero, BitVec.and_zero, BitVec.and_allOnes] at h

/-- Bits 23:16 of a word are its SEL field (R100). -/
theorem and_selMask (w : Word) : w &&& 0xFF0000#32 = wordOf 0 (selField w) 0 := by
  have h := and_mask w 0#8 (BitVec.allOnes 8) 0#16
  rwa [BitVec.and_zero, BitVec.and_allOnes, BitVec.and_zero] at h

theorem and_mbzMask_eq_zero (w : Word) : w &&& 0xFFFF#32 = 0#32 ↔ mbzField w = 0 := by
  rw [and_mbzMask, ← BitVec.toNat_inj, wordOf_toNat (by norm_num) (by norm_num) (mbzField_lt w)]
  simp

theorem and_selMask_eq_zero (w : Word) : w &&& 0xFF0000#32 = 0#32 ↔ selField w = 0 := by
  rw [and_selMask, ← BitVec.toNat_inj, wordOf_toNat (by norm_num) (selField_lt w) (by norm_num)]
  simp

/-- Which words decode, by their fields (R107). -/
theorem exists_decode_iff (w : Word) :
    (∃ i, decode w = .ok i) ↔
      opcodeField w ∈ opcodes ∧ mbzField w = 0 ∧ (opcodeField w ∈ plainOpcodes → selField w = 0) := by
  have hfields : (∃ i, decode w = .ok i) ↔
      mbzField w = 0 ∧ ∃ i : Instr, i.opcode = opcodeField w ∧ i.sel = selField w := by
    simp only [decode_eq_ok_iff, exists_and_left, eq_comm (b := Instr.opcode _), eq_comm (b := Instr.sel _)]
  rw [hfields, exists_opcode_sel_iff, and_left_comm]

end Sys2Proof

namespace Sys2Proof.Machine

/-- Settles O1: the fields of the word of a well-formed command are that command's, and the fields decide what a word
decodes to. -/
theorem decodeOfEncodeGivesTheCommand : Obligations.DecodeOfEncodeGivesTheCommand := fun i h =>
  decode_eq_ok_iff.2 ⟨encode_mbzField i h, encode_opcodeField i h, encode_selField i h⟩

/-- Settles O2: a word is its three fields, and those of a legal word are its command's, with MBZ zero. -/
theorem legalWordIsTheWordOfItsCommand : Obligations.LegalWordIsTheWordOfItsCommand := by
  intro w i h
  obtain ⟨hmbz, hop, hsel⟩ := decode_eq_ok_iff.1 h
  constructor
  · calc encode i = wordOf i.opcode i.sel 0 := encode_eq i
      _ = wordOf (opcodeField w) (selField w) (mbzField w) := by rw [hop, hsel, hmbz]
      _ = w := wordOf_fields w
  · have hlt := selField_lt w
    rw [hsel] at hlt
    exact decide_eq_true hlt

/-- Issuing an illegal word raises E_ILL, whichever reason makes it illegal (R107). -/
theorem issue_illegal {w : Word} (h : ∀ i, decode w ≠ .ok i) (s : State) :
    issue w s = .next (s.raise .E_ILL) := by
  cases hw : decode w with
  | ok i => exact absurd hw (h i)
  | error why =>
    rw [issue, hw]
    rfl

/-- Settles O3: the illegal words are those that are no command's by their fields, and issuing one is the raise of
E_ILL alone. -/
theorem illegalWordsRaiseEIllAndNothingElse : Obligations.IllegalWordsRaiseEIllAndNothingElse := by
  intro w
  constructor
  · have hlegal := exists_decode_iff w
    rw [← shiftRight_24_toNat, ← and_mbzMask_eq_zero, ← and_selMask_eq_zero] at hlegal
    have hillegal : (∀ i, decode w ≠ .ok i) ↔ ¬ ∃ i, decode w = .ok i := not_exists.symm
    rw [hillegal, hlegal, not_and_or, not_and_or, Classical.not_imp]
  · intro s rest h
    exact issue_illegal h { s with inputs := rest }

/-- Settles O4: each word's MBZ field is zero, its OPCODE and SEL fields are the command's. -/
theorem writtenOutWordsDecode : Obligations.WrittenOutWordsDecode := by
  unfold Obligations.WrittenOutWordsDecode
  simp only [decode_eq_ok_iff]
  decide

/-! ## The assembler -/

/-! The binary32 words of the decimals in the examples of R110. -/

theorem decimal_48000_word : (NumLit.decimal false 480000 1).word = 0x473B8000#32 := by decide +kernel
theorem decimal_20_word : (NumLit.decimal false 200 1).word = 0x41A00000#32 := by decide +kernel
theorem decimal_5_word : (NumLit.decimal false 50 1).word = 0x40A00000#32 := by decide +kernel
theorem decimal_2_5_word : (NumLit.decimal false 25 1).word = 0x40200000#32 := by decide +kernel

/-- LFOINCALL is LFOINC for each oscillator in order (R111). -/
theorem assemble_lfoincall (p : Params) :
    Statement.assemble p .lfoincall = (List.range p.T).flatMap fun i => Statement.assemble p (.lfoinc i) :=
  List.map_eq_flatMap

/-- Settles O5: the examples are the words of their literals and of their commands; SETPI, RENDERN and RPSETI
assemble as what they stand for does. -/
theorem assemblerWritesOperandsThenTheCommand : Obligations.AssemblerWritesOperandsThenTheCommand := by
  intro p id v F
  refine ⟨?cfg, ?setp, ?dlrd, rfl, rfl, assemble_lfoincall p, rfl⟩
  case cfg =>
    rw [Statement.assemble, decimal_48000_word, decimal_20_word]
    rfl
  case setp =>
    rw [Statement.assemble, decimal_5_word]
    rfl
  case dlrd =>
    rw [Statement.assemble, decimal_2_5_word]
    rfl

end Sys2Proof.Machine
end

section
/-!
PROOFS, 40_delay_line.md. The capacity and the slots of a line, the cubic at a zero fraction, and the test-port
commands DLWR and DLRD.
-/

namespace Sys2Proof.Machine

/-! ## The capacity (R140) -/

theorem NUM.real_pos_of_lt {x : NUM} (hx : NUM.isFinite x = true) (h : NUM.lt NUM.zero x = true) :
    0 < NUM.real x := by
  rw [NUM.lt_iff_finite (by decide) (NUM.isNaN_of_finite hx), NUM.key_lt_iff_real] at h
  rwa [(NUM.real_eq_zero NUM.zero).2 (by decide)] at h

/-- A positive value is its magnitude, in units of 2^-149. -/
theorem NUM.real_of_pos {x : NUM} (h : 0 < NUM.real x) : NUM.real x = NUM.mag x / 2 ^ 149 := by
  have hmag : (0 : ℚ) ≤ NUM.mag x / 2 ^ 149 := by positivity
  rw [NUM.real_eq] at h ⊢
  split at h
  · linarith
  · exact if_neg ‹_›

/-- Division rounding up is the ceiling of the exact quotient: both are the least c with n ≤ c × d. -/
theorem cast_add_pred_div (n : ℕ) {d : ℕ} (hd : 0 < d) : (((n + (d - 1)) / d : ℕ) : ℤ) = ⌈(n / d : ℚ)⌉ := by
  rw [← Int.natCast_ceil_eq_ceil (by positivity), Nat.cast_inj, ← Nat.add_sub_assoc hd,
    ← Nat.ceilDiv_eq_add_pred_div]
  refine eq_of_forall_ge_iff fun c => ?_
  rw [ceilDiv_le_iff_le_mul hd, Nat.ceil_le, div_le_iff₀ (Nat.cast_pos.2 hd), mul_comm]
  exact_mod_cast Iff.rfl

/-- Settles O16: the model divides the exact product of the magnitudes, rounding up. -/
theorem capacityIsTheExactCeiling : Obligations.CapacityIsTheExactCeiling := by
  intro md fs hmd hfs hmd0 hfs0
  have hden : 0 < 1000 * (NUM.one149 * NUM.one149) := by simp [NUM.one149]
  rw [capacity, Nat.cast_succ, cast_add_pred_div _ hden, NUM.real_of_pos (NUM.real_pos_of_lt hmd hmd0),
    NUM.real_of_pos (NUM.real_pos_of_lt hfs hfs0)]
  push_cast
  rw [cast_one149]
  congr 2
  field_simp

/-- A configured line has at least two slots (R140: the ceiling of a positive number is at least 1). -/
theorem two_le_capacity {md fs : NUM} (hmd : NUM.isFinite md = true) (hfs : NUM.isFinite fs = true)
    (hmd0 : NUM.lt NUM.zero md = true) (hfs0 : NUM.lt NUM.zero fs = true) : 2 ≤ capacity md fs := by
  have hcap := capacityIsTheExactCeiling md fs hmd hfs hmd0 hfs0
  have hmd' := NUM.real_pos_of_lt hmd hmd0
  have hfs' := NUM.real_pos_of_lt hfs hfs0
  have hceil : 0 < ⌈2 * NUM.real md * NUM.real fs / 1000⌉ := Int.ceil_pos.2 (by positivity)
  omega

/-! ## The slots (R141) -/

theorem cast_slot (p : Params) {N : Nat} (WC : Nat) (k : Int) (hN : 0 < N) :
    (slot p N WC k : Int) = ((WC : Int) - readBias p - k) % N :=
  Int.toNat_of_nonneg (Int.emod_nonneg _ (by omega))

theorem slot_lt (p : Params) {N : Nat} (WC : Nat) (k : Int) (hN : 0 < N) : slot p N WC k < N := by
  have hlt := Int.emod_lt_of_pos ((WC : Int) - readBias p - k) (b := N) (by omega)
  rw [← cast_slot p WC k hN] at hlt
  omega

/-- Settles O17: the remainder modulo N lies in 0..N−1 and differs from its dividend by a multiple of N. -/
theorem slotIsTheOffsetModuloN : Obligations.SlotIsTheOffsetModuloN := by
  intro p N WC k hWC
  have hN : 0 < N := by omega
  refine ⟨slot_lt p WC k hN, -(((WC : Int) - readBias p - k) / N), ?_⟩
  rw [cast_slot p WC k hN, Int.emod_def, readBias]
  push_cast
  ring

/-- The slot of the sample just written: the cursor has moved on, the read bias stands for one more slot. -/
theorem slot_last_written (p : Params) {N WC : Nat} (hWC : WC < N) :
    slot p N ((WC + 1) % N) (if p.READ_BIAS then 0 else 1) = WC := by
  have hlast : (((WC + 1) % N : ℕ) : Int) - readBias p - (if p.READ_BIAS then 0 else 1) =
      ((WC : Int) + 1) % N - 1 := by
    rw [readBias]
    cases p.READ_BIAS
    · simp
    · simp
  rw [slot, hlast, Int.emod_sub_emod, add_sub_cancel_right, ← Int.natCast_emod, Int.toNat_natCast,
    Nat.mod_eq_of_lt hWC]

/-! ## The cubic (R144, R147) -/

theorem NUM.isZero_mul {z x : NUM} (hz : NUM.isZero z = true) (hx : NUM.isFinite x = true) :
    NUM.isZero (NUM.mul z x) = true ∧ NUM.isZero (NUM.mul x z) = true := by
  have hmag : NUM.mag z = 0 := by rw [NUM.mag_eq, (NUM.isZero_iff z).1 hz, magOf_zero]
  rw [NUM.mul_finite (NUM.isFinite_of_zero hz) hx, NUM.mul_finite hx (NUM.isFinite_of_zero hz), hmag, zero_mul,
    mul_zero, NUM.isZero_iff, NUM.isZero_iff, NUM.round_magBits, NUM.round_magBits,
    NUM.roundBits_zero one149_pos]
  exact ⟨rfl, rfl⟩

/-- The cubic at every fraction and all points. -/
theorem cr_eq (t a b c d : NUM) : cr t a b c d =
    if NUM.isZero t = true ∧ NUM.isFinite a = true ∧ NUM.isFinite b = true ∧ NUM.isFinite c = true ∧
      NUM.isFinite d = true then (if b = 0x80000000#32 then 0x00000000#32 else b)
    else crInOrder t a b c d := by
  split
  · rename_i h
    obtain ⟨ht, ha, hb, hc, hd⟩ := h
    rw [cr_at_zero ht ha hb hc hd, NUM.add_pos_zero hb]
  · rename_i h
    exact cr_elsewhere h

theorem crInOrder_not_finite (t : NUM) {a b c d : NUM} (h : ¬ (NUM.isFinite a = true ∧ NUM.isFinite b = true ∧
    NUM.isFinite c = true ∧ NUM.isFinite d = true)) : NUM.isFinite (crInOrder t a b c d) = false := by
  have hpoint : NUM.isFinite b = false ∨ (NUM.isFinite c = false ∨ NUM.isFinite a = false) ∨
      NUM.isFinite d = false := by
    simp only [← Bool.not_eq_true]
    tauto
  refine NUM.add_not_finite (hpoint.imp_right fun h => NUM.mul_not_finite (.inr (NUM.add_not_finite ?_)))
  exact h.imp NUM.sub_not_finite fun hd =>
    NUM.mul_not_finite (.inr (NUM.add_not_finite (.inl (NUM.sub_not_finite (.inr hd)))))

/-- Settles O18. In R144's order the product at t = 0 is a zero of some sign, and a point that is not finite
reaches the sum through its own term. -/
theorem cubicAtZeroReturnsTheSample : Obligations.CubicAtZeroReturnsTheSample := by
  intro t a b c d
  have helse : ∀ h, cr t a b c d = crInOrder t a b c d := fun h => (cr_eq t a b c d).trans (if_neg h)
  refine ⟨fun ht hpoints => (cr_eq t a b c d).trans (if_pos ⟨ht, hpoints⟩), fun h => helse ?_,
    fun ht hpoints hb hinner => ?_, fun h => ?_⟩
  · rintro ⟨ht, hpoints⟩
    rcases h with hf | hn
    · exact Bool.false_ne_true (hf.symm.trans ht)
    · exact hn hpoints
  · have hhalf : NUM.isZero (NUM.mul 0x3F000000#32 t) = true := (NUM.isZero_mul ht (by decide)).2
    exact NUM.add_zero hpoints.2.1 (NUM.isZero_mul hhalf hinner).1 hb
  · rw [helse fun hz => h hz.2]
    exact crInOrder_not_finite t h

/-! ## The commands DLWR and DLRD (R145, R146) -/

/-- Settles O23, by the rules of the two checks and of the write. -/
theorem dlwrStoresAtTheCursorAndAdvances : Obligations.DlwrStoresAtTheCursorAndAdvances := by
  intro s c hinv
  refine ⟨exec_unconfigured rfl (by simp), fun h hc => exec_badSelector (decide_eq_true hc) fun _ => h,
    fun h hc => ⟨_, exec_dlwr h hc, rfl, List.length_modify .., ?_⟩⟩
  obtain ⟨-, -, hcount, -⟩ := hinv.2.2 h
  have hline := dlWrite_line_same s s.OPA (hcount ▸ hc)
  refine ⟨?_, ?_, fun j hj => ?_, fun d hd => dlWrite_line_other s s.OPA hd⟩
  · rw [State.lineWord, hline, Line.read_write, State.cursor, if_pos rfl]
  · rw [State.cursor, hline]
    rfl
  · rw [State.lineWord, hline, Line.read_write]
    exact if_neg hj

/-- Settles O24: the range check is R143's, and the read is the cubic through the four samples. -/
theorem dlrdInterpolatesInsideTheLine : Obligations.DlrdInterpolatesInsideTheLine := by
  intro s c
  refine ⟨exec_unconfigured rfl (by simp), fun h hc => exec_badSelector (decide_eq_true hc) fun _ => h,
    fun h hc hx => ?_, fun h hc hx => ?_⟩
  · rw [exec_dlrd_inside h hc ((offsetInRange_iff _ _).2 hx), lineRead, floor_eq, cr_eq]
    rfl
  · rw [← offsetInRange_iff, Bool.not_eq_true] at hx
    exact exec_dlrd_outside h hc hx

/-! ## Reading back what was written (R147 (1)) -/

/-- A read at an integer offset among finite samples is the sample there, −0.0 as +0.0. -/
theorem lineRead_integer (p : Params) (N : Nat) (l : Line) {x : NUM} {k : ℤ} (hx : NUM.isFinite x = true)
    (hk : NUM.real x = k) (hfin : ∀ j, NUM.isFinite (lineTap p N l j) = true) :
    lineRead p N l x = if lineTap p N l k = 0x80000000#32 then 0x00000000#32 else lineTap p N l k := by
  have hfloor : NUM.floor x = k := by rw [floor_eq, hk, Int.floor_intCast]
  obtain ⟨htf, htu⟩ := toNUM_floor hx
  have ht : NUM.isZero (NUM.sub x (toNUM (NUM.floor x))) = true := by
    have hreal : NUM.real x - NUM.real (toNUM (NUM.floor x)) = 0 := by
      rw [hk, NUM.real, htu, hfloor]
      push_cast
      rw [cast_one149, mul_div_cancel_right₀ _ (by positivity), sub_self]
    rw [NUM.sub_eq_zero hx htf hreal]
    split
    · decide
    · decide
  rw [lineRead, cr_eq, if_pos ⟨ht, hfin _, hfin _, hfin _, hfin _⟩, hfloor]

/-- The offset of the sample just written: 0 where the read bias stands for one slot, 1 without a bias
(95_test_vectors.md W1). -/
def lastWrittenOffset (p : Params) : NUM := if p.READ_BIAS then 0x00000000#32 else 0x3F800000#32

theorem NUM.real_one : NUM.real NUM.one = 1 := by
  have hu : NUM.units NUM.one = NUM.one149 := by decide
  rw [NUM.real, hu, Int.cast_natCast, cast_one149, div_self (by positivity)]

theorem real_lastWrittenOffset (p : Params) :
    NUM.real (lastWrittenOffset p) = ((if p.READ_BIAS then 0 else 1 : ℤ) : ℚ) := by
  rw [lastWrittenOffset]
  cases p.READ_BIAS
  · exact NUM.real_one.trans Int.cast_one.symm
  · exact ((NUM.real_eq_zero _).2 (by decide)).trans Int.cast_zero.symm

theorem lastWrittenOffset_inRange (p : Params) {N : Nat} (hN : 2 ≤ N) :
    offsetInRange N (lastWrittenOffset p) = true := by
  have hN' : (2 : ℚ) ≤ N := by exact_mod_cast hN
  rw [offsetInRange_iff, real_lastWrittenOffset, lastWrittenOffset]
  cases p.READ_BIAS
  · exact ⟨by decide, by decide, by norm_num; linarith⟩
  · exact ⟨by decide, by decide, by norm_num; linarith⟩

/-- Reading a line of finite samples right after a write of a finite sample returns it. -/
theorem lineRead_write (p : Params) {N : Nat} {l : Line} {x : NUM} (hl : l.WC < N)
    (hcells : ∀ j, j < N → NUM.isFinite (l.cells.read j) = true) (hx : NUM.isFinite x = true) :
    lineRead p N (l.write N x) (lastWrittenOffset p) = if x = 0x80000000#32 then 0x00000000#32 else x := by
  have hfin : ∀ k, NUM.isFinite (lineTap p N (l.write N x) k) = true := by
    intro k
    rw [lineTap, Line.read_write]
    split
    · exact hx
    · exact hcells _ (slot_lt p _ k (by omega))
  have hlast : lineTap p N (l.write N x) (if p.READ_BIAS then 0 else 1) = x := by
    rw [lineTap, Line.read_write, if_pos]
    exact slot_last_written p hl
  have hoff : NUM.isFinite (lastWrittenOffset p) = true := by
    rw [lastWrittenOffset]
    split
    · decide
    · decide
  rw [lineRead_integer p N _ hoff (real_lastWrittenOffset p) hfin, hlast]

/-- Settles O51: the line has room for the offset, which is the slot just written. -/
theorem writtenSampleIsReadAtOffsetOne : Obligations.WrittenSampleIsReadAtOffsetOne := by
  rintro s c x hinv h hc hcells hx rfl
  obtain ⟨hfmt, -, hcount, hlines⟩ := hinv.2.2 h
  obtain ⟨-, -, hFS, hFS0, -, -, hMAXD, hMAXD0, -, hN, -⟩ := hfmt
  have hc' : c < s.lines.length := hcount ▸ hc
  have hWC : (s.line c).WC < s.fmt.N := by
    rw [State.line, List.getD_eq_getElem _ _ hc']
    exact (hlines _ (List.getElem_mem hc')).1
  have hrange := lastWrittenOffset_inRange s.params (hN ▸ two_le_capacity hMAXD hFS hMAXD0 hFS0)
  have hread := exec_dlrd_inside (s := { dlWrite c s.OPA s with OPA := lastWrittenOffset s.params }) h hc hrange
  refine ⟨_, _, exec_dlwr h hc, hread, ?_⟩
  change lineRead s.params s.fmt.N ((dlWrite c s.OPA s).line c) _ = _
  rw [dlWrite_line_same s s.OPA hc', lineRead_write s.params hWC hcells hx]

end Sys2Proof.Machine
end

section
/-!
PROOFS, 41_oscillator.md. The test-port commands of the oscillators, and the full cycle of R176.
-/

namespace Sys2Proof.Machine

/-! ## The commands LFOV and LFOQ (R181, R182) -/

/-- Settles O26, by the rules of the two checks and of the read. -/
theorem lfovReadsTheWave : Obligations.LfovReadsTheWave := fun _ _ =>
  ⟨exec_unconfigured rfl (by simp), fun h hi => exec_badSelector (decide_eq_true hi) fun _ => h, exec_lfov⟩

/-- LFOQ is LFOV a quarter cycle ahead (R173). -/
theorem Osc.quad_eq_wave (p : Params) {o o' : Osc} (h : o'.phase = wrap (NUM.add o.phase NUM.quarter)) :
    o.quad p = o'.wave p := by
  rw [Osc.quad, Osc.wave, h]

/-- Settles O27: both commands read the one wave, at the same phase. -/
theorem lfoqReadsAQuarterCycleAhead : Obligations.LfoqReadsAQuarterCycleAhead := by
  intro s i
  refine ⟨exec_unconfigured rfl (by simp), fun h hi => exec_badSelector (decide_eq_true hi) fun _ => h,
    fun h hi => ⟨exec_lfoq h hi, fun s' t t' hparams hstatus hphase ht ht' => ?_⟩⟩
  rw [exec_lfoq h hi] at ht
  rw [exec_lfov (hstatus ▸ h) (hparams ▸ hi)] at ht'
  cases ht
  cases ht'
  rw [State.setRES_RES, State.setRES_RES, hparams]
  exact Osc.quad_eq_wave s.params hphase

/-! ## The commands LFOSF and LFOINC (R180, R183) -/

/-- Changing one oscillator of a configured machine changes that one and nothing else. -/
theorem modifyOsc_changes_one {s : State} (hinv : s.Inv) (h : s.STATUS.CFGD = true) {i : Nat}
    (hi : i < s.params.T) (f : Osc → Osc) :
    s.modifyOsc i f = { s with L := (s.modifyOsc i f).L } ∧ (s.modifyOsc i f).L.length = s.L.length ∧
      (s.modifyOsc i f).osc i = f (s.osc i) ∧ ∀ j, j ≠ i → (s.modifyOsc i f).osc j = s.osc j := by
  obtain ⟨-, hbank, -⟩ := hinv.2.2 h
  exact ⟨rfl, List.length_modify .., modifyOsc_osc_same s f (hbank ▸ hi),
    fun j hj => modifyOsc_osc_other s f hj⟩

/-- Settles O25: one oscillator is changed, and its increment by R200. -/
theorem lfosfRampsTheIncrement : Obligations.LfosfRampsTheIncrement := by
  intro s i hinv
  refine ⟨exec_unconfigured rfl (by simp), fun h hi => exec_badSelector (decide_eq_true hi) fun _ => h,
    fun h hi => ⟨_, exec_lfosf h hi, ?_⟩⟩
  obtain ⟨hframe, hlen, hosc, hother⟩ := modifyOsc_changes_one hinv h hi (Osc.setFrequency s.fmt.FS s.OPA s.OPB)
  rw [hosc]
  exact ⟨hframe, hlen, rfl, rfl, hother⟩

/-- Settles O28: one oscillator is changed, its ramp first. -/
theorem lfoincAdvancesOnePhase : Obligations.LfoincAdvancesOnePhase := by
  intro s i hinv
  refine ⟨exec_unconfigured rfl (by simp), fun h hi => exec_badSelector (decide_eq_true hi) fun _ => h,
    fun h hi => ⟨_, exec_lfoinc h hi, ?_⟩⟩
  obtain ⟨hframe, hlen, hosc, hother⟩ := modifyOsc_changes_one hinv h hi Osc.increment
  rw [hosc]
  exact ⟨hframe, hlen, rfl, rfl, hother⟩

/-! ## A run of LFOINC -/

theorem modifyOsc_id (s : State) (i : Nat) : s.modifyOsc i id = s := by
  rw [State.modifyOsc, List.modify_id]

theorem modifyOsc_modifyOsc (s : State) (i : Nat) (f g : Osc → Osc) :
    (s.modifyOsc i f).modifyOsc i g = s.modifyOsc i (g ∘ f) :=
  congrArg (fun L => { s with L := L }) (List.modify_modify_eq f g i s.L)

/-- The selector of an oscillator that exists fits the command word. -/
theorem decode_encode_lfoinc {s : State} {i : Nat} (hi : i < s.params.T) :
    decode (encode (.lfoinc i)) = .ok (.lfoinc i) := by
  have hT := Params.T_le s.params
  exact decodeOfEncodeGivesTheCommand _ (decide_eq_true (show i < 256 by omega))

/-- n LFOINC of one oscillator advance it n times and do nothing else. -/
theorem run_lfoinc {s : State} {i : Nat} (h : s.STATUS.CFGD = true) (hi : i < s.params.T) (n : Nat) :
    Host.Core.run Sys2Proof.core n (s.withCommands (List.replicate n (.lfoinc i))) =
      .next (s.modifyOsc i Osc.increment^[n]) := by
  induction n generalizing s with
  | zero => exact congrArg Host.Outcome.next (modifyOsc_id s i).symm
  | succ n ih =>
    have hstep : step (s.withCommands (List.replicate (n + 1) (.lfoinc i))) =
        .next ((s.modifyOsc i Osc.increment).withCommands (List.replicate n (.lfoinc i))) :=
      (step_withCommands s _ (decode_encode_lfoinc hi)).trans (exec_lfoinc h hi)
    rw [Function.iterate_succ, ← modifyOsc_modifyOsc]
    exact (run_succ hstep).trans (ih h hi)

/-- With a constant increment v the phase takes n additions of v, each wrapped, and the ramp stays at rest. -/
theorem increment_iterate {o : Osc} (h : o.inc.remaining = 0#32) (n : Nat) :
    Osc.increment^[n] o = { o with phase := (fun p => wrap (NUM.add p o.inc.value))^[n] o.phase } := by
  induction n with
  | zero => rfl
  | succ n ih =>
    rw [Function.iterate_succ_apply', ih, Osc.increment, rpFrame_rest h, Function.iterate_succ_apply']

/-! ## The phases of a full cycle (R176)

Every phase of the cycle, and the sum 1.0 that closes it, is a multiple of 2^-j with at most 24 bits, so no addition
rounds. -/

/-- `x` is exactly + k/2^j; a unit of NUM is 2^-149. -/
def IsFraction (j k : Nat) (x : NUM) : Prop :=
  NUM.neg x = false ∧ magOf (NUM.magBits x) = k * 2 ^ (149 - j)

theorem isFraction_zero (j : Nat) : IsFraction j 0 0#32 := ⟨by decide, by simp [NUM.magBits, magOf_zero]⟩

/-- The word of 1/2^j: exponent 127 − j, fraction 0. -/
theorem isFraction_one {j : Nat} (hj : j ≤ 24) : IsFraction j 1 (BitVec.ofNat 32 ((127 - j) * 2 ^ 23)) := by
  have hpack : BitVec.ofNat 32 ((127 - j) * 2 ^ 23) = NUM.pack false ((126 - j) * 2 ^ 23 + 2 ^ 23) := by
    rw [NUM.pack, show (127 - j) * 2 ^ 23 = (126 - j) * 2 ^ 23 + 2 ^ 23 by omega]
    simp
  have hlt : (126 - j) * 2 ^ 23 + 2 ^ 23 < 2 ^ 31 := by omega
  rw [IsFraction, hpack, NUM.pack_neg _ hlt, NUM.pack_magBits _ hlt, magOf_packed (by norm_num) (by norm_num),
    ← pow_add, one_mul, show 23 + (126 - j) = 149 - j by omega]
  exact ⟨rfl, rfl⟩

theorem IsFraction.units {j k : Nat} {x : NUM} (hx : IsFraction j k x) :
    NUM.units x = (k * 2 ^ (149 - j) : ℕ) := by
  rw [NUM.units_eq, hx.1, hx.2]
  rfl

theorem two_pow_fraction {j : Nat} (hj : j ≤ 24) : 2 ^ j * 2 ^ (149 - j) = NUM.one149 := by
  rw [← pow_add, NUM.one149, Nat.add_sub_of_le (hj.trans (by norm_num))]

section Fraction

variable {j k : Nat} {x : NUM} (hj : j ≤ 24) (hx : IsFraction j k x)
include hj hx

theorem IsFraction.lt_one (hk : k < 2 ^ j) : NUM.magBits x < 0x3F800000 := by
  rw [← magOf_strictMono.lt_iff_lt, hx.2, magOf_one, ← two_pow_fraction hj]
  exact Nat.mul_lt_mul_of_pos_right hk (by positivity)

theorem IsFraction.eq_one (hk : k = 2 ^ j) : x = NUM.one := by
  refine NUM.ext hx.1 (magOf_strictMono.injective ?_)
  rw [hx.2, hk, two_pow_fraction hj, ← magOf_one]
  rfl

theorem IsFraction.isFinite (hk : k ≤ 2 ^ j) : NUM.isFinite x = true := by
  rcases hk.lt_or_eq with hlt | heq
  · rw [NUM.isFinite_iff]
    exact (hx.lt_one hj hlt).trans (by norm_num)
  · rw [hx.eq_one hj heq]
    decide

/-- Inside the cycle wrap does nothing. -/
theorem IsFraction.wrap_eq (hk : k < 2 ^ j) : wrap x = x := wrap_inside hx.1 (hx.lt_one hj hk)

end Fraction

/-- The format holds every multiple of 2^-j up to 1. -/
theorem exists_magOf_fraction {j k : Nat} (hj : j ≤ 24) (hk : k ≤ 2 ^ j) :
    ∃ b ≤ 0x3F800000, magOf b = k * 2 ^ (149 - j) := by
  rcases hk.lt_or_eq with hlt | heq
  · obtain ⟨b, hb⟩ := exists_magOf_scaled (149 - j) (hlt.trans_le (Nat.pow_le_pow_right (by norm_num) hj))
    refine ⟨b, magOf_strictMono.le_iff_le.1 ?_, hb⟩
    rw [hb, magOf_one, ← two_pow_fraction hj]
    exact Nat.mul_le_mul_right _ hk
  · exact ⟨_, le_rfl, by rw [magOf_one, heq, two_pow_fraction hj]⟩

/-- Adding 1/2^j inside the cycle is exact. -/
theorem IsFraction.add {j k : Nat} {x v : NUM} (hj : j ≤ 24) (hx : IsFraction j k x) (hv : IsFraction j 1 v)
    (hk : k < 2 ^ j) : IsFraction j (k + 1) (NUM.add x v) := by
  obtain ⟨b, hb, hmag⟩ := exists_magOf_fraction hj hk
  have hsum : NUM.units x + NUM.units v = ((k + 1) * 2 ^ (149 - j) : ℕ) := by
    rw [hx.units, hv.units, ← Nat.cast_add, ← Nat.add_mul]
  have hpos : 0 < (k + 1) * 2 ^ (149 - j) := by positivity
  obtain ⟨hbits, hneg⟩ := NUM.add_exact (hx.isFinite hj hk.le) (hv.isFinite hj Nat.one_le_two_pow)
    (hb.trans (by norm_num)) (by rw [hsum, Int.natAbs_natCast, hmag]) (by omega)
  exact ⟨by rw [hneg, hsum]; simp, by rw [hbits, hmag]⟩

theorem wrap_one : wrap NUM.one = 0#32 := by decide +kernel

/-- Before the cycle closes, the phase after k steps from 0 is exactly k/2^j. -/
theorem isFraction_iterate {j k : Nat} {v : NUM} (hj : j ≤ 24) (hv : IsFraction j 1 v) (hk : k < 2 ^ j) :
    IsFraction j k ((fun p => wrap (NUM.add p v))^[k] 0#32) := by
  induction k with
  | zero => exact isFraction_zero j
  | succ k ih =>
    have hsum := (ih (by omega)).add hj hv (by omega)
    rw [Function.iterate_succ_apply', hsum.wrap_eq hj hk]
    exact hsum

/-- The last of 2^j steps gives 1.0, which wraps to +0.0. -/
theorem iterate_full_cycle {j : Nat} {v : NUM} (hj : j ≤ 24) (hv : IsFraction j 1 v) :
    (fun p => wrap (NUM.add p v))^[2 ^ j] 0#32 = 0#32 := by
  obtain ⟨k, hk⟩ := Nat.exists_eq_add_one.2 (Nat.two_pow_pos j)
  have hsum := (isFraction_iterate hj hv (by omega)).add hj hv (k := k) (by omega)
  rw [hk, Function.iterate_succ_apply', hsum.eq_one hj hk.symm, wrap_one]

/-- Settles O50: no step of the cycle rounds, and the last one wraps 1.0. -/
theorem fullCycleReturnsToPhaseZero : Obligations.FullCycleReturnsToPhaseZero := by
  intro s i j hinv h hi hj hphase hrest hvalue
  obtain ⟨-, -, hosc, -⟩ := modifyOsc_changes_one hinv h hi Osc.increment^[2 ^ j]
  rw [increment_iterate hrest, hphase, hvalue, iterate_full_cycle hj (isFraction_one hj)] at hosc
  exact ⟨_, run_lfoinc h hi _, by rw [hosc], by rw [hosc]⟩

end Sys2Proof.Machine
end

section
/-!
PROOFS, 42_ramped_parameter.md. The test-port commands RPSET, RPFRM and RPGET, and the runs of R204.
-/

namespace Sys2Proof.Machine

/-! ## The commands RPSET and RPGET (R210, R212) -/

/-- Settles O29: the ramp is set at once (R200, n = 0) or started from the current value. -/
theorem rpsetSetsOrStartsARamp : Obligations.RpsetSetsOrStartsARamp := by
  refine fun s => ⟨fun p => (exec_rpset s p).trans ?_, fun id hid => exec_badSelector (decide_eq_true hid) nofun⟩
  rw [State.setParam]
  split
  case isTrue hn => rw [hn, rpSet_zero]
  case isFalse hn => rw [rpSet_pos _ _ hn]

/-- Settles O31, by the rules of the command and of the selector check. -/
theorem rpgetReadsWithoutAdvancing : Obligations.RpgetReadsWithoutAdvancing := fun s =>
  ⟨exec_rpget s, fun _ hid => exec_badSelector (decide_eq_true hid) nofun⟩

/-! ## The command RPFRM (R211) -/

/-- The state in which a parameter's ramp has come to `R` and RES answers its value. -/
def State.answerRamp (s : State) (p : ParamId) (R : Ramp) : State := (s.setParam p R).setRES R.value

@[simp] theorem State.answerRamp_get (s : State) (p : ParamId) (R : Ramp) : (s.answerRamp p R).P.get p = R :=
  ParamFile.get_set s.P p R

@[simp] theorem State.answerRamp_RES (s : State) (p : ParamId) (R : Ramp) : (s.answerRamp p R).RES = R.value := rfl

@[simp] theorem State.answerRamp_inputs (s : State) (p : ParamId) (R : Ramp) :
    (s.answerRamp p R).inputs = s.inputs := rfl

theorem State.setParam_answerRamp (s : State) (p : ParamId) (R R' : Ramp) :
    (s.setParam p R).answerRamp p R' = s.answerRamp p R' := by
  simp [State.answerRamp, State.setParam]

theorem State.answerRamp_answerRamp (s : State) (p : ParamId) (R R' : Ramp) :
    (s.answerRamp p R).answerRamp p R' = s.answerRamp p R' := by
  simp [State.answerRamp, State.setParam, State.setRES]

/-- Settles O30: the three cases of R201, on the frames that remain. -/
theorem rpfrmAdvancesOneStep : Obligations.RpfrmAdvancesOneStep := by
  refine fun s => ⟨fun p => ⟨rpFrame (s.P.get p), exec_rpfrm s p, rpFrame_rest, fun h1 => ?_, fun h2 => ?_⟩,
    fun id hid => exec_badSelector (decide_eq_true hid) nofun⟩
  · exact rpFrame_last (BitVec.eq_of_toNat_eq h1)
  · exact rpFrame_more (by bv_omega) (by bv_omega)

/-! ## Runs of RPSET and RPFRM (R204) -/

/-- The id of a parameter fits the command word. -/
theorem ParamId.toNat_lt (p : ParamId) : p.toNat < 256 := by cases p <;> decide

theorem step_rpset (s : State) (p : ParamId) (cs : List Instr) :
    step (s.withCommands (.rpset p.toNat :: cs)) =
      .next ((s.setParam p (rpSet (s.P.get p) s.OPA s.OPB)).withCommands cs) :=
  have hword : (Instr.rpset p.toNat).WellFormed = true := decide_eq_true p.toNat_lt
  (step_withCommands s cs (decodeOfEncodeGivesTheCommand _ hword)).trans (exec_rpset _ p)

theorem step_rpfrm (s : State) (p : ParamId) (cs : List Instr) :
    step (s.withCommands (.rpfrm p.toNat :: cs)) =
      .next ((s.answerRamp p (rpFrame (s.P.get p))).withCommands cs) :=
  have hword : (Instr.rpfrm p.toNat).WellFormed = true := decide_eq_true p.toNat_lt
  (step_withCommands s cs (decodeOfEncodeGivesTheCommand _ hword)).trans (exec_rpfrm _ p)

/-- One or more RPFRM of a parameter step its ramp as often, answer the last value, and do nothing else. -/
theorem run_rpfrm (s : State) (p : ParamId) (n : Nat) :
    Host.Core.run Sys2Proof.core (n + 1) (s.withCommands (List.replicate (n + 1) (.rpfrm p.toNat))) =
      .next (s.answerRamp p (rpFrame^[n + 1] (s.P.get p))) := by
  induction n generalizing s with
  | zero => exact run_succ (step_rpfrm s p [])
  | succ n ih =>
    rw [List.replicate_succ, run_succ (step_rpfrm s p _), ih, State.answerRamp_get, State.answerRamp_answerRamp,
      ← Function.iterate_succ_apply]

/-- RPSET, then one or more RPFRM: the new ramp, stepped as often. -/
theorem run_rpset_rpfrm (s : State) (p : ParamId) {k : Nat} (hk : 1 ≤ k) :
    Host.Core.run Sys2Proof.core (1 + k) (s.withCommands (.rpset p.toNat :: List.replicate k (.rpfrm p.toNat))) =
      .next (s.answerRamp p (rpFrame^[k] (rpSet (s.P.get p) s.OPA s.OPB))) := by
  obtain ⟨n, rfl⟩ := Nat.exists_eq_add_one.2 hk
  rw [Nat.add_comm, run_succ (step_rpset s p _), run_rpfrm, State.setParam_answerRamp, State.setParam_P,
    ParamFile.get_set]

/-- The n-th step of a ramp over n ≥ 1 frames assigns the target (R201), and it stays there. -/
theorem rpFrame_iterate_complete (t v st : NUM) {n : Word} (hn : 1 ≤ n.toNat) (later : Nat) :
    rpFrame^[n.toNat + later] ⟨v, t, st, n⟩ = ⟨t, t, st, 0#32⟩ := by
  obtain ⟨k, hk⟩ := Nat.exists_eq_add_one.2 hn
  have hlast : n - BitVec.ofNat 32 k = 1#32 := by bv_omega
  rw [Nat.add_comm, Function.iterate_add_apply, hk, Function.iterate_succ_apply',
    rpFrame_iterate t v st n (by omega), rpFrame_last hlast]
  exact Function.iterate_fixed (rpFrame_rest rfl) later

/-- Settles O48: the ramp of the RPSET is stepped past its last frame. -/
theorem rampReachesItsTargetExactly : Obligations.RampReachesItsTargetExactly := by
  intro s p later hn
  have hOPB : s.OPB ≠ 0#32 := by bv_omega
  have hrun := run_rpset_rpfrm s p (k := s.OPB.toNat + later) (by omega)
  rw [rpSet_pos _ _ hOPB, rpFrame_iterate_complete _ _ _ hn, ← Nat.add_assoc] at hrun
  exact ⟨_, hrun, by simp⟩

/-- Settles O49: before its last frame every step of the ramp is one addition. -/
theorem partialRampAddsTheStepEachFrame : Obligations.PartialRampAddsTheStepEachFrame := by
  intro s p k hk hkn
  have hOPB : s.OPB ≠ 0#32 := by bv_omega
  have hrun := run_rpset_rpfrm s p hk
  rw [rpSet_pos _ _ hOPB, rpFrame_iterate _ _ _ _ hkn] at hrun
  exact ⟨_, hrun, rfl⟩

end Sys2Proof.Machine
end

section
/-!
PROOFS, 43_tap_compute.md. The test-port command TAPS.
-/

namespace Sys2Proof.Machine

/-! ## A tap memory after a tap set is stored (R240) -/

section StoredSet

variable (m : Memory) (tap : Nat → NUM) {n i : Nat}

/-- The first words hold the set, tap i in word i. -/
theorem writeTaps_range_read (hi : i < n) : (writeTaps m 0 ((List.range n).map tap)).read i = tap i := by
  rw [writeTaps_read, if_pos (by simpa using hi), Nat.sub_zero, getD_map_range tap _ hi]

/-- The words past the set stay. -/
theorem writeTaps_range_read_past (hi : n ≤ i) :
    (writeTaps m 0 ((List.range n).map tap)).read i = m.read i := by
  rw [writeTaps_read, if_neg (by simpa using hi)]

end StoredSet

/-! ## The odd set against the even one (R233) -/

/-- With odd90 = 0 the odd set is the even set. -/
theorem oddTap_of_opc_zero {s : State} (h : s.OPC = 0#32) (dly dep : NUM) (i : Nat) :
    oddTap s dly dep s.opcFlag i = evenTap s dly dep i := by
  simp [oddTap, State.opcFlag, h]

/-- With any other odd90 its taps are modulated a quarter cycle ahead. -/
theorem oddTap_of_opc_ne_zero {s : State} (h : s.OPC ≠ 0#32) (dly dep : NUM) (i : Nat) :
    oddTap s dly dep s.opcFlag i =
      NUM.add (delaySamples s dly) (NUM.mul ((s.osc i).quad s.params) (displacement s dly dep)) := by
  simp [oddTap, State.opcFlag, h]

/-- Settles O32: each memory is read back at the words of its set and past them. -/
theorem tapsStoresBothTapSets : Obligations.TapsStoresBothTapSets := by
  refine fun s => ⟨exec_unconfigured rfl (by simp), fun h hb => exec_taps_bypass h ((tapBypass_iff ..).2 hb),
    fun h hb => ⟨_, exec_taps h (Bool.eq_false_iff.2 (mt (tapBypass_iff ..).1 hb)), rfl,
      fun i hi => ?_, fun i hi => ⟨writeTaps_range_read_past _ _ hi, writeTaps_range_read_past _ _ hi⟩⟩⟩
  have hE := writeTaps_range_read s.TAPE (evenTap s s.OPA s.OPB) hi
  have hO := writeTaps_range_read s.TAPO (oddTap s s.OPA s.OPB s.opcFlag) hi
  refine ⟨hE, ?_⟩
  split
  case isTrue h0 => exact (hO.trans (oddTap_of_opc_zero h0 ..)).trans hE.symm
  case isFalse h0 => exact hO.trans (oddTap_of_opc_ne_zero h0 ..)

end Sys2Proof.Machine
end

section
/-!
PROOFS, 44_engine.md R261 to R267 and R280. The commands CFG, SETP, GETP and RDSTAT, and what a line holds right after
a CFG.
-/

namespace Sys2Proof.Machine

/-! ## The commands GETP and RDSTAT (R266, R280) -/

/-- Settles O21, by the rule of the command for each known id and for the others. -/
theorem getpReadsTheCurrentValueOrTheSentinel : Obligations.GetpReadsTheCurrentValueOrTheSentinel := fun s =>
  ⟨exec_getp s, fun _ hid => exec_getp_unknown s hid⟩

/-- The word of STATUS, flag by flag (10_state.md R35). -/
theorem Status.word_eq (st : Status) : st.word =
    0#26 ++ BitVec.ofBool st.E_RANGE ++ BitVec.ofBool st.E_PRECOND ++ BitVec.ofBool st.E_SEL ++
      BitVec.ofBool st.E_NOTCFG ++ BitVec.ofBool st.E_ILL ++ BitVec.ofBool st.CFGD := by
  have hflags : ∀ b0 b1 b2 b3 b4 b5 : Bool, Status.word ⟨b0, b1, b2, b3, b4, b5⟩ =
      0#26 ++ BitVec.ofBool b5 ++ BitVec.ofBool b4 ++ BitVec.ofBool b3 ++ BitVec.ofBool b2 ++
        BitVec.ofBool b1 ++ BitVec.ofBool b0 := by decide
  exact hflags ..

/-- Settles O22: bit n < 6 of the word is the n-th flag, and no flag stands above. -/
theorem rdstatReadsEveryStatusBit : Obligations.RdstatReadsEveryStatusBit := by
  refine fun s => ⟨_, rfl, rfl, ?_⟩
  simp only [State.setRES_RES, Status.word_eq, BitVec.getLsbD_append]
  refine ⟨by simp, by simp, by simp, by simp, by simp, by simp, fun n hn => ?_⟩
  iterate 6 rw [if_neg (by omega)]
  exact BitVec.getLsbD_zero

/-! ## The command SETP (R263, R264) -/

/-- Retuning writes the bank alone. -/
theorem retuneBank_eq (v : NUM) (n : Word) (s : State) : retuneBank v n s = { s with L := (retuneBank v n s).L } := by
  unfold retuneBank
  split <;> rfl

/-- SETP of RATE, without a format and with one. -/
theorem exec_setp_rate (s : State) : exec (.setp 0) s =
    .next (if s.STATUS.CFGD then retuneBank s.OPA s.OPB (s.setParam .RATE ⟨s.OPA, s.OPA, 0#32, 0#32⟩)
      else s.setParam .RATE ⟨s.OPA, s.OPA, 0#32, 0#32⟩) := exec_setp s .RATE

/-- An oscillator of a retuned bank. -/
theorem retuneBank_osc_retune {s : State} (h : s.params.RATE_UPDATE_POLICY = .RETUNE) (v : NUM) (n : Word) {i : Nat}
    (hi : i < s.params.T) :
    (retuneBank v n s).osc i = (s.osc i).setFrequency s.fmt.FS (rate s.params i v) n := by
  rw [retuneBank, h]
  exact mapBank_osc _ s hi

/-- An oscillator of a rebuilt bank. -/
theorem retuneBank_osc_recreate {s : State} (h : s.params.RATE_UPDATE_POLICY = .RECREATE) (v : NUM) (n : Word)
    {i : Nat} (hi : i < s.params.T) : (retuneBank v n s).osc i = newOsc s.params s.fmt.FS v i := by
  rw [retuneBank, h]
  exact buildBank_osc v s hi

/-- Settles O20: five ids set their ramp; RATE sets its value, and the bank follows by the update policy. -/
theorem setpUpdatesTheNamedParameter : Obligations.SetpUpdatesTheNamedParameter := by
  intro s
  refine ⟨fun _ hid => exec_setp_unknown s hid, exec_setp s .DEPTH, exec_setp s .DELAY, exec_setp s .DRY,
    exec_setp s .WET, exec_setp s .ODD90, fun h => ?_, fun h => ?_⟩
  · rw [exec_setp_rate, h]
    rfl
  · refine ⟨_, exec_setp_rate s, ?_⟩
    rw [if_pos h]
    refine ⟨retuneBank_eq .., retuneBank_length .., fun hp i hi => ?_, fun hp i hi => ?_⟩
    · rw [retuneBank_osc_retune (s := s.setParam _ _) hp _ _ hi]
      exact ⟨rfl, rfl⟩
    · rw [retuneBank_osc_recreate (s := s.setParam _ _) hp _ _ hi]
      exact ⟨rfl, rfl⟩

/-! ## The command CFG (R261, R262) -/

/-- CFG's validity with the capacity as R140 words it. -/
theorem cfgValid_iff_ceil (p : Params) (ch : Nat) (fs : NUM) (mf : Nat) (md : NUM) :
    cfgValid p ch fs mf md = true ↔
      1 ≤ ch ∧ ch ≤ p.MAX_CHANNELS ∧ NUM.isFinite fs = true ∧ NUM.lt NUM.zero fs = true ∧
      1 ≤ mf ∧ mf ≤ p.MAX_FRAMES_HW ∧ NUM.isFinite md = true ∧ NUM.lt NUM.zero md = true ∧
      ⌈2 * NUM.real md * NUM.real fs / 1000⌉ + 1 ≤ (p.MAX_DL_SAMPLES : ℤ) := by
  rw [cfgValid_iff]
  refine and_congr_right fun _ => and_congr_right fun _ => and_congr_right fun hfs => and_congr_right fun hfs0 =>
    and_congr_right fun _ => and_congr_right fun _ => and_congr_right fun hmd => and_congr_right fun hmd0 => ?_
  rw [← capacityIsTheExactCeiling md fs hmd hfs hmd0 hfs0, Nat.cast_le]

/-- Settles O19: the model's check is R261's, and the state it leads to is R262's. -/
theorem cfgConfiguresOrRaisesEPrecond : Obligations.CfgConfiguresOrRaisesEPrecond := by
  intro s
  refine ⟨fun hv => ?_, fun hv => exec_cfg_invalid (Bool.eq_false_iff.2 (mt (cfgValid_iff_ceil ..).1 hv))⟩
  obtain ⟨-, -, hfs, hfs0, -, -, hmd, hmd0, -⟩ := id hv
  refine ⟨_, exec_cfg_valid ((cfgValid_iff_ceil ..).2 hv), rfl, rfl, rfl, rfl, rfl, rfl,
    capacityIsTheExactCeiling _ _ hmd hfs hmd0 hfs0, List.length_replicate, fun c hc => ?_, buildBank_length ..,
    fun i hi => ?_⟩
  · rw [State.cursor, configure_line _ _ _ _ s hc]
    refine ⟨rfl, fun j => ?_⟩
    rw [State.lineWord, configure_line _ _ _ _ s hc]
    rfl
  · rw [configure_osc _ _ _ _ s hi]
    refine ⟨rfl, fun h => ?_, fun h => ?_⟩
    · simp [newOsc, phase0, rate, h, NUM.zero]
    · simp [newOsc, phase0, rate, h]

/-! ## Reads right after a CFG (R262) -/

/-- The fraction of an offset, and half of it, are finite. -/
theorem fraction_isFinite {x : NUM} (hx : NUM.isFinite x = true) :
    NUM.isFinite (NUM.sub x (toNUM (NUM.floor x))) = true ∧
      NUM.isFinite (NUM.mul NUM.half (NUM.sub x (toNUM (NUM.floor x)))) = true := by
  obtain ⟨hbits, -⟩ := sub_floor_range hx
  generalize NUM.sub x (toNUM (NUM.floor x)) = t at hbits ⊢
  have ht : NUM.isFinite t = true := (NUM.isFinite_iff t).2 (by omega)
  refine ⟨ht, (NUM.isFinite_iff _).2 ?_⟩
  have hhalf : NUM.mag NUM.half ≤ NUM.one149 := by decide
  have hle : NUM.roundBits (NUM.mag NUM.half * NUM.mag t) NUM.one149 ≤ NUM.magBits t := by
    refine NUM.roundBits_le_of_le one149_pos ?_
    rw [← NUM.mag_eq, mul_comm]
    exact Nat.mul_le_mul_left _ hhalf
  rw [NUM.mul_finite (by decide) ht, NUM.round_magBits]
  omega

/-- A zero of either sign, times a finite value, adds nothing to +0.0. -/
theorem NUM.zero_add_mul_zero {y : NUM} (hy : NUM.isFinite y = true) :
    NUM.add NUM.zero (NUM.mul y NUM.zero) = NUM.zero :=
  NUM.add_zero (by decide) (NUM.isZero_mul (by decide) hy).2 (by decide)

/-- The cubic through silence is silence, in R144's order too. -/
theorem crInOrder_silence {t : NUM} (ht : NUM.isFinite t = true) (hhalf : NUM.isFinite (NUM.mul NUM.half t) = true) :
    crInOrder t NUM.zero NUM.zero NUM.zero NUM.zero = NUM.zero := by
  have hc1 : NUM.sub NUM.zero NUM.zero = NUM.zero := by decide
  have hc2 : NUM.sub (NUM.add (NUM.sub (NUM.mul NUM.two NUM.zero) (NUM.mul NUM.five NUM.zero))
      (NUM.mul NUM.four NUM.zero)) NUM.zero = NUM.zero := by decide
  have hc3 : NUM.add (NUM.mul NUM.three NUM.zero) NUM.zero = NUM.zero := by decide
  rw [crInOrder, hc2, hc1, hc3, NUM.zero_add_mul_zero ht, NUM.zero_add_mul_zero ht, NUM.zero_add_mul_zero hhalf]

/-- A read of a silent line is +0.0 at every finite offset. -/
theorem lineRead_silence (p : Params) (N WC : Nat) {x : NUM} (hx : NUM.isFinite x = true) :
    lineRead p N { WC := WC, cells := [] } x = NUM.zero := by
  obtain ⟨ht, hhalf⟩ := fraction_isFinite hx
  have hcr : cr (NUM.sub x (toNUM (NUM.floor x))) NUM.zero NUM.zero NUM.zero NUM.zero = NUM.zero := by
    rw [cr_eq, crInOrder_silence ht hhalf]
    split <;> rfl
  exact hcr

/-- Settles O52: a valid CFG leaves every line silent. -/
theorem readsAfterCfgAreSilent : Obligations.ReadsAfterCfgAreSilent := by
  intro s t c x hv ht hc hx
  rw [exec_cfg_valid hv] at ht
  cases ht
  refine ⟨_, exec_dlrd_inside (s := { configure s.OPA.toNat s.OPB s.OPC.toNat s.OPD s with OPA := x }) rfl hc hx, ?_⟩
  have hline := configure_line s.OPA.toNat s.OPB s.OPC.toNat s.OPD s (c := c) hc
  change lineRead s.params _ ((configure s.OPA.toNat s.OPB s.OPC.toNat s.OPD s).line c) x = _
  rw [hline]
  exact lineRead_silence _ _ _ ((offsetInRange_iff _ _).1 hx).1

end Sys2Proof.Machine
end

section
/-!
PROOFS, 44_engine.md R270 to R277. RENDER: its events and frames in order, what it leaves, and one frame in full.
-/

namespace Sys2Proof.Machine

/-! ## One induction over the events and frames of a RENDER (R272) -/

theorem renderFrames_subset (n f : Nat) (es : List Nat) (s : State) : ∀ k ∈ (renderFrames n f es s).1, k ∈ es := by
  induction n generalizing f es s with
  | zero => exact fun _ hk => hk
  | succ n ih => exact fun k hk => applyDue_subset f es s k (ih _ _ _ k hk)

section Induction

variable {motive : Nat → State → Prop} {es : List Nat}

theorem applyEvents_induction {g : Nat} (hevent : ∀ k ∈ es, ∀ s, motive g s → motive g (applyEvent k s)) {s : State}
    (h : motive g s) : motive g (applyEvents es s) := by
  induction es generalizing s with
  | nil => exact h
  | cons k es ih =>
    exact ih (fun j hj => hevent j (List.mem_cons_of_mem _ hj)) (hevent k (List.mem_cons_self ..) s h)

theorem applyDue_induction {g : Nat} (hevent : ∀ k ∈ es, ∀ s, motive g s → motive g (applyEvent k s)) {s : State}
    (h : motive g s) : motive g (applyDue g es s).2 := by
  induction es generalizing s with
  | nil => exact h
  | cons k es ih =>
    rw [applyDue]
    split
    · exact ih (fun j hj => hevent j (List.mem_cons_of_mem _ hj)) (hevent k (List.mem_cons_self ..) s h)
    · exact h

theorem renderFrames_induction {n f : Nat}
    (hevent : ∀ g, ∀ k ∈ es, ∀ s, motive g s → motive g (applyEvent k s))
    (hframe : ∀ g, g < f + n → ∀ s, motive g s → motive (g + 1) (renderFrame g s)) {s : State} (h : motive f s) :
    motive (f + n) (renderFrames n f es s).2 := by
  induction n generalizing f es s with
  | zero => exact h
  | succ n ih =>
    have hstep := hframe f (by omega) _ (applyDue_induction (hevent f) h)
    rw [← Nat.succ_add_eq_add_succ] at hframe ⊢
    exact ih (fun g k hk => hevent g k (applyDue_subset f es s k hk)) hframe hstep

/-- What holds before a RENDER, and is kept by each of its events and carried on by each of its frames, holds
after it. -/
theorem renderList_induction {F : Nat} (hevent : ∀ g, ∀ k ∈ es, ∀ s, motive g s → motive g (applyEvent k s))
    (hframe : ∀ g, g < F → ∀ s, motive g s → motive (g + 1) (renderFrame g s)) {s : State} (h : motive 0 s) :
    motive F (renderList F es s) := by
  have hframes : motive F (renderFrames F 0 es s).2 := by
    simpa using renderFrames_induction hevent (by simpa using hframe) h
  exact applyEvents_induction (fun k hk => hevent F k (renderFrames_subset F 0 es s k hk)) hframes

end Induction

/-! ## RENDER in contract -/

theorem renderList_changes (F : Nat) (es : List Nat) (s : State) : RenderChanges s (renderList F es s) :=
  (renderFrames_changes F 0 es s).trans (applyEvents_changes _ _)

/-- In contract RENDER renders its frames with the first K events (R272). -/
theorem exec_render {s : State} {F K : Nat} (h : s.STATUS.CFGD = true) (hF : s.OPA.toNat = F) (hK : s.OPB.toNat = K)
    (hc : renderInContract s F K = true) : exec .render s = .next (renderList F (List.range K) s) := by
  subst hF hK
  exact exec_render_inContract h hc

/-- The frames of a RENDER in contract have a place in OUT. -/
theorem frames_le_of_inContract {s : State} (hinv : s.Inv) (h : s.STATUS.CFGD = true) {F K : Nat}
    (hc : renderInContract s F K = true) : F ≤ s.params.MAX_FRAMES_HW := by
  obtain ⟨⟨-, -, -, -, -, hmax, -⟩, -⟩ := hinv.2.2 h
  exact ((renderInContract_iff s F K).1 hc).1.trans hmax

/-- Fewer frames and a stretch of the events, with their offsets lowered alike, are in contract too. -/
theorem renderInContract_part {s t : State} {F K F' K' d e : Nat} (hc : renderInContract s F K = true)
    (hfmt : t.fmt = s.fmt) (hparams : t.params = s.params) (hF : F' ≤ F) (hK : d + K' ≤ K)
    (hofs : ∀ k, k < K' → eventOFS t k = eventOFS s (d + k) - e) : renderInContract t F' K' = true := by
  obtain ⟨hF0, hK0, hsorted⟩ := (renderInContract_iff s F K).1 hc
  refine (renderInContract_iff t F' K').2 ⟨by rw [hfmt]; omega, by rw [hparams]; omega, fun k h1 h2 => ?_⟩
  change eventOFS t (k - 1) ≤ eventOFS t k
  have hle : eventOFS s (d + k - 1) ≤ eventOFS s (d + k) := hsorted (d + k) (by omega) (by omega)
  rw [hofs (k - 1) (by omega), hofs k h2, ← Nat.add_sub_assoc h1]
  omega

/-- RENDER with other operands, of events that stand elsewhere in the event memory. -/
theorem exec_render_carrying {s : State} {a b : Word} {m : Memory} {φ : Nat → Nat} {F K : Nat}
    (h : s.STATUS.CFGD = true) (ha : a.toNat = F) (hb : b.toNat = K)
    (hc : renderInContract (s.carrying a b m) F K = true) (he : EventsAt φ m s (List.range K)) :
    exec .render (s.carrying a b m) = .next ((renderList F ((List.range K).map φ) s).carrying a b m) := by
  rw [exec_render (s := s.carrying a b m) h ha hb hc, renderList_carrying F he]

theorem EventsAt.same {s t : State} (h : t.EVQ = s.EVQ) (es : List Nat) : EventsAt id s.EVQ t es :=
  fun _ _ _ _ => by rw [h]; rfl

/-- RENDER with fewer frames and events of the same memory. -/
theorem exec_render_fewer {s : State} {a b : Word} {F K F' K' : Nat} (h : s.STATUS.CFGD = true)
    (ha : a.toNat = F') (hb : b.toNat = K') (hc : renderInContract s F K = true) (hF : F' ≤ F) (hK : K' ≤ K) :
    exec .render { s with OPA := a, OPB := b } =
      .next ((renderList F' (List.range K') s).carrying a b s.EVQ) := by
  have hc' : renderInContract (s.carrying a b s.EVQ) F' K' = true :=
    renderInContract_part (d := 0) (e := 0) hc rfl rfl hF (by omega) fun k _ => by rw [Nat.zero_add]; rfl
  have hx := exec_render_carrying h ha hb hc' (EventsAt.same rfl (List.range K'))
  rwa [List.map_id] at hx

theorem toNat_ofNat_of_le {n : Nat} {w : Word} (h : n ≤ w.toNat) : (BitVec.ofNat 32 n).toNat = n := by
  rw [BitVec.toNat_ofNat, Nat.mod_eq_of_lt (h.trans_lt w.isLt)]

/-! ## What RENDER leaves (R270, R272) -/

theorem renderList_out {F : Nat} {es : List Nat} {s : State} {j : Nat}
    (hj : ∀ c f, c < s.fmt.C → f < F → j ≠ s.sampleIndex c f) : (renderList F es s).OUT.read j = s.OUT.read j := by
  rw [renderList, applyEvents_OUT]
  exact renderFrames_out F 0 es s j fun c f hc _ hf => hj c f hc (by omega)

/-- P[RATE] is left where no event names it: frames do not step it (R273). -/
theorem renderList_RATE {F : Nat} {es : List Nat} {s : State} (h : ∀ k ∈ es, s.EVQ.read (4 * k + 1) ≠ 0#32) :
    (renderList F es s).P.RATE = s.P.RATE := by
  refine (renderList_induction (motive := fun _ t => t.EVQ = s.EVQ ∧ t.P.RATE = s.P.RATE)
    (fun _ k hk t ht => ?_) (fun g _ t ht => ?_) ⟨rfl, rfl⟩).2
  · obtain ⟨hEVQ, hRATE⟩ := ht
    exact ⟨(applyEvent_changes k t).EVQ.trans hEVQ, (applyEvent_RATE (hEVQ ▸ h k hk)).trans hRATE⟩
  · obtain ⟨hEVQ, hRATE⟩ := ht
    refine ⟨(renderFrame_changes g t).EVQ.trans hEVQ, ?_⟩
    rw [renderFrame_P]
    exact hRATE

/-- Settles O34: events and frames change what RENDER may, and OUT by its samples. -/
theorem renderInContractCompletes : Obligations.RenderInContractCompletes := by
  intro s _ h hF hK hsorted
  obtain ⟨hframe, hrange⟩ := renderList_changes s.OPA.toNat (List.range s.OPB.toNat) s
  exact ⟨_, exec_render h rfl rfl ((renderInContract_iff ..).2 ⟨hF, hK, hsorted⟩), hframe, hrange,
    fun j hj => renderList_out hj, fun hrate => renderList_RATE fun k hk => hrate k (List.mem_range.1 hk)⟩

/-! ## RENDER against SETP (R267, R272) -/

theorem RenderChanges.restore {s t : State} (h : RenderChanges s t) : { t with OPA := s.OPA, OPB := s.OPB } = t := by
  rw [h.1]

/-- Settles O35: the state after k events is the one SETP takes to the next. -/
theorem renderOfNoFramesAppliesItsEvents : Obligations.RenderOfNoFramesAppliesItsEvents := by
  intro s h hOPA hc
  refine ⟨fun k => applyEvents (List.range k) s, rfl, fun k _ => ?_, exec_render h (by rw [hOPA]; rfl) rfl hc⟩
  have hch := applyEvents_changes (List.range k) s
  refine ⟨_, exec_setp_event k hch.EVQ.symm, ?_⟩
  have hnext : applyEvents (List.range (k + 1)) s = applyEvent k (applyEvents (List.range k) s) := by
    rw [applyEvents, List.range_succ, List.foldl_append]
    rfl
  refine hnext.trans ?_
  exact (hch.trans (applyEvent_changes k _)).restore.symm

/-- Settles O58: what is left to do after the first event is the RENDER of the others, one place further on. -/
theorem dueEventIsSetBeforeTheFrames : Obligations.DueEventIsSetBeforeTheFrames := by
  intro s K EVQ2 h hOPB hc hdue hev
  have hch := applyEvent_changes 0 s
  have hread : ∀ k, k < K → ∀ i, i < 4 → EVQ2.read (4 * k + i) = s.EVQ.read (4 * (k + 1) + i) := fun k hk i hi => by
    rw [hev _ (by omega)]
    congr 1
    omega
  have hc' : renderInContract ((applyEvent 0 s).carrying s.OPA (BitVec.ofNat 32 K) EVQ2) s.OPA.toNat K = true :=
    renderInContract_part (d := 1) (e := 0) hc hch.fmt hch.params le_rfl (by omega) fun k hk => by
      rw [Nat.add_comm 1 k]
      exact congrArg BitVec.toNat (hread k hk 0 (by omega))
  have hevents : EventsAt (· + 1) EVQ2 (applyEvent 0 s) (List.range K) := fun k hk i hi => by
    rw [hch.EVQ]
    exact hread k (List.mem_range.1 hk) i hi
  have hfirst : s.OPA.toNat = 0 ∨ eventOFS s 0 = 0 :=
    hdue.imp (fun h0 => by rw [h0]; rfl) fun h0 => by rw [eventOFS, Nat.mul_zero, h0]; rfl
  have hrender : exec .render s = .next (renderList s.OPA.toNat ((List.range K).map (· + 1)) (applyEvent 0 s)) := by
    rw [exec_render h rfl hOPB hc, List.range_succ_eq_map, renderList_due hfirst]
  refine ⟨_, _, exec_setp_event 0 rfl, exec_render_carrying (s := applyEvent 0 s) (hch.CFGD.trans h) rfl
    (toNat_ofNat_of_le (w := s.OPB) (by omega)) hc' hevents, hrender.trans ?_⟩
  exact congrArg Host.Outcome.next (hch.trans (renderList_changes ..)).keeps.symm

/-- Settles O59: RENDER of the other events leaves the last one to SETP. -/
theorem lateEventIsSetAfterTheFrames : Obligations.LateEventIsSetAfterTheFrames := by
  intro s K h hOPB hc hlate
  have hch := renderList_changes s.OPA.toNat (List.range K) s
  have hrender : exec .render s = .next (applyEvent K (renderList s.OPA.toNat (List.range K) s)) := by
    rw [exec_render h rfl hOPB hc, List.range_succ, renderList_late hlate]
  refine ⟨_, _, exec_render_fewer h rfl (toNat_ofNat_of_le (w := s.OPB) (by omega)) hc le_rfl (by omega),
    exec_setp_event (s := State.carrying ..) K rfl, hrender.trans ?_⟩
  rw [applyEvent_carrying (EventsAt.same hch.EVQ [K]) (List.mem_singleton_self K)]
  exact congrArg Host.Outcome.next (hch.trans (applyEvent_changes K _)).keeps.symm

/-! ## Frames in order (R277 (3), (5)) -/

/-- The samples of the first g frames are left as those frames wrote them. -/
theorem renderFrames_outSample {n g c f : Nat} {es : List Nat} {s : State} (hn : g ≤ n)
    (hmax : n ≤ s.params.MAX_FRAMES_HW) (hf : f < g) :
    (renderFrames n 0 es s).2.outSample c f = (renderFrames g 0 es s).2.outSample c f := by
  obtain ⟨m, rfl⟩ := Nat.exists_eq_add_of_le hn
  have hch := renderFrames_changes g 0 es s
  rw [renderFrames_add, State.outSample, sampleIndex_congr (renderFrames_changes ..)]
  refine renderFrames_out _ _ _ _ _ fun d k _ hk1 hk2 heq => ?_
  rw [← hch.params] at hmax
  have hfk := (sampleIndex_inj (by omega) (by omega) heq).2
  omega

theorem renderList_outSample {F g c f : Nat} {es : List Nat} {s : State} (hF : g ≤ F)
    (hmax : F ≤ s.params.MAX_FRAMES_HW) (hf : f < g) :
    (renderList F es s).outSample c f = (renderFrames g 0 es s).2.outSample c f := by
  rw [← renderFrames_outSample hF hmax hf, renderList, State.outSample, applyEvents_OUT,
    sampleIndex_congr (applyEvents_changes ..)]
  rfl

/-- Settles O40: at frame f0 both runs have the same frames behind them and only later events before them. -/
theorem eventsDoNotReachEarlierFrames : Obligations.EventsDoNotReachEarlierFrames := by
  intro s K' f0 hinv h hc hK hlate
  have hmax := frames_le_of_inContract hinv h hc
  refine ⟨_, _, exec_render h rfl rfl hc,
    exec_render_fewer h rfl (toNat_ofNat_of_le hK) hc le_rfl hK, fun c f _ hf0 hfF => ?_⟩
  obtain ⟨later, hlater⟩ := Nat.exists_eq_add_of_le hK
  have hsame : (renderFrames (min f0 s.OPA.toNat) 0 (List.range s.OPB.toNat) s).2 =
      (renderFrames (min f0 s.OPA.toNat) 0 (List.range K') s).2 := by
    rw [hlater, List.range_add, renderFrames_append]
    intro e he
    obtain ⟨k, hk, rfl⟩ := List.mem_map.1 he
    have hofs := hlate (K' + k) (by omega) (by have := List.mem_range.1 hk; omega)
    omega
  rw [renderList_outSample (min_le_right f0 _) hmax (by omega), hsame]
  exact (renderList_outSample (min_le_right f0 _) hmax (by omega)).symm

end Sys2Proof.Machine
end

section
/-!
PROOFS, 44_engine.md R277 (5). A RENDER in two parts.
-/

namespace Sys2Proof.Machine

/-- Events at the offsets of a run of frames are all applied in it, none left over. -/
theorem renderFrames_leaves_none {n f : Nat} {es : List Nat} {s : State}
    (h : ∀ e ∈ es, f ≤ eventOFS s e ∧ eventOFS s e < f + n) : (renderFrames n f es s).1 = [] :=
  renderFrames_all (fun e he => (h e he).2) fun hn =>
    List.eq_nil_iff_forall_not_mem.2 fun e he => by have := h e he; omega

theorem renderList_of_leaves_none {n : Nat} {es : List Nat} {s : State} (h : (renderFrames n 0 es s).1 = []) :
    renderList n es s = (renderFrames n 0 es s).2 := by
  rw [renderList, h]
  rfl

section Split

variable {n m : Nat} {es later : List Nat} {s : State} (hes : ∀ e ∈ es, eventOFS s e < n)
  (hlater : ∀ e ∈ later, n ≤ eventOFS s e ∧ eventOFS s e < n + m)
include hlater

/-- The outputs of the first n frames are those of the RENDER of them. -/
theorem renderList_split_outSample (hmax : n + m ≤ s.params.MAX_FRAMES_HW) {c f : Nat} (hf : f < n) :
    (renderList n es s).outSample c f = (renderList (n + m) (es ++ later) s).outSample c f := by
  rw [renderList_outSample (Nat.le_add_right n m) hmax hf, renderList_outSample le_rfl (by omega) hf,
    renderFrames_append es fun e he => by have := hlater e he; omega]

include hes

/-- The last m of n + m frames run on from the RENDER of the first n. -/
theorem renderList_split :
    renderList (n + m) (es ++ later) s = (renderFrames m n later (renderList n es s)).2 := by
  have hall : ∀ e ∈ es ++ later, 0 ≤ eventOFS s e ∧ eventOFS s e < 0 + (n + m) := fun e he => by
    rcases List.mem_append.1 he with he | he
    · have := hes e he
      omega
    · have := hlater e he
      omega
  have hfirst : (renderFrames n 0 es s).1 = [] := renderFrames_leaves_none fun e he => by have := hes e he; omega
  rw [renderList_of_leaves_none (renderFrames_leaves_none hall), renderFrames_add,
    renderFrames_append es fun e he => by have := hlater e he; omega, hfirst, renderList_of_leaves_none hfirst,
    Nat.zero_add, List.nil_append]

/-- A RENDER of m frames from the same core, with the later events and their input n frames earlier, ends in the
same core and gives the outputs of the last m frames. -/
theorem renderList_split_sameCore {v : State} {es' : List Nat} (hcore : SameCore (renderList n es s) v)
    (hmatch : EventsMatch n s v later es') (hmax : n + m ≤ s.params.MAX_FRAMES_HW)
    (hin : ∀ c k, c < s.fmt.C → k < m → v.inSample c k = s.inSample c (n + k)) :
    SameCore (renderList (n + m) (es ++ later) s) (renderList m es' v) ∧
      ∀ c k, c < s.fmt.C → k < m →
        (renderList m es' v).outSample c k = (renderList (n + m) (es ++ later) s).outSample c (n + k) := by
  have hch := renderList_changes n es s
  obtain ⟨hsame, hleft, hout⟩ := hcore.renderFrames (f := 0) (n := m) (hmatch.congr hch (.refl v))
    (by rw [hch.params]; omega) fun c k hc _ hk => by
      rw [inSample_congr hch]
      exact hin c k (hch.fmt ▸ hc) (by omega)
  have hnone : (renderFrames m n later (renderList n es s)).1 = [] := renderFrames_leaves_none fun e he => by
    rw [eventOFS_congr hch]
    exact hlater e he
  have hnone' : (renderFrames m 0 es' v).1 = [] := by
    rw [Nat.add_zero, hnone] at hleft
    exact List.forall₂_nil_left_iff.1 hleft
  rw [renderList_split hes hlater, renderList_of_leaves_none hnone']
  exact ⟨hsame, fun c k hc hk => hout c k (by rw [hch.fmt]; exact hc) (Nat.zero_le k) (by omega)⟩

end Split

/-- The first K events of one memory are those from number K1 on of another, d frames earlier. -/
theorem EventsMatch.of_reads {s t : State} {d K1 K : Nat}
    (hd : ∀ k, k < K → d ≤ eventOFS s (K1 + k))
    (h : ∀ k, k < K → (t.EVQ.read (4 * k)).toNat = eventOFS s (K1 + k) - d ∧
      t.EVQ.read (4 * k + 1) = s.EVQ.read (4 * (K1 + k) + 1) ∧
      t.EVQ.read (4 * k + 2) = s.EVQ.read (4 * (K1 + k) + 2) ∧
      t.EVQ.read (4 * k + 3) = s.EVQ.read (4 * (K1 + k) + 3)) :
    EventsMatch d s t ((List.range K).map (K1 + ·)) (List.range K) := by
  refine List.forall₂_map_left_iff.2 (List.forall₂_same.2 fun k hk => ?_)
  obtain ⟨hofs, hpid, hval, hrmp⟩ := h k (List.mem_range.1 hk)
  exact ⟨hd k (List.mem_range.1 hk), hofs, congrArg BitVec.toNat hpid, hval, hrmp⟩

/-- The RENDER of the later events, from a state with the core the first F1 frames end in (R277 (5)). -/
theorem exec_render_rest {s v : State} {F1 F2 K1 K2 : Nat} (hinv : s.Inv) (h : s.STATUS.CFGD = true)
    (hc : renderInContract s (F1 + F2) (K1 + K2) = true) (hfirst : ∀ k, k < K1 → eventOFS s k < F1)
    (hlast : ∀ k, k < K2 → F1 ≤ eventOFS s (K1 + k) ∧ eventOFS s (K1 + k) < F1 + F2)
    (hcore : SameCore (renderList F1 (List.range K1) s) v) (hOPA : v.OPA.toNat = F2) (hOPB : v.OPB.toNat = K2)
    (hIN : ∀ c k, c < s.fmt.C → k < F2 → v.IN.read (s.sampleIndex c k) = s.inSample c (F1 + k))
    (hEVQ : ∀ k, k < K2 → (v.EVQ.read (4 * k)).toNat = eventOFS s (K1 + k) - F1 ∧
      v.EVQ.read (4 * k + 1) = s.EVQ.read (4 * (K1 + k) + 1) ∧
      v.EVQ.read (4 * k + 2) = s.EVQ.read (4 * (K1 + k) + 2) ∧
      v.EVQ.read (4 * k + 3) = s.EVQ.read (4 * (K1 + k) + 3)) :
    let u := renderList (F1 + F2) (List.range (K1 + K2)) s
    ∃ w, exec .render v = .next w ∧ w.P = u.P ∧ w.L = u.L ∧ w.lines = u.lines ∧ w.STATUS = u.STATUS ∧
      w.draws = u.draws ∧ ∀ c k, c < s.fmt.C → k < F2 → w.outSample c k = u.outSample c (F1 + k) := by
  intro u
  have hch := renderList_changes F1 (List.range K1) s
  have hparams : v.params = s.params := hcore.params.trans hch.params
  have hc' : renderInContract v F2 K2 = true :=
    renderInContract_part hc (hcore.fmt.trans hch.fmt) hparams (by omega) le_rfl fun k hk => (hEVQ k hk).1
  have hmatch := EventsMatch.of_reads (fun k hk => (hlast k hk).1) hEVQ
  have hin : ∀ c k, c < s.fmt.C → k < F2 → v.inSample c k = s.inSample c (F1 + k) := fun c k hc hk => by
    rw [State.inSample, State.sampleIndex, hparams]
    exact hIN c k hc hk
  have hu : u = renderList (F1 + F2) (List.range K1 ++ (List.range K2).map (K1 + ·)) s := by rw [← List.range_add]
  obtain ⟨hsame, hout⟩ := renderList_split_sameCore (by simpa using hfirst) (by simpa using hlast) hcore hmatch
    (frames_le_of_inContract hinv h hc) hin
  rw [hu]
  exact ⟨_, exec_render (by rw [hcore.STATUS, hch.CFGD, h]) hOPA hOPB hc', hsame.P, hsame.L, hsame.lines,
    hsame.STATUS, hsame.draws, hout⟩

/-- Settles O39: the second RENDER starts in the core the first F1 frames end in, and its events and its input are the
later ones, F1 frames earlier. -/
theorem renderSplitsAtAnyFrame : Obligations.RenderSplitsAtAnyFrame := by
  intro s F1 F2 K1 K2 hinv h hOPA hOPB hc hfirst hlast
  have hlast' : ∀ k, k < K2 → F1 ≤ eventOFS s (K1 + k) ∧ eventOFS s (K1 + k) < F1 + F2 := fun k hk =>
    hlast (K1 + k) (by omega) (by omega)
  have hF : ∀ n, n ≤ F1 + F2 → (BitVec.ofNat 32 n).toNat = n := fun n hn =>
    toNat_ofNat_of_le (w := s.OPA) (hOPA ▸ hn)
  have hK : ∀ n, n ≤ K1 + K2 → (BitVec.ofNat 32 n).toNat = n := fun n hn =>
    toNat_ofNat_of_le (w := s.OPB) (hOPB ▸ hn)
  refine ⟨_, _, exec_render h hOPA hOPB hc,
    exec_render_fewer h (hF F1 (by omega)) (hK K1 (by omega)) hc (by omega) (by omega), fun c f _ hf => ?_,
    fun IN2 EVQ2 hIN hEVQ => ?_⟩
  · rw [List.range_add]
    exact renderList_split_outSample (by simpa using hlast') (frames_le_of_inContract hinv h hc) hf
  · exact exec_render_rest hinv h hc hfirst hlast' ⟨rfl, rfl, rfl, rfl, rfl, rfl, rfl⟩ (hF F2 (by omega))
      (hK K2 (by omega)) hIN hEVQ

end Sys2Proof.Machine
end

section
/-!
PROOFS, 44_engine.md R273 to R277 (1), (2), (4). Frames that are bypassed and frames that are mixed.
-/

namespace Sys2Proof.Machine

/-! ## The two kinds of frame (R273) -/

theorem renderFrame_of_bypass (f : Nat) {s : State}
    (h : tapBypass s.params s.P.frame.DELAY.value s.P.frame.DEPTH.value = true) :
    renderFrame f s = bypassFrame f { s with P := s.P.frame } := by rw [renderFrame_eq, if_pos h]

theorem renderFrame_of_mix (f : Nat) {s : State}
    (h : tapBypass s.params s.P.frame.DELAY.value s.P.frame.DEPTH.value = false) :
    renderFrame f s = mixFrame f { s with P := s.P.frame } := by
  rw [renderFrame_eq, if_neg (Bool.eq_false_iff.1 h)]

/-- RENDER of one event-free frame. -/
theorem exec_render_one {s : State} (hinv : s.Inv) (h : s.STATUS.CFGD = true) (hOPA : s.OPA = 1#32)
    (hOPB : s.OPB = 0#32) : exec .render s = .next (renderFrame 0 s) := by
  obtain ⟨⟨-, -, -, -, hMAXF, -⟩, -⟩ := hinv.2.2 h
  exact exec_render h (F := 1) (K := 0) (by rw [hOPA]; rfl) (by rw [hOPB]; rfl)
    ((renderInContract_iff ..).2 ⟨hMAXF, Nat.zero_le _, fun k _ hk => absurd hk (Nat.not_lt_zero k)⟩)

/-! ## Bypassed frames (R275) -/

/-- A bypassed frame writes OUT, and the bank where BYPASS_ADVANCES_LFO. -/
theorem bypassFrame_eq (f : Nat) (s : State) : bypassFrame f s = { s with
    L := if s.params.BYPASS_ADVANCES_LFO then (advanceBank s).L else s.L
    OUT := (bypassFrame f s).OUT } := by
  unfold bypassFrame
  rw [copyChannels_eq]
  cases s.params.BYPASS_ADVANCES_LFO <;> rfl

theorem bypassFrame_outSample (f : Nat) {s : State} {c : Nat} (hc : c < s.fmt.C) :
    (bypassFrame f s).outSample c f = s.inSample c f := by
  have hcopy := copyChannels_out f hc s
  unfold bypassFrame
  cases s.params.BYPASS_ADVANCES_LFO <;> exact hcopy

/-- Settles O60: the frame is the bypass of the state with its ramps stepped. -/
theorem oneBypassedFrameCopiesAndStepsTheRamps : Obligations.OneBypassedFrameCopiesAndStepsTheRamps := by
  intro s hinv h hOPA hOPB hv hzero
  have hframe := renderFrame_of_bypass 0 (s := s) ((tapBypass_iff ..).2 ⟨hv, hzero⟩)
  have heq := bypassFrame_eq 0 { s with P := s.P.frame }
  refine ⟨_, exec_render_one hinv h hOPA hOPB, ?_, ?_⟩
  · rw [hframe, heq]
  refine ⟨fun c hc => ?_, fun j hj => renderFrame_outOnly 0 s j hj, fun hb => ?_, fun hb => ?_, renderFrame_P 0 s⟩
  · rw [hframe]
    exact bypassFrame_outSample 0 (s := { s with P := s.P.frame }) hc
  · rw [hframe, heq]
    exact if_neg (Bool.eq_false_iff.1 hb)
  · have hL : (renderFrame 0 s).L = (advanceBank s).L := by
      rw [hframe, heq]
      exact if_pos hb
    refine ⟨by rw [hL]; exact mapBank_length _ s, fun i hi => ?_⟩
    have hosc : (renderFrame 0 s).osc i = (s.osc i).increment := by
      rw [State.osc, hL]
      exact advanceBank_osc s hi
    rw [hosc]
    exact ⟨rfl, rfl⟩

/-- The delay or the depth is at rest at a zero. -/
def ParamFile.ZeroAtRest (P : ParamFile) : Prop :=
  (P.DELAY.remaining = 0#32 ∧ NUM.eq P.DELAY.value NUM.zero = true) ∨
    (P.DEPTH.remaining = 0#32 ∧ NUM.eq P.DEPTH.value NUM.zero = true)

theorem ParamFile.ZeroAtRest.frame {P : ParamFile} (h : P.ZeroAtRest) : P.frame.ZeroAtRest := by
  refine h.imp (fun hd => ?_) fun hd => ?_
  · rw [ParamFile.frame, rpFrame_rest hd.1]
    exact hd
  · rw [ParamFile.frame, rpFrame_rest hd.1]
    exact hd

theorem ParamFile.ZeroAtRest.tapBypass {P : ParamFile} (h : P.ZeroAtRest) {p : Params} (hv : p.VARIANT = .FLANGE) :
    tapBypass p P.DELAY.value P.DEPTH.value = true :=
  (tapBypass_iff ..).2 ⟨hv, h.imp And.right And.right⟩

/-- `t` is `s` after g bypassed frames. -/
structure BypassedFor (s : State) (g : Nat) (t : State) : Prop where
  changes : RenderChanges s t
  lines : t.lines = s.lines
  STATUS : t.STATUS = s.STATUS
  bank : s.params.BYPASS_ADVANCES_LFO = false → t.L = s.L
  zero : t.P.ZeroAtRest
  copied : ∀ c f, c < s.fmt.C → f < g → t.outSample c f = s.inSample c f

/-- A frame leaves the samples of another. -/
theorem renderFrame_outSample_other {f g : Nat} {s : State} (hf : f < s.params.MAX_FRAMES_HW)
    (hg : g < s.params.MAX_FRAMES_HW) (hfg : f ≠ g) (c : Nat) :
    (renderFrame g s).outSample c f = s.outSample c f := by
  rw [State.outSample, sampleIndex_congr (renderFrame_changes g s)]
  exact renderFrame_outOnly g s _ fun d _ heq => hfg (sampleIndex_inj hf hg heq).2

theorem BypassedFor.renderFrame {s t : State} {g : Nat} (h : BypassedFor s g t) (hv : s.params.VARIANT = .FLANGE)
    (hg : g < s.params.MAX_FRAMES_HW) : BypassedFor s (g + 1) (renderFrame g t) := by
  have hch := h.changes
  have hframe := renderFrame_of_bypass g (h.zero.frame.tapBypass (p := t.params) (by rw [hch.params, hv]))
  have heq := bypassFrame_eq g { t with P := t.P.frame }
  refine ⟨hch.trans (renderFrame_changes g t), ?_, ?_, fun hb => ?_, ?_, fun c f hc hf => ?_⟩
  · rw [hframe, heq]
    exact h.lines
  · rw [hframe, heq]
    exact h.STATUS
  · rw [hframe, heq]
    exact (if_neg (by rw [hch.params, hb]; decide)).trans (h.bank hb)
  · rw [renderFrame_P]
    exact h.zero.frame
  · by_cases hfg : f = g
    · subst hfg
      rw [hframe, bypassFrame_outSample f (s := { t with P := t.P.frame }) (by rw [hch.fmt]; exact hc)]
      exact inSample_congr hch c f
    · have hg' : g < t.params.MAX_FRAMES_HW := by rwa [hch.params]
      rw [renderFrame_outSample_other (by omega) hg' hfg]
      exact h.copied c f hc (by omega)

/-- Settles O36: every frame is bypassed, since no event moves the value at rest. -/
theorem bypassRenderCopiesTheInput : Obligations.BypassRenderCopiesTheInput := by
  intro s hinv h hv hF hOPB hzero
  have hc : renderInContract s s.OPA.toNat 0 = true :=
    (renderInContract_iff ..).2 ⟨hF, Nat.zero_le _, fun k _ hk => absurd hk (Nat.not_lt_zero k)⟩
  have hmax := frames_le_of_inContract hinv h hc
  have hrest : BypassedFor s s.OPA.toNat (renderList s.OPA.toNat [] s) :=
    renderList_induction (motive := BypassedFor s) (fun _ _ hk => absurd hk List.not_mem_nil)
      (fun g hg _ ht => ht.renderFrame hv (by omega))
      ⟨.refl s, rfl, rfl, fun _ => rfl, hzero, fun _ _ _ hf => absurd hf (Nat.not_lt_zero _)⟩
  exact ⟨_, exec_render h rfl (by rw [hOPB]; rfl) hc, hrest.lines, hrest.STATUS, hrest.bank, hrest.copied⟩

/-! ## The delay lines of a CHORUS block (R277 (4)) -/

/-- A frame of a CHORUS block writes each channel's sample into its line. -/
theorem renderFrame_line_chorus (f : Nat) {s : State} (hv : s.params.VARIANT = .CHORUS) {c : Nat} (hc : c < s.fmt.C)
    (hl : c < s.lines.length) : (renderFrame f s).line c = (s.line c).write s.fmt.N (s.inSample c f) := by
  have hmix : tapBypass s.params s.P.frame.DELAY.value s.P.frame.DEPTH.value = false := by rw [tapBypass, hv]
  rw [renderFrame_of_mix f hmix]
  exact mixFrame_line f { s with P := s.P.frame } hc hl

/-- `t` is `s` after g frames that each wrote channel c's sample into its line. -/
structure WrittenFor (s : State) (c g : Nat) (t : State) : Prop where
  changes : RenderChanges s t
  sound : RenderSound t
  line : t.line c = ((List.range g).map (s.inSample c)).foldl (fun l x => l.write s.fmt.N x) (s.line c)

theorem WrittenFor.applyEvent {s t : State} {c g : Nat} (h : WrittenFor s c g t) (k : Nat) :
    WrittenFor s c g (applyEvent k t) := by
  refine ⟨h.changes.trans (applyEvent_changes k t), applyParam_sound _ _ _ h.sound, ?_⟩
  rw [Machine.applyEvent, applyParam_eq]
  exact h.line

theorem WrittenFor.renderFrame {s t : State} {c g : Nat} (h : WrittenFor s c g t) (hv : s.params.VARIANT = .CHORUS)
    (hc : c < s.fmt.C) (hg : g < s.params.MAX_FRAMES_HW) : WrittenFor s c (g + 1) (renderFrame g t) := by
  have hch := h.changes
  have hc' : c < t.fmt.C := by rw [hch.fmt]; exact hc
  refine ⟨hch.trans (renderFrame_changes g t), renderFrame_sound h.sound (by rw [hch.params]; exact hg), ?_⟩
  rw [renderFrame_line_chorus g (by rw [hch.params, hv]) hc' (by rw [h.sound.count]; exact hc'), h.line, hch.fmt,
    inSample_congr hch, List.range_succ, List.map_append, List.foldl_append]
  rfl

/-- Settles O38: events leave the lines, and each frame writes one sample. -/
theorem renderWritesTheInputIntoTheLines : Obligations.RenderWritesTheInputIntoTheLines := by
  intro s hinv h hv hc
  have hmax := frames_le_of_inContract hinv h hc
  refine ⟨_, exec_render h rfl rfl hc, fun c hcC => ?_⟩
  have hwritten : WrittenFor s c s.OPA.toNat (renderList s.OPA.toNat (List.range s.OPB.toNat) s) :=
    renderList_induction (motive := WrittenFor s c) (fun _ k _ _ ht => ht.applyEvent k)
      (fun g hg _ ht => ht.renderFrame hv hcC (by omega)) ⟨.refl s, hinv.renderSound h, rfl⟩
  exact hwritten.line

/-! ## A frame that is mixed (R274, R276, R277 (2)) -/

/-- What a channel puts out where its taps are inside the line: wet times the mean of the reads, plus dry times its
input (R236, R276). -/
def mixedSample (s : State) (taps : List NUM) (wet dry : NUM) (c f : Nat) : NUM :=
  NUM.add (NUM.mul wet (NUM.div ((taps.map (lineRead s.params s.fmt.N (s.line c))).foldl NUM.add NUM.zero)
    (toNUM s.params.T))) (NUM.mul dry (s.inSample c f))

section Channels

variable (f : Nat) (E O : List NUM) (wet dry : NUM) {s : State} {c : Nat}

theorem channelStep_outSample
    (h : ∀ x ∈ (if c % 2 = 1 then O else E), offsetInRange s.fmt.N x = true) :
    (channelStep f E O wet dry s c).outSample c f =
      mixedSample s (if c % 2 = 1 then O else E) wet dry c f := by
  rw [State.outSample, channelStep_OUT, sampleIndex_congr (channelStep_changes f E O wet dry s c),
    Memory.read_write_same, tapMean_inside c h]
  rfl

/-- A channel's step changes nothing that another channel's output depends on. -/
theorem channelStep_mixedSample_other {d : Nat} (h : c ≠ d) (taps : List NUM) :
    mixedSample (channelStep f E O wet dry s d) taps wet dry c f = mixedSample s taps wet dry c f := by
  have hch := channelStep_changes f E O wet dry s d
  have hline : (channelStep f E O wet dry s d).line c = s.line c := by
    rw [State.line, channelStep_lines]
    exact getD_modify_other _ _ _ h
  rw [mixedSample, hch.params, hch.fmt, hline, inSample_congr hch]
  rfl

/-- Each channel's output is the one its own step gives, from the lines as they were before the frame. -/
theorem channels_outSample {cs : List Nat} (hn : cs.Nodup) (hc : c ∈ cs)
    (h : ∀ x ∈ (if c % 2 = 1 then O else E), offsetInRange s.fmt.N x = true) :
    (cs.foldl (channelStep f E O wet dry) s).outSample c f =
      mixedSample s (if c % 2 = 1 then O else E) wet dry c f := by
  induction cs generalizing s with
  | nil => cases hc
  | cons d cs ih =>
    obtain ⟨hd, hn⟩ := List.nodup_cons.1 hn
    rw [List.foldl_cons]
    by_cases hcd : c = d
    · subst hcd
      rw [foldl_out (channelStep_changes f E O wet dry) (channelStep_other f E O wet dry) cs _ hd,
        channelStep_outSample f E O wet dry h]
    · have hfmt := (channelStep_changes f E O wet dry s d).fmt
      rw [ih hn ((List.mem_cons.1 hc).resolve_left hcd) (by rwa [hfmt]),
        channelStep_mixedSample_other f E O wet dry hcd]

end Channels

/-- The taps a channel reads: the odd set for an odd channel (00_scope.md R17). -/
def channelTaps (s : State) (c : Nat) : List NUM :=
  if c % 2 = 1 then (tapSets s s.P.DELAY.value s.P.DEPTH.value s.P.odd90).2
  else (tapSets s s.P.DELAY.value s.P.DEPTH.value s.P.odd90).1

theorem channelTaps_eq (s : State) (c : Nat) : channelTaps s c = (List.range s.params.T).map fun i =>
    if c % 2 = 0 then evenTap s s.P.DELAY.value s.P.DEPTH.value i
    else oddTap s s.P.DELAY.value s.P.DEPTH.value s.P.odd90 i := by
  rcases Nat.mod_two_eq_zero_or_one c with h | h
  · simp [channelTaps, tapSets, h]
  · simp [channelTaps, tapSets, h]

theorem mixFrame_outSample (f : Nat) {s : State} {c : Nat} (hc : c < s.fmt.C)
    (h : ∀ x ∈ channelTaps s c, offsetInRange s.fmt.N x = true) :
    (mixFrame f s).outSample c f = mixedSample s (channelTaps s c) s.P.WET.value s.P.DRY.value c f :=
  channels_outSample f _ _ _ _ (s := advanceBank s) List.nodup_range (List.mem_range.2 hc) h

/-- A frame sets E_RANGE exactly where a tap of a channel is outside its line (60_exceptions.md R314). -/
theorem mixFrame_E_RANGE_iff (f : Nat) (s : State) : (mixFrame f s).STATUS.E_RANGE = true ↔
    s.STATUS.E_RANGE = true ∨ ∃ c, c < s.fmt.C ∧ ∃ x ∈ channelTaps s c, offsetInRange s.fmt.N x = false := by
  have hstatus := channels_STATUS f (tapSets s s.P.DELAY.value s.P.DEPTH.value s.P.odd90).1
    (tapSets s s.P.DELAY.value s.P.DEPTH.value s.P.odd90).2 s.P.WET.value s.P.DRY.value (List.range s.fmt.C)
    (advanceBank s)
  rw [mixFrame, frameTaps, hstatus]
  simp only [advanceBank_STATUS, advanceBank_fmt, Bool.or_eq_true, List.any_eq_true, List.mem_range,
    Bool.not_eq_true', channelTaps]

theorem foldl_L {g : State → Nat → State} (hg : ∀ s c, (g s c).L = s.L) (cs : List Nat) (s : State) :
    (cs.foldl g s).L = s.L := by
  induction cs generalizing s with
  | nil => rfl
  | cons c cs ih => exact (ih _).trans (hg s c)

/-- A frame that is mixed advances every oscillator once (R233). -/
theorem mixFrame_osc (f : Nat) (s : State) {i : Nat} (hi : i < s.params.T) :
    (mixFrame f s).osc i = (s.osc i).increment := by
  have hL : (mixFrame f s).L = (advanceBank s).L := foldl_L (fun _ _ => channelStep_L ..) _ _
  rw [State.osc, hL]
  exact advanceBank_osc s hi

/-- Settles O37: the frame is the mix of the state with its ramps stepped. -/
theorem oneFrameIsTheWetDryMix : Obligations.OneFrameIsTheWetDryMix := by
  intro s hinv h hOPA hOPB dly dep dry wet o90 taps mean hmix
  obtain ⟨-, -, hcount, -⟩ := hinv.2.2 h
  have hframe := renderFrame_of_mix 0 (s := s) hmix
  have htaps : ∀ c, taps c = channelTaps { s with P := s.P.frame } c := fun c =>
    (channelTaps_eq { s with P := s.P.frame } c).symm
  refine ⟨_, exec_render_one hinv h hOPA hOPB, (renderFrame_changes 0 s).1, ?_, fun c hc hin => ?_, fun c hc => ?_,
    fun i hi => ?_, renderFrame_P 0 s⟩
  · simp only [hframe, mixFrame_E_RANGE_iff, htaps]
  · rw [htaps c] at hin
    rw [hframe, mixFrame_outSample 0 (s := { s with P := s.P.frame }) hc hin, ← htaps c]
    rfl
  · rw [hframe]
    exact mixFrame_line 0 { s with P := s.P.frame } hc (hcount ▸ hc)
  · rw [hframe]
    exact mixFrame_osc 0 { s with P := s.P.frame } hi

end Sys2Proof.Machine
end

section
/-!
PROOFS, 60_exceptions.md R310 to R317. A command records at most one error, the first of its checks to fail; only
RENDER in contract can set a bit (E_RANGE) besides.
-/

namespace Sys2Proof.Machine

/-! ## The error a command's checks record -/

/-- The operands break the command's contract (R313). -/
def breaksContract (s : State) : Instr → Bool
  | .cfg => !cfgValid s.params s.OPA.toNat s.OPB s.OPC.toNat s.OPD
  | .render => !renderInContract s s.OPA.toNat s.OPB.toNat
  | _ => false

/-- The command is DLRD at an offset outside the line (R314). -/
def readsOutside (s : State) : Instr → Bool
  | .dlrd _ => !offsetInRange s.fmt.N s.OPA
  | _ => false

/-- The error recorded by the checks, in their order (R317): the first that fails. -/
def recordedError (s : State) (i : Instr) : Option Err :=
  if i.needsFormat && !s.STATUS.CFGD then some .E_NOTCFG
  else if i.badSelector s then some .E_SEL
  else if breaksContract s i then some .E_PRECOND
  else if readsOutside s i then some .E_RANGE
  else none

/-- The command is a RENDER that runs its frames (R272). -/
def Renders (s : State) (i : Instr) : Prop :=
  i = .render ∧ s.STATUS.CFGD = true ∧ renderInContract s s.OPA.toNat s.OPB.toNat = true

section Recorded

variable {s : State} {i : Instr}

theorem recordedError_unconfigured (hi : i.needsFormat = true) (hc : s.STATUS.CFGD = false) :
    recordedError s i = some .E_NOTCFG := by simp [recordedError, hi, hc]

/-- Past the check of CFGD (R311). -/
theorem recordedError_of_format (hc : i.needsFormat = true → s.STATUS.CFGD = true) :
    recordedError s i = if i.badSelector s then some .E_SEL
      else if breaksContract s i then some .E_PRECOND
      else if readsOutside s i then some .E_RANGE else none := by
  rw [recordedError, if_neg]
  simpa using hc

theorem recordedError_badSelector (hs : i.badSelector s = true)
    (hc : i.needsFormat = true → s.STATUS.CFGD = true) : recordedError s i = some .E_SEL := by
  rw [recordedError_of_format hc, if_pos hs]

theorem recordedError_breaksContract (hs : i.badSelector s = false)
    (hc : i.needsFormat = true → s.STATUS.CFGD = true) (hb : breaksContract s i = true) :
    recordedError s i = some .E_PRECOND := by
  simp [recordedError_of_format hc, hs, hb]

theorem recordedError_readsOutside (hs : i.badSelector s = false)
    (hc : i.needsFormat = true → s.STATUS.CFGD = true) (hb : breaksContract s i = false)
    (hx : readsOutside s i = true) : recordedError s i = some .E_RANGE := by
  simp [recordedError_of_format hc, hs, hb, hx]

theorem recordedError_none (hs : i.badSelector s = false)
    (hc : i.needsFormat = true → s.STATUS.CFGD = true) (hb : breaksContract s i = false)
    (hx : readsOutside s i = false) : recordedError s i = none := by
  simp [recordedError_of_format hc, hs, hb, hx]

theorem breaksContract_of_writesRES (h : i.writesRES = true) : breaksContract s i = false := by
  cases i with
  | cfg | render => cases h
  | _ => rfl

theorem readsOutside_of_inRange (hx : ∀ c, i = .dlrd c → offsetInRange s.fmt.N s.OPA = true) :
    readsOutside s i = false := by
  cases i with
  | dlrd c => simp [readsOutside, hx c rfl]
  | _ => rfl

end Recorded

/-! ## The bits a command leaves -/

section Has

variable {s t : State} {i : Instr}

theorem has_of_raises {e' : Err} (ht : t.STATUS = s.STATUS.set e') (h : recordedError s i = some e') (e : Err) :
    t.STATUS.has e = (decide (recordedError s i = some e) || s.STATUS.has e) := by
  simp [ht, h, Status.has_set]

theorem has_of_keeps (ht : t.STATUS = s.STATUS) (h : recordedError s i = none) (e : Err) :
    t.STATUS.has e = (decide (recordedError s i = some e) || s.STATUS.has e) := by
  simp [ht, h]

/-- Rendering touches no bit but E_RANGE. -/
theorem RenderChanges.has_eq (h : RenderChanges s t) {e : Err} (he : e ≠ .E_RANGE) :
    t.STATUS.has e = s.STATUS.has e := by
  rw [h.1]
  cases e with
  | E_RANGE => exact absurd rfl he
  | E_ILL | E_NOTCFG | E_SEL | E_PRECOND => rfl

/-- A command sets the bit of the error its checks record and no other, but for the E_RANGE of RENDER's frames. -/
theorem CommandEffect.has_eq (hx : CommandEffect s i t) {e : Err} (he : e = .E_RANGE → ¬ Renders s i) :
    t.STATUS.has e = (decide (recordedError s i = some e) || s.STATUS.has e) := by
  cases hx with
  | unconfigured hi _ hc => exact has_of_raises rfl (recordedError_unconfigured hi hc) e
  | badSelector hs hc => exact has_of_raises rfl (recordedError_badSelector hs hc) e
  | answer v hi hs hc hin =>
    exact has_of_keeps rfl
      (recordedError_none hs hc (breaksContract_of_writesRES hi) (readsOutside_of_inRange hin)) e
  | readOutside hc hn hout =>
    refine has_of_raises (e' := .E_RANGE) rfl ?_ e
    exact recordedError_readsOutside (decide_eq_false (Nat.not_le.2 hn)) (fun _ => hc) rfl
      (by simp [readsOutside, hout])
  | configure hv =>
    refine (Status.has_withCFGD s.STATUS true e).trans (has_of_keeps rfl ?_ e)
    exact recordedError_none rfl nofun (by simp [breaksContract, hv]) rfl
  | deconfigure hv =>
    refine (Status.has_withCFGD (s.raise .E_PRECOND).STATUS false e).trans (has_of_raises (e' := .E_PRECOND) rfl ?_ e)
    exact recordedError_breaksContract rfl nofun (by simp [breaksContract, hv])
  | applyParam =>
    refine has_of_keeps (by rw [applyParam_eq]) ?_ e
    exact recordedError_none rfl nofun rfl rfl
  | setRamp p | stepRamp p =>
    refine has_of_keeps rfl ?_ e
    exact recordedError_none (by cases p <;> rfl) nofun rfl rfl
  | storeTaps hc =>
    refine has_of_keeps rfl ?_ e
    exact recordedError_none rfl (fun _ => hc) rfl rfl
  | writeSample hc hn | setFrequency hc hn | increment hc hn =>
    refine has_of_keeps rfl ?_ e
    exact recordedError_none (decide_eq_false (Nat.not_le.2 hn)) (fun _ => hc) rfl rfl
  | render hc hr =>
    have hne : e ≠ .E_RANGE := fun h => he h ⟨rfl, hc, hr⟩
    refine ((renderBody_changes _ _ _).has_eq hne).trans (has_of_keeps rfl ?_ e)
    exact recordedError_none rfl (fun _ => hc) (by simp [breaksContract, hr]) rfl
  | renderOutOfContract hc hr =>
    refine has_of_raises (e' := .E_PRECOND) rfl ?_ e
    exact recordedError_breaksContract rfl (fun _ => hc) (by simp [breaksContract, hr])
  | renderUnconfigured hc =>
    refine has_of_raises (e' := .E_NOTCFG) rfl ?_ e
    exact recordedError_unconfigured rfl hc

end Has

/-- Settles O45: each bit set anew is the one of the error recorded. -/
theorem oneCommandRecordsAtMostOneError : Obligations.OneCommandRecordsAtMostOneError := by
  intro i s t h e e' hr hr' he ht he' ht'
  have recorded : ∀ {x : Err}, x ≠ .E_RANGE → s.STATUS.has x = false → t.STATUS.has x = true →
      recordedError s i = some x := by
    intro x hx hs ht
    rw [(effect_of_exec h).has_eq (absurd · hx), hs, Bool.or_false] at ht
    exact of_decide_eq_true ht
  exact Option.some.inj ((recorded hr he ht).symm.trans (recorded hr' he' ht'))

/-! ## Which error is recorded when -/

theorem recordedError_ne_ill (s : State) (i : Instr) : recordedError s i ≠ some .E_ILL := by
  unfold recordedError
  split_ifs <;> simp

theorem recordedError_notcfg (s : State) (i : Instr) :
    decide (recordedError s i = some .E_NOTCFG) = (i.needsFormat && !s.STATUS.CFGD) := by
  unfold recordedError
  split_ifs with hf
  · simp [hf]
  all_goals simp [hf]

theorem recordedError_sel (s : State) (i : Instr) :
    decide (recordedError s i = some .E_SEL) = (i.badSelector s && (!i.needsFormat || s.STATUS.CFGD)) := by
  have hpassed : (!i.needsFormat || s.STATUS.CFGD) = !(i.needsFormat && !s.STATUS.CFGD) := by simp
  rw [recordedError, hpassed]
  split_ifs with hf hs
  · simp [hf]
  · simp [hf, hs]
  all_goals simp [hs]

/-- CFG and RENDER have no selector to check first. -/
theorem recordedError_precond (s : State) (i : Instr) :
    decide (recordedError s i = some .E_PRECOND) =
      ((decide (i = .cfg) && !cfgValid s.params s.OPA.toNat s.OPB s.OPC.toNat s.OPD) ||
        (decide (i = .render) && s.STATUS.CFGD && !renderInContract s s.OPA.toNat s.OPB.toNat)) := by
  unfold recordedError
  cases i with
  | cfg => simp [Instr.needsFormat, Instr.badSelector, breaksContract, readsOutside]
  | render => cases s.STATUS.CFGD <;> simp [Instr.needsFormat, Instr.badSelector, breaksContract, readsOutside]
  | _ => simp only [breaksContract, Bool.false_eq_true, if_false]; split_ifs <;> simp

theorem exists_dlrd_of_recordedError_range {s : State} {i : Instr} (h : recordedError s i = some .E_RANGE) :
    ∃ c, i = .dlrd c := by
  unfold recordedError at h
  cases i with
  | dlrd c => exact ⟨c, rfl⟩
  | _ => simp only [readsOutside, Bool.false_eq_true, if_false] at h; split_ifs at h <;> cases h

theorem recordedError_dlrd_range (s : State) (c : Nat) :
    decide (recordedError s (.dlrd c) = some .E_RANGE) =
      (s.STATUS.CFGD && decide (c < s.fmt.C) && !offsetInRange s.fmt.N s.OPA) := by
  rw [recordedError]
  simp only [Instr.needsFormat, Instr.badSelector, breaksContract, readsOutside]
  split_ifs <;> simp_all

/-- Settles O44: each bit is the old one or the recorded error's, and the checks say when each error is recorded. -/
theorem eachErrorBitIsSetExactlyWhen : Obligations.EachErrorBitIsSetExactlyWhen := by
  intro i s t h
  have hx := effect_of_exec h
  have bit : ∀ e : Err, (e = .E_RANGE → ¬ Renders s i) →
      t.STATUS.has e = (s.STATUS.has e || decide (recordedError s i = some e)) := fun e he =>
    (hx.has_eq he).trans (Bool.or_comm _ _)
  have hill := bit .E_ILL nofun
  have hnotcfg := bit .E_NOTCFG nofun
  have hsel := bit .E_SEL nofun
  have hprecond := bit .E_PRECOND nofun
  rw [decide_eq_false (recordedError_ne_ill s i), Bool.or_false] at hill
  rw [recordedError_notcfg] at hnotcfg
  rw [recordedError_sel] at hsel
  rw [recordedError_precond, ← Bool.or_assoc] at hprecond
  refine ⟨hill, hnotcfg, hsel, hprecond, ?_, fun hne => ?_⟩
  · rintro c rfl
    rw [← recordedError_dlrd_range]
    exact bit .E_RANGE fun _ hr => nomatch hr.1
  · by_cases hr : Renders s i
    · exact .inr hr
    · have hrec : recordedError s i = some .E_RANGE := by
        by_contra hn
        have hrange := bit .E_RANGE fun _ => hr
        rw [decide_eq_false hn, Bool.or_false] at hrange
        exact hne hrange
      exact .inl (exists_dlrd_of_recordedError_range hrec)

end Sys2Proof.Machine
end

section
/-!
PROOFS, 70_reset_and_hazards.md R340, R341. Hardware reset from every state, the state right after it, and the two
invariants there.
-/

namespace Sys2Proof.Machine

/-! ## A step that resets and a step that waits -/

theorem step_reset (s : State) (rest : List HostAccess) :
    step { s with inputs := .reset :: rest } = .next (hardwareReset { s with inputs := rest }) := rfl

theorem step_of_no_inputs {s : State} (h : s.inputs = []) : step s = .next s := by
  unfold step
  rw [h]

/-! ## The state after reset -/

/-- INIT_p (00_scope.md R6). -/
def ParamId.init (p : Params) : ParamId → NUM
  | .RATE => p.INIT_RATE
  | .DEPTH => p.INIT_DEPTH
  | .DELAY => p.INIT_DELAY
  | .DRY => p.INIT_DRY
  | .WET => p.INIT_WET
  | .ODD90 => p.INIT_ODD90

/-- Each parameter is at rest at its INIT value (10_state.md R39). -/
@[simp] theorem State.resetFor_get (p : Params) (id : ParamId) :
    (State.resetFor p).P.get id = .still (id.init p) := by cases id <;> rfl

/-- Every INIT parameter of the decided defaults is 0.0 (R6). -/
@[simp] theorem ParamId.init_default (id : ParamId) : id.init Config.params = 0#32 := by cases id <;> rfl

@[simp] theorem State.resetFor_status_word (p : Params) : (State.resetFor p).STATUS.word = 0#32 := rfl

/-- Settles O9: the step is `hardwareReset`, and each element is that of `State.resetFor` or the old one. -/
theorem hardwareResetGivesTheResetValues : Obligations.HardwareResetGivesTheResetValues := fun s rest =>
  ⟨_, step_reset s rest, rfl, rfl, rfl, rfl, rfl, rfl, State.resetFor_status_word s.params, rfl, rfl, rfl, rfl, rfl,
    rfl, rfl, rfl, fun i => ⟨Memory.read_nil i, Memory.read_nil i⟩, rfl, rfl, rfl, rfl, rfl⟩

/-- Settles O10: the reset of the decided defaults, and the rule of a step with nothing to come. -/
theorem resetStateWaitsForTheHost : Obligations.ResetStateWaitsForTheHost := by
  have hP : ∀ id, State.reset.P.get id = Ramp.still 0#32 := fun id => by
    rw [State.reset, State.resetFor_get, ParamId.init_default]
  exact ⟨State.resetFor_status_word _, rfl, rfl, rfl, rfl, rfl, hP, rfl, rfl,
    fun i => ⟨Memory.read_nil i, Memory.read_nil i⟩, fun _ => step_of_no_inputs⟩

/-! ## The invariants after reset -/

theorem Memory.nil_sound (n : Nat) : Memory.wf [] ∧ Memory.within n [] :=
  ⟨Memory.wf_nil, List.forall_mem_nil _⟩

/-- Settles O54: every memory is empty, and neither bank nor delay line exists while CFGD = 0. -/
theorem resetMeetsTheInvariant : Obligations.ResetMeetsTheInvariant := by
  intro p
  have hmem : (State.resetFor p).memoriesSound :=
    ⟨Memory.nil_sound _, Memory.nil_sound _, Memory.nil_sound _, Memory.nil_sound _, Memory.nil_sound _⟩
  exact ⟨hmem, fun _ => ⟨rfl, rfl⟩, Bool.noConfusion⟩

theorem State.resetFor_P_settled (p : Params) : (State.resetFor p).P.settled := fun id => by
  rw [State.resetFor_get]
  exact Ramp.still_settled _

/-- Settles O56: every parameter is at rest, and there is no oscillator. -/
theorem resetRampsAreSettled : Obligations.ResetRampsAreSettled := by
  intro p
  have h := State.resetFor_P_settled p
  exact ⟨fun _ _ => ⟨h .RATE, h .DEPTH, h .DELAY, h .DRY, h .WET, h .ODD90⟩, fun _ => List.forall_mem_nil _⟩

end Sys2Proof.Machine
end

section
/-!
PROOFS, 10_state.md R44. Every step keeps ramps at rest on their targets and phases in one cycle, until a havoc.
-/

namespace Sys2Proof.Machine

/-! ## The part of the state a havoc can void -/

/-- The bank is settled, and the parameter file too where `q` asks it (log 9); unlike `AllSettled` it asks nothing of
the size of the bank, so it is meant of an unconfigured block as well. -/
def SettledWhere (q : Prop) (s : State) : Prop := (q → s.P.settled) ∧ ∀ o ∈ s.L, o.settled

/-- R44 (1) and (2), with the six ramps as one parameter file. -/
theorem State.settled_iff (s : State) : s.Settled ↔
    (s.STATUS.E_PRECOND = false → SettledWhere (s.STATUS.E_NOTCFG = false) s) := by
  have hP : s.P.settled ↔ s.P.RATE.settled ∧ s.P.DEPTH.settled ∧ s.P.DELAY.settled ∧ s.P.DRY.settled ∧
      s.P.WET.settled ∧ s.P.ODD90.settled := by
    refine ⟨fun h => ⟨h .RATE, h .DEPTH, h .DELAY, h .DRY, h .WET, h .ODD90⟩, fun h p => ?_⟩
    obtain ⟨hrate, hdepth, hdelay, hdry, hwet, hodd⟩ := h
    cases p <;> assumption
  rw [SettledWhere, hP]
  exact forall_and.symm

/-! ## Each operation keeps it -/

section

variable {q : Prop} {s : State}

theorem SettledWhere.setParam (h : SettledWhere q s) (p : ParamId) {r : Ramp} (hr : s.P.settled → r.settled) :
    SettledWhere q (s.setParam p r) :=
  ⟨fun hq => ParamFile.set_settled (h.1 hq) p (hr (h.1 hq)), h.2⟩

theorem SettledWhere.modifyOsc (h : SettledWhere q s) (i : Nat) {f : Osc → Osc}
    (hf : ∀ o, o.settled → (f o).settled) : SettledWhere q (s.modifyOsc i f) :=
  ⟨h.1, modifyOsc_settled hf i h.2⟩

theorem SettledWhere.applyParam (h : SettledWhere q s) (hinv : s.Inv) (p : Nat) (v : NUM) (n : Word) :
    SettledWhere q (applyParam p v n s) := by
  have hlen : s.STATUS.CFGD = true → s.L.length = s.params.T := fun hc => (hinv.2.2 hc).2.1
  unfold Machine.applyParam
  split
  · exact h
  · exact ⟨fun hq => applyKnown_P_settled _ _ _ (h.1 hq), applyKnown_L_settled _ _ _ hlen h.2⟩

theorem SettledWhere.renderBody (h : SettledWhere q s) (hinv : s.Inv) (hc : s.STATUS.CFGD = true) (F K : Nat) :
    SettledWhere q (renderBody F K s) := by
  have hall := renderBody_settled F K ⟨h.1, h.2, (hinv.2.2 hc).2.1⟩
  exact ⟨hall.params, hall.bank⟩

/-! ## Commands and host accesses -/

/-- A command that leaves E_PRECOND clear keeps the bank settled, and the file too if it leaves E_NOTCFG clear. -/
theorem CommandEffect.settledWhere {i : Instr} {t : State} (hx : CommandEffect s i t) (hinv : s.Inv)
    (hprecond : t.STATUS.E_PRECOND = false) (hnotcfg : q → t.STATUS.E_NOTCFG = false) (h : SettledWhere q s) :
    SettledWhere q t := by
  cases hx with
  | unconfigured | badSelector | answer | readOutside | storeTaps | writeSample => exact h
  | configure => exact ⟨h.1, buildBank_settled _ _⟩
  | deconfigure => exact ⟨h.1, List.forall_mem_nil _⟩
  | applyParam => exact h.applyParam hinv _ _ _
  | setRamp p => exact h.setParam p fun _ => rpSet_settled _ _ _
  | stepRamp p => exact h.setParam p fun hP => rpFrame_settled (hP p)
  | setFrequency => exact h.modifyOsc _ fun _ => Osc.setFrequency_settled _ _ _
  | increment => exact h.modifyOsc _ fun _ => Osc.increment_settled
  | render hc => exact h.renderBody hinv hc _ _
  | renderOutOfContract => cases hprecond
  | renderUnconfigured => exact ⟨fun hq => Bool.noConfusion (hnotcfg hq), h.2⟩

end

theorem CommandEffect.settled {i : Instr} {s t : State} (hx : CommandEffect s i t) (hinv : s.Inv)
    (h : s.Settled) : t.Settled := by
  have hclear : ∀ e, t.STATUS.has e = false → s.STATUS.has e = false := fun e ht =>
    Bool.eq_false_iff.2 fun hs => Bool.noConfusion (ht.symm.trans (hx.has hs))
  rw [State.settled_iff] at h ⊢
  intro hprecond
  obtain ⟨hP, hL⟩ := h (hclear .E_PRECOND hprecond)
  exact hx.settledWhere hinv hprecond id ⟨fun hn => hP (hclear .E_NOTCFG hn), hL⟩

theorem AccessEffect.settled {a : HostAccess} {s t : State} (hx : AccessEffect s a t) (hinv : s.Inv)
    (h : s.Settled) : t.Settled := by
  cases hx with
  | command _ hx => exact hx.settled hinv h
  | illegal | writeOPA | writeOPB | writeOPC | writeOPD | writeIN | writeOUT | writeEVQ => exact h
  | reset => exact resetRampsAreSettled s.params

/-- Settles O55: the sticky bits never go back before a reset, and every effect that leaves them clear keeps ramps
and phases settled. -/
theorem stepKeepsRampsSettledAndPhasesInCycle : Obligations.StepKeepsRampsSettledAndPhasesInCycle := by
  intro s t hinv h hstep
  rcases step_effect hstep with ⟨-, rfl⟩ | ⟨a, rest, -, hx⟩
  · exact h
  · exact hx.settled hinv h

end Sys2Proof.Machine
end

section
/-!
PROOFS, 44_engine.md R271. RENDER out of contract: which draw each havocked word becomes.
-/

namespace Sys2Proof.Machine

/-! ## The draws of a havoc (log 2) -/

theorem State.havocOUT_read (s : State) {j : Nat} (h : j < s.sampleWords) :
    s.havocOUT.OUT.read j = Config.draw (s.draws + j) := Memory.read_drawn _ h

theorem State.havocP_get (s : State) (p : ParamId) : s.havocP.P.get p = drawnRamp (s.draws + 4 * p.toNat) := by
  cases p <;> rfl

theorem State.havocLines_cursor_lt (s : State) (hN : 0 < s.fmt.N) {c : Nat} (h : c < s.fmt.C) :
    s.havocLines.cursor c < s.fmt.N := by
  rw [State.cursor, s.havocLines_line h]
  exact Nat.mod_lt _ hN

theorem State.havocLines_lineWord (s : State) {c j : Nat} (h : c < s.fmt.C) (hj : j < s.fmt.N) :
    s.havocLines.lineWord c j = Config.draw (s.draws + (s.fmt.N + 1) * c + 1 + j) := by
  rw [State.lineWord, s.havocLines_line h]
  exact Memory.read_drawn _ hj

/-! ## RENDER out of contract -/

/-- Settles O33: the havoc of OUT and P is the same under both errors, and E_PRECOND's goes on to the bank and the
delay lines. -/
theorem renderOutOfContractHavocs : Obligations.RenderOutOfContractHavocs := by
  intro s hinv W inContract anyRamp havocked
  have hboth (e : Err) : havocked (s.raise e).havocOUT.havocP :=
    have hP := (s.raise e).havocOUT.havocP_get
    ⟨fun _ => (s.raise e).havocOUT_read, hP .RATE, hP .DEPTH, hP .DELAY, hP .DRY, hP .WET, hP .ODD90⟩
  refine ⟨fun hc => ⟨_, exec_render_unconfigured hc, rfl, hboth .E_NOTCFG⟩, fun hc hout => ?_⟩
  have hr : renderInContract s s.OPA.toNat s.OPB.toNat = false :=
    Bool.eq_false_iff.2 fun h => hout ((renderInContract_iff _ _ _).1 h)
  have hN : 0 < s.fmt.N := (hinv.2.2 hc).1.N_pos
  have hosc {i : Nat} := (s.raise .E_PRECOND).havocOUT.havocP.havocL_osc (i := i)
  have hcursor {c : Nat} := (s.raise .E_PRECOND).havocOUT.havocP.havocL.havocLines_cursor_lt hN (c := c)
  refine ⟨_, exec_render_outOfContract hc hr, rfl, hboth .E_PRECOND, State.havocL_length _,
    State.havocLines_length _, fun i hi => ?_, fun c hC => ?_⟩
  · exact ⟨_, rfl, congrArg Osc.phase (hosc hi), congrArg Osc.inc (hosc hi)⟩
  · exact ⟨_, rfl, hcursor hC, fun _ hj => State.havocLines_lineWord _ hC hj⟩

end Sys2Proof.Machine
end
